-- ==== Sys2Proof/Word.lean ====
section
/-! DEFINITION. The bit vectors of the block and the command word (spec 00_scope.md R8, R9, R14; 30_encoding.md R80).

Bit 0 is the least significant bit of every value (R8): `v.getLsbD i` is the spec's `v[i]`. -/

namespace Sys2Proof

/-- A byte, bits 7 down to 0 (R8). -/
abbrev Byte := BitVec 8

/-- One half of an ECC code, held in 16 bits of which bits 11 to 0 can be nonzero (R14, R86). -/
abbrev Half := BitVec 16

/-- The ECC code word, 32 bits (R86, 90_conflicts.md C4). -/
abbrev Code := BitVec 32

/-- The response of `ENC`: e0 = [7:0], e1 = [15:8], e2 = [23:16] (R84). -/
abbrev Triple := BitVec 24

/-- A command: "a bit vector presented whole on the command port" (R80). Its length is part of it. -/
structure CmdWord where
  len  : Nat
  bits : BitVec len
  deriving DecidableEq, Repr

end Sys2Proof
end

