-- ==== Sys2Proof/Config.lean ====
section
/-! DEFINITION. The constants of this hardware (00_scope.md R6), its open parameters (R7), the environment's own state (10_state.md R32)
and the free values the spec leaves unconstrained (93_implementation_defined.md U1, U2). -/

namespace Sys2Proof.Config

/-- `BLOCK_SIZE`: bytes of one Data Block (R6). -/
abbrev blockSize : Nat := 512
/-- `LOG2_BLOCK`: the number of row-parity iterations (R6). -/
abbrev log2Block : Nat := 9
/-- `PAGE_SIZE`: input bytes consumed per page on both geometries, length of the single-plane page write, factor of the OOB offset (R6). -/
abbrev pageSize : Nat := 2048
/-- `DP_WRITE_SIZE`: length of the dual-plane page write (R6). -/
abbrev dpWriteSize : Nat := 4096
/-- `BLOCKS_PER_PAGE` (R6). -/
abbrev blocksPerPage : Nat := 4
/-- `CODE_BYTES`: bytes of one encoded code (R6). -/
abbrev codeBytes : Nat := 3
/-- `CODE_TABLE_BYTES` = `CODE_BYTES × BLOCKS_PER_PAGE` (R6). -/
abbrev codeTableBytes : Nat := codeBytes * blocksPerPage
/-- `OOB_SIZE` (R6). -/
abbrev oobSize : Nat := 64
/-- `OOB_CODE_OFFSET`: where the Code Table starts in the OOB buffer (R6). -/
abbrev oobCodeOffset : Nat := 2
/-- `FILL`, the fill byte (R6; 90_conflicts.md C3). -/
abbrev fill : Byte := 0xFF#8
/-- `PAGEBUF_SIZE` (R6, R25). -/
abbrev pageBufSize : Nat := 4096
/-- `MASK_EVEN`, the masks for bits 0, 1, 2 of the even half in that order; the spec lists them for bits 2, 1, 0 (R6, R112; C1). -/
abbrev maskEven : List Byte := [0x55#8, 0x33#8, 0x0F#8]
/-- `MASK_ODD`, the masks for bits 0, 1, 2 of the odd half in that order; the spec lists them for bits 2, 1, 0 (R6, R113; C1). -/
abbrev maskOdd : List Byte := [0xAA#8, 0xCC#8, 0xF0#8]
/-- `MASK_BYTE`, the full-byte parity mask (R6). -/
abbrev maskByte : Byte := 0xFF#8

end Sys2Proof.Config

namespace Sys2Proof

/-- The device access mode, "raw or managed" (R32). -/
inductive DeviceMode where
  | managed
  | raw
  deriving DecidableEq, Repr, Inhabited

/-- The environment's own state that the block's rules refer to: R32's table, with what the device has acknowledged. The block never reads any of
it, and a reference environment has records of its own (`Machine.RefState`, R66).
`data` and `oob` are what the device has acknowledged with `OK`; `OK` does not say that the flash holds it (R215, U14; log 7). -/
structure World where
  /-- position in the input stream (R32; `rp` of R66) -/
  inPos  : Nat
  /-- write position of the device (R32) -/
  devPos : Nat
  /-- device access mode (R32; `raw` of R66) -/
  mode   : DeviceMode
  /-- page data acknowledged, in write order (`DATA` of R66) -/
  data   : List Byte
  /-- footers acknowledged, keyed by offset, offsets rising (`OOB` of R66) -/
  oob    : List (Nat × List Byte)
  deriving DecidableEq, Repr, Inhabited

namespace Config

/-- FREE VALUE (U1; log 6). The environment's state after a request answered `ERROR` is "unconstrained": one value for each such answer. -/
opaque worldAfterFailure : Nat → World

/-- FREE VALUE (R7 `EXIT_CODES`, U2; log 9). The host-visible status of success. -/
opaque successStatus : Nat

/-- FREE VALUE (R7 `EXIT_CODES`, U2; log 9). What a failure with the `ERR` number given would answer if it differs from success. -/
opaque failureStatus : Nat → Nat

/-- The host-visible status of a failure: any value but the one of success, "only success differing from failure may be relied on" (U2). -/
def distinctFailure (errNumber : Nat) : Nat :=
  if failureStatus errNumber = successStatus then successStatus + 1 else failureStatus errNumber

end Config
end Sys2Proof
end

