-- ==== Sys2Proof/Syntax.lean ====
section
/-! DEFINITION. The commands of the block, one constructor per row of spec/opcode_table.json (30_encoding.md R81, R83). -/

namespace Sys2Proof

/-- A command on the command port. Operands are "taken from the payload fields unchanged" (R82). -/
inductive Instr where
  /-- `PAR value, mask` (op 0, format P, R100) -/
  | par (value mask : Byte)
  /-- `ECC block` (op 1, format B, R110); the block is "exactly 512 bytes", checked by `WellFormed` -/
  | ecc (block : List Byte)
  /-- `ENC code` (op 2, format C, R130) -/
  | enc (code : Code)
  /-- `INIT` (op 3, format N, R140) -/
  | init
  /-- `PAGE` (op 4, format N, R141; the paths `PAGE.SP` and `PAGE.DP` share it) -/
  | page
  /-- `RUN` (op 5, format N, R144) -/
  | run
  /-- reserved `op` 6 (R83) -/
  | reserved6
  /-- reserved `op` 7 (R83) -/
  | reserved7
  deriving DecidableEq, Repr

end Sys2Proof
end

