-- ==== Sys2Proof/Decode.lean ====
section
/-! DEFINITION. Decoding and encoding of command words (30_encoding.md R80, R81, R82, R83). -/

namespace Sys2Proof

/-- Why a command word is no command of R81. Either is refused by the block with the response `REFUSED` (R83, R195). -/
inductive DecodeError where
  /-- fewer than three bits: there is no `op` field to read (log 10) -/
  | noOpcode (len : Nat)
  /-- "a command whose length does not match the format its `op` selects" (R83) -/
  | wrongLength (op : Nat) (len : Nat)
  deriving DecidableEq, Repr

/-- The length of a command "is determined by `op` alone": formats P, B, C and N (R80, R81). -/
def formatLen (op : Nat) : Nat :=
  match op with
  | 0 => 19
  | 1 => 4099
  | 2 => 35
  | _ => 3

/-- `op = cmd[2:0]` (R80). -/
def CmdWord.op (w : CmdWord) : Nat := (w.bits.extractLsb' 0 3).toNat

/-- `block[k] = cmd[8k+10 : 8k+3]` for k = 0 to 511 (R80, format B). -/
def CmdWord.blockField (w : CmdWord) : List Byte :=
  (List.range Config.blockSize).map fun k => w.bits.extractLsb' (8 * k + 3) 8

/-- The instruction of an `op` whose format the word's length fits (R80, R81, R83). -/
def decodePayload (w : CmdWord) : Instr :=
  match w.op with
  | 0 => .par (w.bits.extractLsb' 3 8) (w.bits.extractLsb' 11 8)
  | 1 => .ecc w.blockField
  | 2 => .enc (w.bits.extractLsb' 3 32)
  | 3 => .init
  | 4 => .page
  | 5 => .run
  | 6 => .reserved6
  | _ => .reserved7

/-- The decoder, total on every command word: "a decoder reads `op` first and then knows the length" (R80). -/
def decode (w : CmdWord) : Except DecodeError Instr :=
  if w.len < 3 then .error (.noOpcode w.len)
  else if w.len = formatLen w.op then .ok (decodePayload w)
  else .error (.wrongLength w.op w.len)

/-- A byte sequence as one number, "byte 0 of the Data Block is nearest to `op`" (R80). -/
def packBytes : List Byte → Nat
  | []      => 0
  | b :: bs => b.toNat + 256 * packBytes bs

/-- The word of an instruction, from the format table of R80 and the opcode map of R81. -/
def encode : Instr → CmdWord
  | .par value mask => ⟨19, mask ++ value ++ 0#3⟩
  | .ecc block      => ⟨4099, BitVec.ofNat 4099 (8 * packBytes block + 1)⟩
  | .enc code       => ⟨35, code ++ 2#3⟩
  | .init           => ⟨3, 3#3⟩
  | .page           => ⟨3, 4#3⟩
  | .run            => ⟨3, 5#3⟩
  | .reserved6      => ⟨3, 6#3⟩
  | .reserved7      => ⟨3, 7#3⟩

/-- The command word that a row of spec/opcode_table.json gives, from its bits numbered as the table numbers them. The table's rows are
3, 19, 35 or 4099 bits long and `nbits` counts whole bytes, so the command's own length is the one its `op` selects (R80); a word with a
bit set above that length is presented at its length of `nbits`, which no format has. -/
def tableCommand (nbits w : Nat) : CmdWord :=
  let v := w % 2 ^ nbits
  let n := formatLen (v % 8)
  if v < 2 ^ n then ⟨n, BitVec.ofNat n v⟩ else ⟨nbits, BitVec.ofNat nbits v⟩

/-- What the decoder reads from a row of the opcode table. -/
def decodeTableWord (nbits w : Nat) : Option Instr :=
  match decode (tableCommand nbits w) with
  | .ok i    => some i
  | .error _ => none

end Sys2Proof
end

