-- ==== Sys2Proof/Machine/Operands.lean ====
section
/-! DEFINITION. Operand decomposition and response layout: the bytes `p[n]` of a code (20_memory.md R51, 30_encoding.md R82) and the 24-bit
response of `ENC` (R84). Payload fields are taken unchanged by the decoder (R82), so no operand is extended, scaled or shifted. -/

namespace Sys2Proof.Machine

/-- `p[n] = code[8n+7 : 8n]`, a definition on the value and not on a memory layout (R51). -/
def codeByte (code : Code) (n : Nat) : Byte := code.extractLsb' (8 * n) 8

/-- The response layout of `ENC`: `e0` = [7:0], `e1` = [15:8], `e2` = [23:16] (R84). -/
def packTriple (e : Byte × Byte × Byte) : Triple := e.2.2 ++ e.2.1 ++ e.1

/-- A 16-bit half from its bits, the first of the list being bit 0 (R112, R113, R115: "Place the even bit into bit position (3 + i)"). -/
def halfOf (bits : List Bool) : Half :=
  bits.foldr (fun b acc => acc <<< 1 ||| (if b then 1#16 else 0#16)) 0#16

/-- `XOR(k in S) f(k)` over a list whose first entry has index `k`: the exclusive or of the entries whose index is selected (R9). -/
def xorOver (sel : Nat → Bool) (k : Nat) : List Bool → Bool
  | []      => false
  | b :: bs => (sel k && b) ^^ xorOver sel (k + 1) bs

end Sys2Proof.Machine
end

