-- ==== Sys2Proof/Machine/State.lean ====
section
/-! DEFINITION. The state of the block as plain data (10_state.md R20 to R36), with its command port (30_encoding.md R80, R84), its environment
ports (20_memory.md R63), the run's observable history (R65) and the environment's own state (R32); the state after reset (R33, R34, R210). -/

namespace Sys2Proof.Machine

/-- `GEOM`, the Flash Geometry (R21). -/
inductive Geom where
  | none
  | single
  | dual
  deriving DecidableEq, Repr

/-- `STATE`, the control state of the Page Packer (R22). -/
inductive Ctl where
  | idle
  | ready
  | done
  | failed
  deriving DecidableEq, Repr

/-- `ERR`, the cause of the fatal error (R23, R180). -/
inductive Err where
  | none
  | geomNotFound
  | modeSelect
  | readError
  | writeErrorPage
  | writeErrorOob
  deriving DecidableEq, Repr

/-- The exceptions the block can raise (R180). -/
inductive Exc where
  | geomNotFound
  | modeSelect
  | readError
  | writeErrorPage
  | writeErrorOob
  deriving DecidableEq, Repr

/-- The two internal, random-access spaces (R50). -/
inductive Space where
  | pageBuf
  | oobBuf
  deriving DecidableEq, Repr

/-- The content of one space: the bytes that have been written, addresses strictly rising (`Memory.wf`). An unlisted address holds no value
(R34: "A model may take any initial content, including 'no value'"; log 2). -/
abbrev Memory := List Host.Cell

/-- Answers of `GeomQuery` (R63). -/
inductive GeomAnswer where
  | single
  | dual
  | notFound
  deriving DecidableEq, Repr

/-- Answers of `RawMode`, `PageWrite` and `OobWrite` (R63). -/
inductive Ack where
  | ok
  | error
  deriving DecidableEq, Repr

/-- The bytes of a `DATA` answer: `0 <= len(s) <= 2048` (R63; "there is no other answer"). -/
structure InData where
  bytes : List Byte
  fits  : bytes.length ≤ 2048
  deriving DecidableEq, Repr

/-- Answers of `InRead` (R63). -/
inductive ReadAnswer where
  | error
  | data (d : InData)
  deriving DecidableEq, Repr

/-- A request on an environment port with its payload (R11, R63). A payload "is a copy of the buffer content at the moment of the request" (R35). -/
inductive Request where
  | geomQuery
  | rawMode
  | inRead (n : Nat)
  | pageWrite (payload : List Byte)
  | oobWrite (payload : List Byte) (off : Nat)
  deriving DecidableEq, Repr

/-- A port event: "a request with its payload and its response" (R65). -/
inductive Event where
  | geomQuery (r : GeomAnswer)
  | rawMode (r : Ack)
  | inRead (n : Nat) (r : ReadAnswer)
  | pageWrite (payload : List Byte) (r : Ack)
  | oobWrite (payload : List Byte) (off : Nat) (r : Ack)
  deriving DecidableEq, Repr

/-- The commands that can be in progress while the block waits for the environment (R140, R141, R144). -/
inductive Activity where
  | init
  | page
  | run
  deriving DecidableEq, Repr

/-- A command in progress with its one outstanding request (R58 (a)). -/
structure Busy where
  activity : Activity
  request  : Request
  deriving DecidableEq, Repr

/-- What the status port shows (R36). -/
structure Status where
  ctl     : Ctl
  err     : Err
  geom    : Geom
  pageIdx : Nat
  deriving DecidableEq, Repr

/-- The response to a command (R84). -/
inductive Response where
  /-- of `PAR`: 1 bit -/
  | bit (q : Bool)
  /-- of `ECC`: 32 bits -/
  | code (c : Code)
  /-- of `ENC`: 24 bits -/
  | triple (t : Triple)
  /-- of `INIT`, `PAGE`, `RUN`: the status tuple after the command -/
  | status (st : Status)
  /-- of a refused command (R195): "no data" -/
  | refused
  deriving DecidableEq, Repr

/-- What the host presents to the block: a command (R80), or reset (R210). -/
inductive HostInput where
  | command (w : CmdWord)
  | reset
  deriving DecidableEq, Repr

/-- The answers the environment has ready, one queue for each port, the next answer first. An empty queue is an environment that has not
answered (R198). -/
structure Answers where
  geom : List GeomAnswer
  raw  : List Ack
  read : List ReadAnswer
  page : List Ack
  oob  : List Ack
  deriving DecidableEq, Repr

/-- The state. The first six fields are "the complete architectural state of the block" (R20). -/
structure State where
  /-- `GEOM` (R21) -/
  geom      : Geom
  /-- `STATE` (R22) -/
  ctl       : Ctl
  /-- `ERR` (R23) -/
  err       : Err
  /-- `PAGEIDX`, an exact natural number (R24) -/
  pageIdx   : Nat
  /-- `PAGEBUF`, indices 0 to 4095 (R25) -/
  pageBuf   : Memory
  /-- `OOBBUF`, indices 0 to 63 (R26) -/
  oobBuf    : Memory
  /-- the command in progress and the request it waits on (R58 (a), R84, R198); none between commands -/
  busy      : Option Busy
  /-- what the host presents, the next input first (R84, R210) -/
  inputs    : List HostInput
  /-- the responses given on the command port, oldest first (R84) -/
  responses : List Response
  /-- the port events of this run, oldest first (R65) -/
  history   : List Event
  /-- the environment's answers (R63) -/
  answers   : Answers
  /-- the environment's own state (R32) -/
  world     : World
  /-- `MAX_PAGES`, a parameter: none is unbounded (R7, R24) -/
  maxPages  : Option Nat
  /-- the model's own counter of free values taken (log 6) -/
  freeCount : Nat
  deriving DecidableEq, Repr

/-- Why a step stops. No instruction of the table stops on every path. -/
inductive Fault where
  /-- Raised by `step` between commands when the host presents nothing: no step is enabled. Safe. -/
  | noCommand
  /-- Raised by `step` when the outstanding request has no answer: "this agent has no enabled step" (R198, U8). Safe. -/
  | noAnswer
  /-- Raised by `memRead` on a byte that nothing has written: R34 says no rule does so. Safe. -/
  | unspecifiedByte
  /-- Raised by `memRead` and `memWrite` on an index outside the space (R50): R53 says it cannot happen. Safe. -/
  | outsideSpace
  /-- Raised by the geometry dispatch on `GEOM = NONE`, which R141 says cannot occur in `STATE = READY`. Safe. -/
  | noGeometry
  deriving DecidableEq, Repr

/-- Why a step refuses. The block's own `REFUSED` (R195) is a response and no refusal of the model. -/
inductive Refusal where
  /-- An instruction without a meaning, by its mnemonic; raised by `exec` only. Safe. No arm raises it now. -/
  | notModelled (mnemonic : String)
  deriving DecidableEq, Repr

/-- No answer ready on any port. -/
def Answers.empty : Answers := { geom := [], raw := [], read := [], page := [], oob := [] }

/-- The environment at the start: as R66's reference environment before its first request (log 7). -/
def World.start : World := { inPos := 0, devPos := 0, mode := .managed, data := [], oob := [] }

/-- The state right after reset (R33, R34, R210): nothing presented, nothing answered. -/
def State.reset : State :=
  { geom := .none, ctl := .idle, err := .none, pageIdx := 0, pageBuf := [], oobBuf := [],
    busy := none, inputs := [], responses := [], history := [], answers := Answers.empty,
    world := World.start, maxPages := none, freeCount := 0 }

end Sys2Proof.Machine
end

