-- ==== Sys2Proof/Machine/Flags.lean ====
section
/-! DEFINITION. The block has no flags and no condition codes (10_state.md R30). What its commands branch on is `STATE`, `GEOM`, `MAX_PAGES`
and the environment's answers; the conditions on state stand here (60_exceptions.md R195). -/

namespace Sys2Proof.Machine

/-- `INIT` and `RUN` execute only in `IDLE` (R140, R144, R195). -/
def State.admitsStart (s : State) : Bool := s.ctl == .idle

/-- "`MAX_PAGES` finite and `PAGEIDX = MAX_PAGES`" (R141, R144, R195). -/
def State.atBound (s : State) : Bool := s.maxPages == some s.pageIdx

/-- `PAGE` executes only in `READY` and below the bound (R141, R195). -/
def State.admitsPage (s : State) : Bool := s.ctl == .ready && !s.atBound

/-- The answers ready on all ports together: each port transaction takes one of them (R63). -/
def Answers.count (a : Answers) : Nat :=
  a.geom.length + a.raw.length + a.read.length + a.page.length + a.oob.length

end Sys2Proof.Machine
end

