-- ==== Sys2Proof/Machine/Memory.lean ====
section
/-! DEFINITION. Reading and writing one space: bytes at consecutive indices, lowest index first (00_scope.md R10, 20_memory.md R52). -/

namespace Sys2Proof.Machine

/-- The canonical form: addresses strictly rising, each listed once. -/
abbrev Memory.wf (m : Memory) : Prop := m.Pairwise fun c d => c.1 < d.1

/-- The byte at an index, if it has been written (R34). -/
def Memory.readByte (m : Memory) (a : Nat) : Option Byte :=
  (m.find? fun c => c.1 == a).map (·.2)

/-- A byte sequence laid out at `a`, `a + 1`, and so on. -/
def Memory.cells (a : Nat) : List Byte → Memory
  | []      => []
  | b :: bs => (a, b) :: Memory.cells (a + 1) bs

/-- The written cells at indices `a` to `a + n - 1`. -/
def Memory.slice (m : Memory) (a n : Nat) : Memory :=
  m.filter fun c => a ≤ c.1 && c.1 < a + n

/-- The `n` bytes at indices `a` to `a + n - 1`, if every one of them has been written: in the canonical form the slice then has `n` cells. -/
def Memory.read (m : Memory) (a n : Nat) : Option (List Byte) :=
  if (m.slice a n).length = n then some ((m.slice a n).map (·.2)) else none

/-- The memory with the bytes `bs` at index `a` onward and every other byte as before. -/
def Memory.write (m : Memory) (a : Nat) (bs : List Byte) : Memory :=
  m.filter (fun c => c.1 < a) ++ Memory.cells a bs ++ m.filter (fun c => a + bs.length ≤ c.1)

end Sys2Proof.Machine
end

