-- ==== Sys2Proof/Machine/Ops.lean ====
section
/-! DEFINITION. The named operations over the state (00_scope.md R10, R11): the buffers, the command port, the environment ports, the
exception entry (60_exceptions.md R189), the refusal (R195) and reset (70_reset_and_hazards.md R210). -/

namespace Sys2Proof.Machine

/-! ## Buffers -/

/-- The number of bytes of a space (R50). -/
def Space.size : Space → Nat
  | .pageBuf => Config.pageBufSize
  | .oobBuf  => Config.oobSize

/-- The content of a space. -/
def State.space (s : State) : Space → Memory
  | .pageBuf => s.pageBuf
  | .oobBuf  => s.oobBuf

/-- The state with the content of one space replaced. -/
def State.setSpace (s : State) (sp : Space) (m : Memory) : State :=
  match sp with
  | .pageBuf => { s with pageBuf := m }
  | .oobBuf  => { s with oobBuf := m }

/-- `MemRead(space, addr, n)` (R10). -/
def memRead (sp : Space) (a n : Nat) (s : State) : Except Fault (List Byte) :=
  if a + n ≤ sp.size then
    match (s.space sp).read a n with
    | some bs => .ok bs
    | none    => .error .unspecifiedByte
  else .error .outsideSpace

/-- `MemWrite(space, addr, len(bs), bs)` (R10). -/
def memWrite (sp : Space) (a : Nat) (bs : List Byte) (s : State) : Except Fault State :=
  if a + bs.length ≤ sp.size then .ok (s.setSpace sp ((s.space sp).write a bs))
  else .error .outsideSpace

/-! ## Command and status ports -/

/-- The value a status read gives (R36). -/
def State.status (s : State) : Status :=
  { ctl := s.ctl, err := s.err, geom := s.geom, pageIdx := s.pageIdx }

/-- The status port: the host reads it "at any time the block is not inside a command; the read has no side effect" (R36). -/
def State.statusPort (s : State) : Option Status :=
  match s.busy with
  | none   => some s.status
  | some _ => none

/-- A response on the command port (R84). -/
def State.respond (s : State) (r : Response) : State :=
  { s with responses := s.responses ++ [r] }

/-- Refusal: "response `REFUSED`, no state change and no port activity" (R195). -/
def refuse (s : State) : State := s.respond .refused

/-- The end of `INIT`, `PAGE` or `RUN`: the command is over and its response is the status tuple (R84). -/
def complete (s : State) : State :=
  { s with busy := none, responses := s.responses ++ [.status s.status] }

/-! ## Exceptions -/

/-- The code an exception puts into `ERR` (R180). -/
def Exc.code : Exc → Err
  | .geomNotFound   => .geomNotFound
  | .modeSelect     => .modeSelect
  | .readError      => .readError
  | .writeErrorPage => .writeErrorPage
  | .writeErrorOob  => .writeErrorOob

/-- Exception entry: "`ERR <- code of X`; `STATE <- FAILED`; the command in progress ends and responds with the status tuple. Nothing else
changes" (R189). There is no return from an exception (R190). -/
def raise (x : Exc) (s : State) : State :=
  complete { s with err := x.code, ctl := .failed }

/-! ## Environment ports -/

/-- The block issues a request for a command and waits (R11). -/
def issue (c : Activity) (r : Request) (s : State) : State :=
  { s with busy := some ⟨c, r⟩ }

/-- A port event whose answer is `ERROR`. -/
def Event.isError : Event → Bool
  | .geomQuery _          => false
  | .rawMode .ok          => false
  | .rawMode .error       => true
  | .inRead _ (.data _)   => false
  | .inRead _ .error      => true
  | .pageWrite _ .ok      => false
  | .pageWrite _ .error   => true
  | .oobWrite _ _ .ok     => false
  | .oobWrite _ _ .error  => true

/-- The acknowledged footers with the one at `off` replaced: `OOB[off] <- s` (R66). -/
def putFooter (oob : List (Nat × List Byte)) (off : Nat) (payload : List Byte) : List (Nat × List Byte) :=
  oob.filter (fun e => e.1 < off) ++ [(off, payload)] ++ oob.filter (fun e => off < e.1)

/-- What a port event does to the environment: R32's table and R66 for an answer that is not `ERROR` (log 16); after `ERROR` "the environment's state
is unconstrained" (U1), the free value number `n` (log 6). The reference environment, where a fault "changes nothing" (R66), is `RefState`. -/
def worldAfter (n : Nat) (e : Event) (w : World) : World :=
  match e with
  | .geomQuery _             => w
  | .rawMode .ok             => { w with mode := .raw }
  | .inRead _ (.data d)      => { w with inPos := w.inPos + d.bytes.length }
  | .pageWrite payload .ok   => { w with devPos := w.devPos + payload.length, data := w.data ++ payload }
  | .oobWrite payload off .ok => { w with oob := putFooter w.oob off payload }
  | .rawMode .error          => Config.worldAfterFailure n
  | .inRead _ .error         => Config.worldAfterFailure n
  | .pageWrite _ .error      => Config.worldAfterFailure n
  | .oobWrite _ _ .error     => Config.worldAfterFailure n

/-- One port transaction takes place: "a request, then exactly one response" (R55). It is entered in the run's history (R65). -/
def record (e : Event) (s : State) : State :=
  { s with history := s.history ++ [e], world := worldAfter s.freeCount e s.world,
           freeCount := if e.isError then s.freeCount + 1 else s.freeCount }

/-- The state with the environment's answers replaced. -/
def State.withAnswers (s : State) (a : Answers) : State := { s with answers := a }

/-! ## Host inputs -/

/-- The next input the host presents, taken from the port. -/
def fetch (s : State) : Option (HostInput × State) :=
  match s.inputs with
  | []      => none
  | x :: xs => some (x, { s with inputs := xs })

/-- Reset: "the four control elements to their reset values and leaves the buffers unspecified"; it "does not touch the environment" (R210).
A new run's history begins (log 8). -/
def applyReset (s : State) : State :=
  { s with geom := .none, ctl := .idle, err := .none, pageIdx := 0, pageBuf := [], oobBuf := [],
           busy := none, history := [] }

/-- What the end of a run is answered to the host, once the run is over: `EXIT_CODES` (R7, R36, U2). The numbers of `ERR` are R180's. -/
def Err.number : Err → Nat
  | .none           => 0
  | .geomNotFound   => 1
  | .modeSelect     => 2
  | .readError      => 3
  | .writeErrorPage => 4
  | .writeErrorOob  => 5

/-- The numbers of `GEOM` (R21). -/
def Geom.number : Geom → Nat
  | .none   => 0
  | .single => 1
  | .dual   => 2

/-- The numbers of `STATE` (R22). -/
def Ctl.number : Ctl → Nat
  | .idle   => 0
  | .ready  => 1
  | .done   => 2
  | .failed => 3

/-- The host-visible status of a run that is over: success is `STATE = DONE`, failure is `STATE = FAILED` with `ERR` as the cause (R36). -/
def Status.exitStatus (st : Status) : Option Nat :=
  match st.ctl with
  | .done   => some Config.successStatus
  | .failed => some (Config.distinctFailure st.err.number)
  | .idle   => none
  | .ready  => none

end Sys2Proof.Machine
end

