-- ==== Sys2Proof/Machine/Encoder.lean ====
section
/-! DEFINITION. Unit block_encoder, command `ENC` (42_block_encoder.md R130 to R135). -/

namespace Sys2Proof.Machine

/-- `e2 = trunc_8(p1 | (p3 << 4))`: the shift is "formed in at least 12 bits, then the OR is cut to 8" (R130, R131). -/
def encThird (p1 p3 : Byte) : Byte :=
  (p1.setWidth 12 ||| p3.setWidth 12 <<< 4).setWidth 8

/-- `ENC(code)`: the three bytes `(e0, e1, e2)` = `[p[0], p[2], p[1] | (p[3] << 4)]` (R130). -/
def enc (code : Code) : Byte × Byte × Byte :=
  (codeByte code 0, codeByte code 2, encThird (codeByte code 1) (codeByte code 3))

/-- The command `ENC` (R130): its response is the three bytes in the layout of R84; it changes nothing. -/
def execEnc (code : Code) (s : State) : Host.Outcome State Fault Refusal :=
  .next (s.respond (.triple (packTriple (enc code))))

end Sys2Proof.Machine
end

