-- ==== Sys2Proof/Machine/Parity.lean ====
section
/-! DEFINITION. Unit parity_engine, command `PAR` (40_parity_engine.md R100 to R103). -/

namespace Sys2Proof.Machine

/-- `PAR(value, mask)`: "for each of the 8 bit positions, if the corresponding mask bit is set, XOR the corresponding value bit into a
running result; return the low bit of the accumulator" (R100). The accumulator is 1 bit (D33). -/
def par (value mask : Byte) : Bool :=
  (List.range 8).foldl (fun acc i => if mask.getLsbD i then acc ^^ value.getLsbD i else acc) false

/-- The command `PAR` (R100): its response is the bit `q`; it changes nothing (R102). -/
def execPar (value mask : Byte) (s : State) : Host.Outcome State Fault Refusal :=
  .next (s.respond (.bit (par value mask)))

end Sys2Proof.Machine
end

