-- ==== Sys2Proof/Machine/Hamming.lean ====
section
/-! DEFINITION. Unit hamming_ecc_calculator, command `ECC` (41_hamming_ecc_calculator.md R110 to R124). -/

namespace Sys2Proof.Machine

/-- Step 1: "XOR of all 512 bytes of the block" (R111). -/
def lineParity (block : List Byte) : Byte := block.foldr (· ^^^ ·) 0#8

/-- Step 4: every byte's own parity, `bp[k] = PAR(block[k], 0xFF)` (R114). -/
def byteParities (block : List Byte) : List Bool := block.map fun b => par b Config.maskByte

/-- The even set of iteration `i`: `k mod (2 × chunk) < chunk` with `chunk = 2^i` (R115). -/
def inEvenSet (i k : Nat) : Bool := k % (2 * 2 ^ i) < 2 ^ i

/-- The odd set of iteration `i`: `k mod (2 × chunk) >= chunk` (R115). -/
def inOddSet (i k : Nat) : Bool := k % (2 * 2 ^ i) ≥ 2 ^ i

/-- Steps 2, 3 and 5 for one half: three column parities in bits 0 to 2 (R112, R113), nine row parities in bits 3 to 11 (R115). -/
def halfBits (masks : List Byte) (inSet : Nat → Nat → Bool) (block : List Byte) : List Bool :=
  masks.map (par (lineParity block)) ++
    (List.range Config.log2Block).map fun i => xorOver (inSet i) 0 (byteParities block)

/-- The even half (R112, R115). -/
def evenHalf (block : List Byte) : Half := halfOf (halfBits Config.maskEven inEvenSet block)

/-- The odd half (R113, R115). -/
def oddHalf (block : List Byte) : Half := halfOf (halfBits Config.maskOdd inOddSet block)

/-- `ECC(block)`. Step 6: `(zext_32(oddHalf) << 16) | zext_32(evenHalf)` (R110, R116; 90_conflicts.md C2). -/
def ecc (block : List Byte) : Code :=
  (oddHalf block).setWidth 32 <<< 16 ||| (evenHalf block).setWidth 32

/-- The command `ECC` (R110): its response is the code; it changes nothing. A block of another length "cannot be presented" (R110): such a
term is a command whose length does not match its format and is refused (R83). -/
def execEcc (block : List Byte) (s : State) : Host.Outcome State Fault Refusal :=
  if block.length = Config.blockSize then .next (s.respond (.code (ecc block))) else .next (s.respond .refused)

end Sys2Proof.Machine
end

