-- ==== Sys2Proof/Machine/Packer.lean ====
section
/-! DEFINITION. Unit page_packer_geom_dispatcher, commands `INIT`, `PAGE`, `RUN` (43_page_packer_geom_dispatcher.md R140 to R155).

A command issues a request and waits; each answer is one port transaction (`transact`), which runs the command's pseudocode up to its next
request or its end (R3, R58). A meaning is the whole command: it runs transactions until the command has completed or its outstanding request has
no answer (R198). A step of the machine runs one transaction of it (Accept.lean, Step.lean). -/

namespace Sys2Proof.Machine

/-! ## Building a page -/

/-- Step 1 of R142 and R143: "for a in 0 .. n-1: PAGEBUF[a] <- 0xFF". -/
def clearPage (n : Nat) (s : State) : Except Fault State :=
  memWrite .pageBuf 0 (List.replicate n Config.fill) s

/-- The three bytes of block `k` go to `OOBBUF[2+3k .. 2+3k+2]` in the order `e0`, `e1`, `e2` (R135, R142 step 3, R147). -/
def placeCode (k : Nat) (s : State) : Except Fault State := do
  let block ← memRead .pageBuf (Config.blockSize * k) Config.blockSize s
  let e := enc (ecc block)
  memWrite .oobBuf (Config.oobCodeOffset + Config.codeBytes * k) [e.1, e.2.1, e.2.2] s

/-- The codes of the blocks listed, in the order of the list. -/
def placeCodes : List Nat → State → Except Fault State
  | [],      s => .ok s
  | k :: ks, s => do
    let s1 ← placeCode k s
    placeCodes ks s1

/-- Step 3 of R142: all 64 bytes of `OOBBUF` are set to the fill byte, then the four codes are placed. -/
def buildFooter (s : State) : Except Fault State := do
  let s1 ← memWrite .oobBuf 0 (List.replicate Config.oobSize Config.fill) s
  placeCodes (List.range Config.blocksPerPage) s1

/-- Step 3 of R143: "for a in 0 .. 2047: PAGEBUF[2048 + a] <- PAGEBUF[a]". -/
def duplicatePage (s : State) : Except Fault State := do
  let half ← memRead .pageBuf 0 Config.pageSize s
  memWrite .pageBuf Config.pageSize half s

/-! ## The page loop -/

/-- The geometry dispatch of R141 with steps 1 and 2 of the path taken: clear, then request one page's worth of input (R142, R143). -/
def startPage (c : Activity) (s : State) : Except Fault State :=
  match s.geom with
  | .single => do
    let s1 ← clearPage Config.pageSize s
    .ok (issue c (.inRead Config.pageSize) s1)
  | .dual => do
    let s1 ← clearPage Config.dpWriteSize s
    .ok (issue c (.inRead Config.pageSize) s1)
  | .none => .error .noGeometry

/-- The loop head of `RUN`: while `STATE = READY` and below the bound, another page; else the command ends (R144; 90_conflicts.md C10). -/
def loopRun (s : State) : Except Fault State :=
  if s.ctl == .ready && !s.atBound then startPage .run s else .ok (complete s)

/-- The end of a phase: `RUN` goes on with its loop, `INIT` and `PAGE` end (R144). -/
def continueWith (c : Activity) (s : State) : Except Fault State :=
  match c with
  | .run  => loopRun s
  | .init => .ok (complete s)
  | .page => .ok (complete s)

/-! ## One step for each answer -/

/-- `INIT` after the answer of `GeomQuery` (R140, R181). -/
def afterGeomQuery (c : Activity) (g : GeomAnswer) (s : State) : Except Fault State :=
  match g with
  | .notFound => .ok (raise .geomNotFound s)
  | .single   => .ok (issue c .rawMode { s with geom := .single })
  | .dual     => continueWith c { s with geom := .dual, ctl := .ready }

/-- `INIT` after the answer of `RawMode` (R140, R182). -/
def afterRawMode (c : Activity) (a : Ack) (s : State) : Except Fault State :=
  match a with
  | .error => .ok (raise .modeSelect s)
  | .ok    => continueWith c { s with ctl := .ready }

/-- `PAGE.SP` with `m >= 1` input bytes: steps 2 to 4 of R142 up to the page write. -/
def packSingle (c : Activity) (bs : List Byte) (s : State) : Except Fault State := do
  let s1 ← memWrite .pageBuf 0 bs s
  let s2 ← buildFooter s1
  let payload ← memRead .pageBuf 0 Config.pageSize s2
  .ok (issue c (.pageWrite payload) s2)

/-- `PAGE.DP` with `m >= 1` input bytes: steps 2 to 4 of R143 up to the page write. -/
def packDual (c : Activity) (bs : List Byte) (s : State) : Except Fault State := do
  let s1 ← memWrite .pageBuf 0 bs s
  let s2 ← duplicatePage s1
  let payload ← memRead .pageBuf 0 Config.dpWriteSize s2
  .ok (issue c (.pageWrite payload) s2)

/-- `PAGE` after the answer of `InRead`: an error is fatal (R183), no byte is the end of the stream (R146), any other answer makes a page (R145). -/
def afterInRead (c : Activity) (r : ReadAnswer) (s : State) : Except Fault State :=
  match r with
  | .error  => .ok (raise .readError s)
  | .data d =>
    if d.bytes = [] then continueWith c { s with ctl := .done }
    else
      match s.geom with
      | .single => packSingle c d.bytes s
      | .dual   => packDual c d.bytes s
      | .none   => .error .noGeometry

/-- Step 5 of R142 and R143: "PAGEIDX <- PAGEIDX + 1". -/
def advancePage (c : Activity) (s : State) : Except Fault State :=
  continueWith c { s with pageIdx := s.pageIdx + 1 }

/-- The footer of the page goes to offset `PAGEIDX × 2048` (R57, R142 step 4, R148). -/
def requestFooter (c : Activity) (s : State) : Except Fault State := do
  let payload ← memRead .oobBuf 0 Config.oobSize s
  .ok (issue c (.oobWrite payload (s.pageIdx * Config.pageSize)) s)

/-- `PAGE` after the answer of `PageWrite` (R142 step 4, R143 step 4, R184). -/
def afterPageWrite (c : Activity) (a : Ack) (s : State) : Except Fault State :=
  match a with
  | .error => .ok (raise .writeErrorPage s)
  | .ok    =>
    match s.geom with
    | .single => requestFooter c s
    | .dual   => advancePage c s
    | .none   => .error .noGeometry

/-- `PAGE.SP` after the answer of `OobWrite` (R142 steps 4 and 5, R185). -/
def afterOobWrite (c : Activity) (a : Ack) (s : State) : Except Fault State :=
  match a with
  | .error => .ok (raise .writeErrorOob s)
  | .ok    => advancePage c s

/-! ## Transactions -/

/-- One port transaction: the answer to the outstanding request is received and the command goes on to its next request or its end
(R3, R55, R58). None while the environment has not answered (R198). -/
def transact (b : Busy) (s : State) : Option (Except Fault State) :=
  match b.request with
  | .geomQuery =>
    match s.answers.geom with
    | []        => none
    | g :: rest => some (afterGeomQuery b.activity g (record (.geomQuery g) { s with answers := { s.answers with geom := rest } }))
  | .rawMode =>
    match s.answers.raw with
    | []        => none
    | a :: rest => some (afterRawMode b.activity a (record (.rawMode a) { s with answers := { s.answers with raw := rest } }))
  | .inRead n =>
    match s.answers.read with
    | []        => none
    | r :: rest => some (afterInRead b.activity r (record (.inRead n r) { s with answers := { s.answers with read := rest } }))
  | .pageWrite payload =>
    match s.answers.page with
    | []        => none
    | a :: rest => some (afterPageWrite b.activity a (record (.pageWrite payload a) { s with answers := { s.answers with page := rest } }))
  | .oobWrite payload off =>
    match s.answers.oob with
    | []        => none
    | a :: rest => some (afterOobWrite b.activity a (record (.oobWrite payload off a) { s with answers := { s.answers with oob := rest } }))

/-- The request a command waits on has its answer (R198). -/
def State.answered (s : State) (b : Busy) : Bool := (transact b s).isSome

/-- Transactions until the command has completed or waits for an answer that is not there; `fuel` bounds their number. -/
def drive : Nat → State → Host.Outcome State Fault Refusal
  | 0,        s => .next s
  | fuel + 1, s =>
    match s.busy with
    | none   => .next s
    | some b =>
      match transact b s with
      | none            => .next s
      | some (.error f) => .fault f
      | some (.ok t)    => drive fuel t

/-- A command in progress goes on as far as the environment has answered: each transaction takes one answer, so their number bounds the run. -/
def proceed (s : State) : Host.Outcome State Fault Refusal := drive s.answers.count s

/-! ## The commands -/

/-- The command `INIT` (R140): refused outside `IDLE`, else `GeomQuery` is its first request. -/
def execInit (s : State) : Host.Outcome State Fault Refusal :=
  if s.admitsStart then proceed (issue .init .geomQuery s) else .next (refuse s)

/-- The command `PAGE` (R141): refused outside `READY` and at `MAX_PAGES`, else one page on the path the geometry selects. -/
def execPage (s : State) : Host.Outcome State Fault Refusal :=
  if s.admitsPage then
    match startPage .page s with
    | .error f => .fault f
    | .ok t    => proceed t
  else .next (refuse s)

/-- The command `RUN` (R144): refused outside `IDLE`, else `INIT` and then the page loop. -/
def execRun (s : State) : Host.Outcome State Fault Refusal :=
  if s.admitsStart then proceed (issue .run .geomQuery s) else .next (refuse s)

/-- The reserved command `op` 6: "response `REFUSED`, no state change, no port activity" (R83). -/
def execReserved6 (s : State) : Host.Outcome State Fault Refusal := .next (refuse s)

/-- The reserved command `op` 7: "response `REFUSED`, no state change, no port activity" (R83). -/
def execReserved7 (s : State) : Host.Outcome State Fault Refusal := .next (refuse s)

end Sys2Proof.Machine
end

