-- ==== Sys2Proof/Machine/Dispatch.lean ====
section
/-! DEFINITION. The meaning of each instruction, one arm per constructor of `Instr`. -/

namespace Sys2Proof.Machine

def exec (i : Instr) (s : State) : Host.Outcome State Fault Refusal :=
  match i with
  | .par value mask => Sys2Proof.Machine.execPar value mask s
  | .ecc block => Sys2Proof.Machine.execEcc block s
  | .enc code => Sys2Proof.Machine.execEnc code s
  | .init => Sys2Proof.Machine.execInit s
  | .page => Sys2Proof.Machine.execPage s
  | .run => Sys2Proof.Machine.execRun s
  | .reserved6 => Sys2Proof.Machine.execReserved6 s
  | .reserved7 => Sys2Proof.Machine.execReserved7 s

end Sys2Proof.Machine
end

