-- ==== Sys2Proof/Machine/Accept.lean ====
section
/-! DEFINITION. The step that takes a command from the command port: "a step of the block is one port transaction or one command completion"
(00_scope.md R3). -/

namespace Sys2Proof.Machine

/-- A command is taken. The meaning runs with the environment's answers held back, since no answer arrives before its request is made (R11): it
completes, or issues its first request. Then the first port transaction takes place if that request is answered, else the command waits
(R3, R198; log 1). -/
def accept (i : Instr) (s : State) : Host.Outcome State Fault Refusal :=
  match exec i (s.withAnswers Answers.empty) with
  | .next t    => drive 1 (t.withAnswers s.answers)
  | .fault f   => .fault f
  | .refused r => .refused r

end Sys2Proof.Machine
end

