-- ==== Sys2Proof/Machine/Step.lean ====
section
/-! DEFINITION. One step of the machine, "one port transaction or one command completion" (00_scope.md R3): a command in progress makes one port
transaction when its request is answered (20_memory.md R58, R198); between commands the next host input is taken (30_encoding.md R84): a command that
decodes runs to its completion or its first transaction, one that does not is refused (R83), reset resets (R210). -/

namespace Sys2Proof.Machine

/-- One step. Reset is taken between commands only: inside a command the spec advises not to admit it (R210, U12; log 8). -/
def step (s : State) : Host.Outcome State Fault Refusal :=
  match s.busy with
  | some b => if s.answered b then drive 1 s else .fault .noAnswer
  | none =>
    match fetch s with
    | none               => .fault .noCommand
    | some (.reset, t)     => .next (applyReset t)
    | some (.command w, t) =>
      match decode w with
      | .ok i    => accept i t
      | .error _ => .next (refuse t)

/-- The state with an instruction's word presented as the very next command: it is the first input of the host, and no command is in progress. -/
def State.withFetchWord (s : State) (nbits w : Nat) : State :=
  { s with inputs := .command (tableCommand nbits w) :: s.inputs, busy := none }

end Sys2Proof.Machine
end

