-- ==== Sys2Proof/Machine/Reference.lean ====
section
/-! DEFINITION. The reference environment of 20_memory.md R66, "a deterministic oracle" that is "not part of the block": its records, its answer to
each request, with its fault injections, and the block running with it. -/

namespace Sys2Proof.Machine

/-- What the reference environment is given: an input, a geometry answer and the optional faults (R66). R66 does not say from where it counts the
`j`-th read, page write or OOB write: the model counts the requests of each kind from 1, failed ones with them (DESIGN CHOICE, log 17). `failRaw` fails the mode select, over several runs each one of
them (DESIGN CHOICE, log 18). -/
structure RefEnv where
  input    : List Byte
  geom     : GeomAnswer
  failRaw  : Bool
  failRead : Option Nat
  failPage : Option Nat
  failOob  : Option Nat
  deriving DecidableEq, Repr

/-! ## The oracle -/

/-- The records of the reference environment: R66's `rp`, `raw`, `DATA` and `OOB`, and how many requests of each kind that can fail by number there
have been. -/
structure RefState where
  env   : RefEnv
  rp    : Nat
  raw   : Bool
  data  : List Byte
  oob   : List (Nat × List Byte)
  reads : Nat
  pages : Nat
  oobs  : Nat
  deriving DecidableEq, Repr

/-- The records before the first request (R66). -/
def RefEnv.start (e : RefEnv) : RefState :=
  { env := e, rp := 0, raw := false, data := [], oob := [], reads := 0, pages := 0, oobs := 0 }

/-- "`IN[rp .. rp+min(n, len(IN)-rp)-1]`": the next `n` bytes or what is left of them (R66). An answer carries at most 2048 bytes (R63) and the
block asks for 2048 (R53). -/
def RefState.nextBytes (e : RefState) (n : Nat) : InData :=
  ⟨(e.env.input.drop e.rp).take (min n 2048), by simp [List.length_take]⟩

/-- The answer to a request, as the port event it makes, and the records after it (R66). "An injected fault answers `ERROR` and changes nothing": only
the request is counted. Over several runs the mode-select fault fails every `RawMode` request: R66 and P8 speak of one mode select in one run
(DESIGN CHOICE, log 18). -/
def RefState.respond (r : Request) (e : RefState) : Event × RefState :=
  match r with
  | .geomQuery => (.geomQuery e.env.geom, e)
  | .rawMode => if e.env.failRaw then (.rawMode .error, e) else (.rawMode .ok, { e with raw := true })
  | .inRead n =>
    let e1 := { e with reads := e.reads + 1 }
    if e.env.failRead = some e1.reads then (.inRead n .error, e1)
    else (.inRead n (.data (e.nextBytes n)), { e1 with rp := e.rp + (e.nextBytes n).bytes.length })
  | .pageWrite payload =>
    let e1 := { e with pages := e.pages + 1 }
    if e.env.failPage = some e1.pages then (.pageWrite payload .error, e1)
    else (.pageWrite payload .ok, { e1 with data := e.data ++ payload })
  | .oobWrite payload off =>
    let e1 := { e with oobs := e.oobs + 1 }
    if e.env.failOob = some e1.oobs then (.oobWrite payload off .error, e1)
    else (.oobWrite payload off .ok, { e1 with oob := putFooter e.oob off payload })

/-- The answer of an event arrives at its port. -/
def Answers.deliver (a : Answers) (e : Event) : Answers :=
  match e with
  | .geomQuery g    => { a with geom := a.geom ++ [g] }
  | .rawMode r      => { a with raw := a.raw ++ [r] }
  | .inRead _ r     => { a with read := a.read ++ [r] }
  | .pageWrite _ r  => { a with page := a.page ++ [r] }
  | .oobWrite _ _ r => { a with oob := a.oob ++ [r] }

/-- The block with the reference environment. -/
structure RefSystem where
  env   : RefState
  block : State
  deriving DecidableEq, Repr

/-- One step of the two together, over as many runs as the host starts: the environment answers the outstanding request; where it has, or none is
outstanding, the block steps (R58 (g), R66). -/
def RefSystem.step (y : RefSystem) : Host.Outcome RefSystem Fault Refusal :=
  let blockStep : Host.Outcome RefSystem Fault Refusal :=
    match Machine.step y.block with
    | .next t    => .next { y with block := t }
    | .fault f   => .fault f
    | .refused r => .refused r
  match y.block.busy with
  | none   => blockStep
  | some b =>
    if y.block.answered b then blockStep
    else
      let r := y.env.respond b.request
      .next { env := r.2, block := y.block.withAnswers (y.block.answers.deliver r.1) }

/-! ## The answers of one run, in advance -/

/-- The number of pages an input makes, `ceil(L / 2048)` (R144). -/
def pageCount (input : List Byte) : Nat := (input.length + 2047) / 2048

/-- The answer to the read after `j` full reads: "`IN[rp .. rp+min(n, len(IN)-rp)-1]`" with `rp = 2048 × j`, `n = 2048` (R66, duty (2) of R64). -/
def chunkAnswer (input : List Byte) (j : Nat) : ReadAnswer :=
  .data ⟨(input.drop (2048 * j)).take 2048, by simp [List.length_take]⟩

/-- The reads of one run: every page's bytes and the zero bytes that end the stream (R64, R66); up to the failing one where a fault is injected,
counted from 1 (log 17). -/
def RefEnv.reads (e : RefEnv) : List ReadAnswer :=
  let all := (List.range (pageCount e.input + 1)).map (chunkAnswer e.input)
  match e.failRead with
  | some (j + 1) => all.take j ++ [.error]
  | some 0       => all
  | none         => all

/-- `n` answers of a write port, all `OK` but the one a fault is injected at, counted from 1 (log 17). -/
def acks (n : Nat) (fail : Option Nat) : List Ack :=
  match fail with
  | some (j + 1) => (List.replicate n .ok).set j .error
  | some 0       => List.replicate n .ok
  | none         => List.replicate n .ok

/-- The answers of the reference environment for one run from its start, as queues (R66). `RefSystem.step` gives them one by one, for any number of
runs. -/
def RefEnv.answers (e : RefEnv) : Answers :=
  { geom := [e.geom], raw := [if e.failRaw then .error else .ok], read := e.reads,
    page := acks (pageCount e.input) e.failPage, oob := acks (pageCount e.input) e.failOob }

/-- The reference environment without faults. -/
def RefEnv.plain (input : List Byte) (g : GeomAnswer) : RefEnv :=
  { input := input, geom := g, failRaw := false, failRead := none, failPage := none, failOob := none }

end Sys2Proof.Machine
end

