-- ==== Sys2Proof/WellFormed.lean ====
section
/-! DEFINITION. Which terms of `Instr` are commands of the block: the payload of `ECC` is exactly one Data Block (30_encoding.md R80, R110). -/

namespace Sys2Proof

/-- "The `ECC` payload is exactly 512 bytes by construction of the format" (R80). Every other operand is a bit vector of its field's width. -/
def Instr.wellFormed : Instr → Bool
  | .par _ _   => true
  | .ecc block => block.length == Config.blockSize
  | .enc _     => true
  | .init      => true
  | .page      => true
  | .run       => true
  | .reserved6 => true
  | .reserved7 => true

end Sys2Proof
end

