-- ==== Sys2Proof/Safety.lean ====
section
/-! DEFINITION. The terms claims are stated in: bit counts and bit addresses of a block (R9, R120), the page and footer layouts (20_memory.md R56),
when a run is over (70_reset_and_hazards.md R215), which commands are refused (60_exceptions.md R195), and the invariants of the machine (R22, R58). -/

namespace Sys2Proof

/-! ## Bits -/

/-- `popcount(v)`: the number of 1 bits (R9). -/
def popcount {n : Nat} (v : BitVec n) : Nat := ((List.range n).filter fun i => v.getLsbD i).length

/-- Parity of a count: 1 when it is odd. -/
def isOdd (n : Nat) : Bool := n % 2 == 1

/-- The number of 1 bits of the bytes at indices `k`, `k + 1`, … whose bit address `A = 8 × k + b` is selected (R120). -/
def onesAt (sel : Nat → Bool) (k : Nat) : List Byte → Nat
  | []      => 0
  | b :: bs => ((List.range 8).filter fun i => b.getLsbD i && sel (8 * k + i)).length + onesAt sel (k + 1) bs

/-- The number of indices `k`, `k + 1`, … that are selected and whose byte has an odd number of 1 bits (R114, R115). -/
def oddBytesAt (sel : Nat → Bool) (k : Nat) : List Byte → Nat
  | []      => 0
  | b :: bs => (if sel k && isOdd (popcount b) then 1 else 0) + oddBytesAt sel (k + 1) bs

/-- The addresses of the 1 bits of a block, `A = 8 × k + b`, rising (R120 (c)). -/
def oneAddresses (k : Nat) : List Byte → List Nat
  | []      => []
  | b :: bs => ((List.range 8).filter fun i => b.getLsbD i).map (8 * k + ·) ++ oneAddresses (k + 1) bs

/-- The bytewise exclusive or of two blocks (R120 (a)). -/
def xorBlocks (x y : List Byte) : List Byte := List.zipWith (· ^^^ ·) x y

/-- The block whose only 1 bit stands at address `A` (R120 (b)). -/
def bitBlock (A : Nat) : List Byte := (List.replicate 512 0#8).set (A / 8) (1#8 <<< (A % 8))

/-- `(A << 16) | (A ^ 0xFFF)`, the code of a single bit at address `A` (R120 (b)). -/
def singleBitCode (A : Nat) : Code := BitVec.ofNat 32 A <<< 16 ||| (BitVec.ofNat 32 A ^^^ 0xFFF#32)

/-- A code the calculator can produce: bits 31 to 28 and 15 to 12 are 0 (R117). -/
abbrev isCalculatorCode (code : Code) : Prop := code &&& 0xF000F000#32 = 0#32

/-- The inverse of `ENC` on calculator codes: `e0 | (e2 & 0x0F) << 8 | e1 << 16 | (e2 >> 4) << 24` (R132). -/
def unpackTriple (e : Byte × Byte × Byte) : Code :=
  e.1.setWidth 32 ||| (e.2.2 &&& 0x0F#8).setWidth 32 <<< 8 ||| e.2.1.setWidth 32 <<< 16 ||| (e.2.2 >>> 4).setWidth 32 <<< 24

namespace Machine

/-! ## Layouts -/

/-- The page made of the input bytes: "padded with the fill byte (0xFF) up to full page length" (R56, R145). -/
def padPage (bs : List Byte) : List Byte := bs ++ List.replicate (2048 - bs.length) 0xFF#8

/-- Data Block `k` of a page (R25). -/
def pageBlock (page : List Byte) (k : Nat) : List Byte := (page.drop (512 * k)).take 512

/-- The encoded code of Data Block `k`: three bytes in encoder output order (R147). -/
def encodedBlock (page : List Byte) (k : Nat) : List Byte :=
  let e := enc (ecc (pageBlock page k))
  [e.1, e.2.1, e.2.2]

/-- The out-of-band buffer of a page: 2 fill bytes, 4 encoded codes in block order, 50 fill bytes (R56, R88). -/
def footer (page : List Byte) : List Byte :=
  List.replicate 2 0xFF#8 ++ (encodedBlock page 0 ++ encodedBlock page 1 ++ encodedBlock page 2 ++ encodedBlock page 3) ++ List.replicate 50 0xFF#8

/-- The payload of a page write: the page on single-plane, the page twice on dual-plane geometry (R56). -/
def pagePayload (g : Geom) (page : List Byte) : List Byte :=
  match g with
  | .single => page
  | .dual   => page ++ page
  | .none   => []

/-- The length of the page write, and of the range of `PAGEBUF` cleared for a page: 2048 bytes on single-plane, 4096 on dual-plane geometry
(R21, R63, R142, R143). -/
def writeLength : Geom → Nat
  | .none   => 0
  | .single => 2048
  | .dual   => 4096

/-! ## The end of a run -/

/-- "A run is over when `STATE` is `DONE` or `FAILED`" (R215). -/
def State.over (s : State) : Bool := s.ctl == .done || s.ctl == .failed

/-- A run is over with success exactly when `STATE = DONE` (R199, R215). -/
def State.success (s : State) : Bool := s.ctl == .done

/-! ## Refusal -/

/-- The cases in which a command presented on the command port is refused, row by row (R195). A word of fewer than three bits matches no
format's length either. -/
def refusalCase (w : CmdWord) (s : State) : Bool :=
  w.op == 6 || w.op == 7 || w.len != formatLen w.op
    || ((w.op == 3 || w.op == 5) && s.ctl != .idle)
    || (w.op == 4 && s.ctl != .ready)
    || (w.op == 4 && s.maxPages == some s.pageIdx)

/-! ## Events -/

/-- A page completed by an event: on single-plane its `OobWrite` answered `OK`, on dual-plane its `PageWrite` answered `OK` (R24). -/
def completesPage (g : Geom) (e : Event) : Bool :=
  match g, e with
  | .single, .oobWrite _ _ .ok => true
  | .dual,   .pageWrite _ .ok  => true
  | _,       _                 => false

/-- An `InRead` answered with at least one byte (R215). -/
def readsBytes (e : Event) : Bool :=
  match e with
  | .inRead _ (.data d) => d.bytes != []
  | _                   => false

/-- An event whose answer raises an exception (R180). -/
def raises (e : Event) : Bool :=
  match e with
  | .geomQuery .notFound => true
  | e                    => e.isError

/-- The shape of a request and its payload on a geometry (R53, R63, R149). -/
def shapeOk (g : Geom) (e : Event) : Bool :=
  match e with
  | .geomQuery _          => true
  | .rawMode _            => g == .single
  | .inRead n _           => n == 2048
  | .pageWrite payload _  => payload.length == writeLength g
  | .oobWrite payload off _ => g == .single && payload.length == 64 && off % 2048 == 0

/-! ## The run's history explained -/

/-- What the block is to request next, in the order of R58 (b) to (e); a page that is being written is carried along. -/
inductive Await where
  | geometry
  | rawMode
  | input
  | pageWrite (page : List Byte)
  | footer (page : List Byte)
  | nothing
  deriving DecidableEq, Repr

/-- The run as its events tell it: what the status port would show, and what is to be requested next. -/
structure View where
  geom    : Geom
  ctl     : Ctl
  err     : Err
  pageIdx : Nat
  await   : Await
  deriving DecidableEq, Repr

/-- Before the first event (R33). -/
def View.start : View := { geom := .none, ctl := .idle, err := .none, pageIdx := 0, await := .geometry }

/-- The view after a fatal error: "no further request is issued on any environment port" (R10, R189). -/
def View.fail (v : View) (e : Err) : View := { v with err := e, ctl := .failed, await := .nothing }

/-- The view after one event, if the rules allow that event there: its place in the order (R58), its payload (R56) and its offset (R57). -/
def View.next (v : View) (e : Event) : Option View :=
  match v.await, e with
  | .geometry, .geomQuery .notFound => some (v.fail .geomNotFound)
  | .geometry, .geomQuery .single   => some { v with geom := .single, await := .rawMode }
  | .geometry, .geomQuery .dual     => some { v with geom := .dual, ctl := .ready, await := .input }
  | .rawMode,  .rawMode .error      => some (v.fail .modeSelect)
  | .rawMode,  .rawMode .ok         => some { v with ctl := .ready, await := .input }
  | .input,    .inRead n .error     => if n = 2048 then some (v.fail .readError) else none
  | .input,    .inRead n (.data d)  =>
    if n = 2048 then
      if d.bytes = [] then some { v with ctl := .done, await := .nothing }
      else some { v with await := .pageWrite (padPage d.bytes) }
    else none
  | .pageWrite page, .pageWrite payload a =>
    if payload = pagePayload v.geom page then
      match a with
      | .error => some (v.fail .writeErrorPage)
      | .ok    => if v.geom = .single then some { v with await := .footer page }
                  else some { v with pageIdx := v.pageIdx + 1, await := .input }
    else none
  | .footer page, .oobWrite payload off a =>
    if payload = Machine.footer page ∧ off = v.pageIdx * 2048 then
      match a with
      | .error => some (v.fail .writeErrorOob)
      | .ok    => some { v with pageIdx := v.pageIdx + 1, await := .input }
    else none
  | _, _ => none

/-- The view after a sequence of events, if the rules allow that sequence. -/
def View.afterEvents (v : View) : List Event → Option View
  | []      => some v
  | e :: es =>
    match v.next e with
    | some v' => v'.afterEvents es
    | none    => none

/-- What the block waits on, and what its buffers hold, when the next event is the one awaited (R142, R143). Between commands no request is
outstanding. -/
def awaits (s : State) (await : Await) : Prop :=
  match await, s.busy with
  | .geometry, none => True
  | .geometry, some b => b.activity ≠ .page ∧ b.request = .geomQuery
  | .rawMode, some b => b.activity ≠ .page ∧ b.request = .rawMode
  | .input, none => True
  | .input, some b => b.activity ≠ .init ∧ b.request = .inRead 2048 ∧
      s.pageBuf.slice 0 (writeLength s.geom) = Memory.cells 0 (List.replicate (writeLength s.geom) 0xFF#8)
  | .pageWrite page, some b => b.activity ≠ .init ∧ b.request = .pageWrite (pagePayload s.geom page) ∧
      (s.geom = .single → s.oobBuf.slice 0 64 = Memory.cells 0 (Machine.footer page))
  | .footer page, some b => b.activity ≠ .init ∧ b.request = .oobWrite (Machine.footer page) (s.pageIdx * 2048)
  | .nothing, none => True
  | _, _ => False

/-- The history of the run explains the state: the events stand in the order, with the payloads and the offsets of the rules, and `GEOM`, `STATE`,
`ERR`, `PAGEIDX` and the outstanding request are what those events lead to (R58, R65). -/
def RunInv (s : State) : Prop :=
  ∃ v : View, View.start.afterEvents s.history = some v ∧
    s.geom = v.geom ∧ s.ctl = v.ctl ∧ s.err = v.err ∧ s.pageIdx = v.pageIdx ∧ awaits s v.await

/-- The buffers are in canonical form and hold no byte outside their spaces (R50). -/
def BufferInv (s : State) : Prop :=
  s.pageBuf.wf ∧ (∀ c ∈ s.pageBuf, c.1 < 4096) ∧ s.oobBuf.wf ∧ (∀ c ∈ s.oobBuf, c.1 < 64)

/-- The two states agree on all the environment can see of the block and all the block acts on; buffers, the environment's own state and the
counter of free values may differ (R34, R65). -/
def SameButBuffers (s t : State) : Prop :=
  s.geom = t.geom ∧ s.ctl = t.ctl ∧ s.err = t.err ∧ s.pageIdx = t.pageIdx ∧ s.busy = t.busy ∧ s.inputs = t.inputs ∧
    s.responses = t.responses ∧ s.history = t.history ∧ s.answers = t.answers ∧ s.maxPages = t.maxPages

/-- `PAGE` commands one after another, at most `n`, while they are admitted and no command is in progress (R85, R144). -/
def pagesWhileAdmitted : Nat → State → Host.Outcome State Fault Refusal
  | 0,     s => .next s
  | n + 1, s =>
    if s.busy = none ∧ s.admitsPage then
      match exec .page s with
      | .next t    => pagesWhileAdmitted n t
      | .fault f   => .fault f
      | .refused r => .refused r
    else .next s

/-- A command is in progress and its request is answered. -/
def State.canGoOn (s : State) : Bool :=
  match s.busy with
  | some b => s.answered b
  | none   => false

/-- Steps of the command in progress, at most `n`, while it can go on. -/
def goOn : Nat → State → Host.Outcome State Fault Refusal
  | 0,     s => .next s
  | n + 1, s =>
    if s.canGoOn then
      match step s with
      | .next t    => goOn n t
      | .fault f   => .fault f
      | .refused r => .refused r
    else .next s

/-- The step that takes a command, and up to `n` further steps of it. -/
def runCommand (n : Nat) (s : State) : Host.Outcome State Fault Refusal :=
  match step s with
  | .next t    => goOn n t
  | .fault f   => .fault f
  | .refused r => .refused r

end Machine
end Sys2Proof
end

