-- ==== Sys2Proof/Certificates/Slice0/Obligations.lean ====
section
/-! DEFINITION. The statements for the provers. Each docstring says which rule of the spec its statement formalises. -/

open Sys2Proof Sys2Proof.Machine

/-! ## Commands and their encoding -/

/-- R80, R81, R82: decoding the word of a well-formed command gives the command back, with every operand at every value. -/
def Obligations.DecodeEncodeRoundTrip : Prop :=
  ∀ i : Instr, i.wellFormed = true → decode (encode i) = .ok i

/-- R80, R81: a command word has one meaning only: what it decodes to is well-formed and encodes to that very word. -/
def Obligations.EveryWordHasOneMeaning : Prop :=
  ∀ (w : CmdWord) (i : Instr), decode w = .ok i → i.wellFormed = true ∧ encode i = w

/-- R80, R81: words written out from the format table decode to the commands they stand for (95_test_vectors.md A17, B10, P14). -/
def Obligations.SampleWordsDecode : Prop :=
  decode ⟨19, 0x07DB8#19⟩ = .ok (.par 0xB7#8 0x0F#8) ∧ decode ⟨35, 0x091A2B3C2#35⟩ = .ok (.enc 0x12345678#32) ∧
    decode ⟨3, 0b011#3⟩ = .ok .init ∧ decode ⟨3, 0b100#3⟩ = .ok .page ∧ decode ⟨3, 0b101#3⟩ = .ok .run ∧
    decode ⟨3, 0b110#3⟩ = .ok .reserved6 ∧ decode ⟨3, 0b111#3⟩ = .ok .reserved7 ∧
    decode ⟨19, 0x07DBA#19⟩ = .error (.wrongLength 2 19)

/-- R3, R80, R84: between commands a step takes the command presented and runs what its word decodes to. Around `exec` the step holds back the
environment's answers, which come only after their requests, so that the command completes or issues its first request; then one port transaction takes
place if that request is answered (the model's choice, log 1). -/
def Obligations.StepRunsDecodedCommand : Prop :=
  ∀ (s : State) (w : CmdWord) (rest : List HostInput) (i : Instr),
    s.busy = none → s.inputs = .command w :: rest → decode w = .ok i →
    step s = match exec i { s with inputs := rest, answers := Answers.empty } with
      | .next t    => drive 1 { t with answers := s.answers }
      | .fault f   => .fault f
      | .refused r => .refused r

/-- R80: a word of the opcode table presented by `withFetchWord` is what the very next step takes (how a program comes to run is the model's
choice, log 3). -/
def Obligations.StepRunsFetchWord : Prop :=
  ∀ (s : State) (nbits w : Nat) (i : Instr),
    decodeTableWord nbits w = some i → step (s.withFetchWord nbits w) = accept i { s with busy := none }

/-- R195 (the spec's decision D13; a word of fewer than three bits is the model's reading, log 10): a command is refused, with response `REFUSED`, no state change and no port activity, in exactly the cases of R195's table. -/
def Obligations.RefusedInExactlyTheCasesOfR195 : Prop :=
  ∀ (s : State) (w : CmdWord) (rest : List HostInput), s.busy = none → s.inputs = .command w :: rest →
    (refusalCase w s = true → step s = .next { s with inputs := rest, responses := s.responses ++ [.refused] }) ∧
    (refusalCase w s = false → ∀ t, step s = .next t → ∀ r, t.responses = s.responses ++ [r] → r ≠ .refused)

/-- R83: the reserved commands are refused, with no state change and no port activity. -/
def Obligations.ReservedCommandsAreRefused : Prop :=
  ∀ s : State, exec .reserved6 s = .next { s with responses := s.responses ++ [.refused] } ∧
    exec .reserved7 s = .next { s with responses := s.responses ++ [.refused] }

/-- R110, R83: an `ECC` whose operand is not one Data Block is refused (the model's reading of "cannot be presented", log 11). -/
def Obligations.EccOfAnotherLengthIsRefused : Prop :=
  ∀ (block : List Byte) (s : State), block.length ≠ 512 →
    exec (.ecc block) s = .next { s with responses := s.responses ++ [.refused] }

/-- R84: every command gets exactly one response, after all its port activity has finished: none while it is in progress. -/
def Obligations.OneResponsePerCommand : Prop :=
  ∀ s t : State, step s = .next t →
    (s.busy ≠ none ∨ ∃ w rest, s.inputs = .command w :: rest) →
    (t.busy = none → ∃ r, t.responses = s.responses ++ [r]) ∧ (t.busy ≠ none → t.responses = s.responses)

/-! ## The parity engine -/

/-- R100 (the count of 1 bits is the form the spec infers from its pseudocode, the encoding its decision D3, log 15): the word with `op = 0`, `value` at [10:3] and `mask` at [18:11] is `PAR`; it answers the parity of the value under the mask,
`popcount(value & mask) mod 2`, for all operands in every state, and changes nothing else. -/
def Obligations.ParAnswersMaskedParity : Prop :=
  ∀ (value mask : Byte) (s : State),
    decode ⟨19, mask ++ value ++ 0#3⟩ = .ok (.par value mask) ∧
    exec (.par value mask) s = .next { s with responses := s.responses ++ [.bit (isOdd (popcount (value &&& mask)))] }

/-- R101 (the spec's own inference from R100): `PAR` is linear in the value and in the mask, and each pair of column masks splits the byte's parity. -/
def Obligations.ParIsLinear : Prop :=
  ∀ a b m n : Byte,
    par (a ^^^ b) m = (par a m ^^ par b m) ∧ par a (m ^^^ n) = (par a m ^^ par a n) ∧
    (m &&& n = 0#8 → par a (m ||| n) = (par a m ^^ par a n)) ∧
    (∀ p ∈ [(0x0F#8, 0xF0#8), (0x33#8, 0xCC#8), (0x55#8, 0xAA#8)],
      p.1 &&& p.2 = 0#8 ∧ p.1 ||| p.2 = 0xFF#8 ∧ (par a p.1 ^^ par a p.2) = par a 0xFF#8)

/-- R103: the masks 0x55, 0x33, 0x0F select the bit indices `b` with `b[0]`, `b[1]`, `b[2]` = 0, 0xAA, 0xCC, 0xF0 those with 1, and 0xFF all. -/
def Obligations.MasksSelectBitIndices : Prop :=
  ∀ v : Byte, par v 0xFF#8 = isOdd (popcount v) ∧ ∀ p ∈ [(0, 0x55#8, 0xAA#8), (1, 0x33#8, 0xCC#8), (2, 0x0F#8, 0xF0#8)],
    par v p.2.1 = isOdd ((List.range 8).filter fun b => v.getLsbD b && !b.testBit p.1).length ∧
    par v p.2.2 = isOdd ((List.range 8).filter fun b => v.getLsbD b && b.testBit p.1).length

/-! ## The calculator -/

/-- R110, in the form the spec infers from it in R117 and R120 (the pairing of masks and bits is its decision D28, log 15): `ECC` of a Data Block answers a code and changes nothing else; bit `j` of its odd half is the parity of the 1 bits whose address
`A = 8k + b` has `A[j] = 1`, bit `j` of its even half of those with `A[j] = 0`, and bits 31 to 28 and 15 to 12 are 0. -/
def Obligations.EccAnswersAddressParities : Prop :=
  ∀ (block : List Byte) (s : State), block.length = 512 → ∃ c : Code,
    exec (.ecc block) s = .next { s with responses := s.responses ++ [.code c] } ∧
    (∀ j, j < 12 → c.getLsbD (16 + j) = isOdd (onesAt (fun A => A.testBit j) 0 block)) ∧
    (∀ j, j < 12 → c.getLsbD j = isOdd (onesAt (fun A => !A.testBit j) 0 block)) ∧
    (∀ j, j < 4 → c.getLsbD (12 + j) = false ∧ c.getLsbD (28 + j) = false)

/-- R111, R112, R113 (the pairing of masks and bits is the spec's decision D28, log 15): the column parities of `lineParity`, which is the exclusive or of all bytes of the block: masks 0x0F, 0x33, 0x55 give bits
2, 1, 0 of the even half, masks 0xF0, 0xCC, 0xAA those of the odd half. -/
def Obligations.EccColumnParities : Prop :=
  ∀ block : List Byte, block.length = 512 → ∃ L : Byte,
    (∀ b, b < 8 → L.getLsbD b = isOdd (onesAt (fun A => A % 8 == b) 0 block)) ∧
    (ecc block).getLsbD 2 = par L 0x0F#8 ∧ (ecc block).getLsbD 1 = par L 0x33#8 ∧ (ecc block).getLsbD 0 = par L 0x55#8 ∧
    (ecc block).getLsbD 18 = par L 0xF0#8 ∧ (ecc block).getLsbD 17 = par L 0xCC#8 ∧ (ecc block).getLsbD 16 = par L 0xAA#8 ∧
    (∀ j, j < 3 → (ecc block).getLsbD j = isOdd (onesAt (fun A => !(A % 8).testBit j) 0 block) ∧
      (ecc block).getLsbD (16 + j) = isOdd (onesAt (fun A => (A % 8).testBit j) 0 block))

/-- R115: the row parities: for each `i` in 0..8 the even set is every `k` with `k mod 2^(i+1) < 2^i`, the odd set the rest, 256 members each, and
their parities stand in bit `3 + i` of the halves. -/
def Obligations.EccRowParities : Prop :=
  ∀ block : List Byte, block.length = 512 → ∀ i, i < 9 →
    (ecc block).getLsbD (3 + i) = isOdd (oddBytesAt (fun k => k % (2 * 2 ^ i) < 2 ^ i) 0 block) ∧
    (ecc block).getLsbD (16 + (3 + i)) = isOdd (oddBytesAt (fun k => k % (2 * 2 ^ i) ≥ 2 ^ i) 0 block) ∧
    (∀ k, k % (2 * 2 ^ i) < 2 ^ i ↔ k.testBit i = false) ∧
    ((List.range 512).filter fun k => k % (2 * 2 ^ i) < 2 ^ i).length = 256 ∧
    ((List.range 512).filter fun k => k % (2 * 2 ^ i) ≥ 2 ^ i).length = 256

/-- R117 (the spec's own inference from R112 to R116): for every block `code[15:12] = 0`, `code[31:28] = 0` and `code & 0xF000F000 = 0`; each of the other 24 bits is 1 for some block. -/
def Obligations.EccAlwaysZeroBits : Prop :=
  (∀ block : List Byte, block.length = 512 →
    (ecc block).extractLsb' 12 4 = 0#4 ∧ (ecc block).extractLsb' 28 4 = 0#4 ∧ ecc block &&& 0xF000F000#32 = 0#32) ∧
  (∀ j, j < 12 → (∃ block : List Byte, block.length = 512 ∧ (ecc block).getLsbD j = true) ∧
    ∃ block : List Byte, block.length = 512 ∧ (ecc block).getLsbD (16 + j) = true)

/-- R119: the code of the block of all zero bytes is 0. -/
def Obligations.EccOfZeroBlockIsZero : Prop :=
  ecc (List.replicate 512 0#8) = 0#32

/-- R120 (the spec's own inference from R101 and R110 to R116): (a) `ECC` is linear over exclusive or; (b) the block with one 1 bit at address `A` has the code `(A << 16) | (A ^ 0xFFF)`; (c) the odd half is
the exclusive or of the addresses of the 1 bits, the even half that value, complemented in 12 bits when their number is odd. -/
def Obligations.EccIsXorOfAddresses : Prop :=
  (∀ x y : List Byte, x.length = 512 → y.length = 512 → ecc (xorBlocks x y) = ecc x ^^^ ecc y) ∧
  (∀ A, A < 4096 → ecc (bitBlock A) = singleBitCode A) ∧
  (∀ block : List Byte, block.length = 512 →
    (ecc block).extractLsb' 16 16 = BitVec.ofNat 16 ((oneAddresses 0 block).foldr (· ^^^ ·) 0) ∧
    (ecc block).extractLsb' 0 16 = (ecc block).extractLsb' 16 16 ^^^ (if (oneAddresses 0 block).length % 2 = 1 then 0x0FFF#16 else 0#16))

/-- R121 (the spec's own inference from R120): flipping the bit at address `A` changes the code by `(A << 16) | (A ^ 0xFFF)`: exactly 12 of the 24 significant bits change, one of each
even/odd pair, and the odd-half difference is the address. -/
def Obligations.EccSingleBitSensitivity : Prop :=
  ∀ (block : List Byte) (A : Nat), block.length = 512 → A < 4096 →
    ecc (xorBlocks block (bitBlock A)) ^^^ ecc block = singleBitCode A ∧
    popcount (singleBitCode A) = 12 ∧
    (∀ j, j < 12 → (singleBitCode A).getLsbD j = !(singleBitCode A).getLsbD (16 + j)) ∧
    (singleBitCode A).extractLsb' 16 16 = BitVec.ofNat 16 A

/-- R122 (the spec's own inference from R120): a byte value contributes nothing to the code, wherever it stands, exactly when its six column parities are 0, and its own parity is then 0;
0x00, 0xFF and 0xA5 are such values; the all-0xFF block has code 0 and encodes to `00 00 00`; padding with 0xFF and with 0x00 gives the same code. -/
def Obligations.EccTransparentBytes : Prop :=
  (∀ v : Byte,
    (∀ (block : List Byte) (k : Nat), block.length = 512 → k < 512 → ecc (block.set k v) = ecc (block.set k 0#8)) ↔
      ∀ m ∈ [0x0F#8, 0x33#8, 0x55#8, 0xF0#8, 0xCC#8, 0xAA#8], par v m = false) ∧
  (∀ v : Byte, (∀ m ∈ [0x0F#8, 0x33#8, 0x55#8, 0xF0#8, 0xCC#8, 0xAA#8], par v m = false) → par v 0xFF#8 = false) ∧
  (∀ v ∈ [0x00#8, 0xFF#8, 0xA5#8], ∀ m ∈ [0x0F#8, 0x33#8, 0x55#8, 0xF0#8, 0xCC#8, 0xAA#8], par v m = false) ∧
  ecc (List.replicate 512 0xFF#8) = 0#32 ∧ enc (ecc (List.replicate 512 0xFF#8)) = (0#8, 0#8, 0#8) ∧
  (∀ (xs : List Byte) (n : Nat), xs.length + n = 512 →
    ecc (xs ++ List.replicate n 0xFF#8) = ecc (xs ++ List.replicate n 0x00#8))

/-- R123 (the spec's own inference from R120): `evenHalf ^ oddHalf` is 0x000 when the block has an even number of 1 bits and 0xFFF when odd; that parity is the parity of `lineParity`
and the exclusive or of the byte parities. -/
def Obligations.EccComplementRelation : Prop :=
  ∀ block : List Byte, block.length = 512 →
    (ecc block).extractLsb' 0 16 ^^^ (ecc block).extractLsb' 16 16 =
      (if isOdd (onesAt (fun _ => true) 0 block) then 0x0FFF#16 else 0#16) ∧
    isOdd (onesAt (fun _ => true) 0 block) = par (lineParity block) 0xFF#8 ∧
    isOdd (onesAt (fun _ => true) 0 block) = isOdd (oddBytesAt (fun _ => true) 0 block)

/-! ## The block encoder -/

/-- R130 (the masked form is the one the spec infers from its pseudocode; truncation is its decision D14 of R131, the encoding its decision D3, log 15):
the word with `op = 2` and `code` at [34:3] is `ENC`; it answers `e0 = code & 0xFF`, `e1 = (code >> 16) & 0xFF`, `e2 = ((code >> 8) & 0xFF) | ((code >> 20) & 0xF0)` in the layout of R84, for
every one of the 2^32 codes, and changes nothing else. -/
def Obligations.EncInterleavesBytes : Prop :=
  ∀ (code : Code) (s : State), decode ⟨35, code ++ 2#3⟩ = .ok (.enc code) ∧ ∃ t : Triple,
    exec (.enc code) s = .next { s with responses := s.responses ++ [.triple t] } ∧
    (t.extractLsb' 0 8).setWidth 32 = code &&& 0xFF#32 ∧
    (t.extractLsb' 8 8).setWidth 32 = (code >>> 16) &&& 0xFF#32 ∧
    (t.extractLsb' 16 8).setWidth 32 = ((code >>> 8) &&& 0xFF#32) ||| ((code >>> 20) &&& 0xF0#32)

/-- R131 (the spec's decision D14): `e2 = (p1 | (p3 << 4)) mod 256`; bits 31 to 28 of the code never reach the output, bits 15 to 12 are ORed with bits 27 to 24, so `ENC`
is not injective there; for codes of `ECC` the case cannot arise. -/
def Obligations.EncTruncatesThirdByte : Prop :=
  ∀ code : Code,
    (enc code).2.2.toNat = ((code.toNat / 256 % 256) ||| (code.toNat / 16777216 % 256) * 16) % 256 ∧
    (∀ x : BitVec 4, enc (code ^^^ (x.setWidth 32 <<< 28)) = enc code) ∧
    (∀ i, i < 4 → (enc code).2.2.getLsbD (4 + i) = (code.getLsbD (12 + i) || code.getLsbD (24 + i))) ∧
    enc 0xFFFFFFFF#32 = enc 0x0FFF0FFF#32 ∧
    (∀ block : List Byte, block.length = 512 → codeByte (ecc block) 3 < 0x10#8 ∧ codeByte (ecc block) 1 < 0x10#8)

/-- R132 (the spec's own inference from R117 and R130): codes of `ECC` are calculator codes and encode to `e0 = evenHalf[7:0]`, `e1 = oddHalf[7:0]`, `e2 = {oddHalf[11:8], evenHalf[11:8]}`; on
calculator codes `ENC` is a bijection with the inverse `evenHalf = {e2[3:0], e0}`, `oddHalf = {e2[7:4], e1}`. -/
def Obligations.EncIsBijectionOnCalculatorCodes : Prop :=
  (∀ block : List Byte, block.length = 512 → isCalculatorCode (ecc block) ∧
    (codeByte (ecc block) 1).extractLsb' 4 4 = 0#4 ∧ (codeByte (ecc block) 3).extractLsb' 4 4 = 0#4 ∧
    enc (ecc block) = ((evenHalf block).extractLsb' 0 8, (oddHalf block).extractLsb' 0 8,
      (oddHalf block).extractLsb' 8 4 ++ (evenHalf block).extractLsb' 8 4)) ∧
  (∀ code : Code, isCalculatorCode code → unpackTriple (enc code) = code) ∧
  (∀ e : Byte × Byte × Byte, isCalculatorCode (unpackTriple e) ∧ enc (unpackTriple e) = e)

/-- R134 (the spec's own inference from R130 and R132): on calculator codes `ENC(a ^ b) = ENC(a) ^ ENC(b)` bytewise, and the encoded form of a block with one 1 bit at address `A`. -/
def Obligations.EncIsLinearOnCalculatorCodes : Prop :=
  (∀ a b : Code, isCalculatorCode a → isCalculatorCode b →
    enc (a ^^^ b) = ((enc a).1 ^^^ (enc b).1, (enc a).2.1 ^^^ (enc b).2.1, (enc a).2.2 ^^^ (enc b).2.2)) ∧
  (∀ A, A < 4096 → enc (ecc (bitBlock A)) =
    (BitVec.ofNat 8 (4095 - A), BitVec.ofNat 8 A, BitVec.ofNat 8 (A / 256 * 16 + (4095 - A) / 256)))

/-- R87 (the spec's own inference from R86 and R130): for a code produced by the calculator `e0 = code[7:0]`, `e1 = code[23:16]`, `e2[3:0] = code[11:8]`, `e2[7:4] = code[27:24]`. -/
def Obligations.EncOfCalculatorCode : Prop :=
  ∀ block : List Byte, block.length = 512 →
    (enc (ecc block)).1 = (ecc block).extractLsb' 0 8 ∧
    (enc (ecc block)).2.1 = (ecc block).extractLsb' 16 8 ∧
    (enc (ecc block)).2.2.extractLsb' 0 4 = (ecc block).extractLsb' 8 4 ∧
    (enc (ecc block)).2.2.extractLsb' 4 4 = (ecc block).extractLsb' 24 4

/-! ## INIT -/

/-- R140: `INIT` on single-plane geometry: `GeomQuery`, then `RawMode`; `GEOM` is latched, `STATE` becomes `READY`, the device is in raw mode (R32),
and everything else stays. -/
def Obligations.InitOnSinglePlane : Prop :=
  ∀ (s : State) (gs : List GeomAnswer) (rs : List Ack),
    s.ctl = .idle → s.answers.geom = .single :: gs → s.answers.raw = .ok :: rs →
    exec .init s = .next { s with
      geom := .single, ctl := .ready, busy := none, history := s.history ++ [.geomQuery .single, .rawMode .ok],
      answers := { s.answers with geom := gs, raw := rs }, world := { s.world with mode := .raw },
      responses := s.responses ++ [.status ⟨.ready, s.err, .single, s.pageIdx⟩] }

/-- R140: `INIT` on dual-plane geometry: `GeomQuery` only; "on dual-plane geometry `RawMode` is never requested". That `GeomQuery` leaves the
environment's state as it is, is the model's reading of R32 (log 16). -/
def Obligations.InitOnDualPlane : Prop :=
  ∀ (s : State) (gs : List GeomAnswer),
    s.ctl = .idle → s.answers.geom = .dual :: gs →
    exec .init s = .next { s with
      geom := .dual, ctl := .ready, busy := none, history := s.history ++ [.geomQuery .dual],
      answers := { s.answers with geom := gs }, responses := s.responses ++ [.status ⟨.ready, s.err, .dual, s.pageIdx⟩] }

/-- R181, R189: `GeomQuery -> NOTFOUND` raises `GeomNotFound` under `INIT` and under `RUN`: no other request is issued, `GEOM` and `PAGEIDX` stay.
That `NOTFOUND` leaves the environment's state as it is, is the model's choice (log 6, log 16). -/
def Obligations.GeometryNotFoundIsFatal : Prop :=
  ∀ (s : State) (gs : List GeomAnswer), ∀ i ∈ [Instr.init, Instr.run],
    s.ctl = .idle → s.answers.geom = .notFound :: gs →
    exec i s = .next { s with
      err := .geomNotFound, ctl := .failed, busy := none, history := s.history ++ [.geomQuery .notFound],
      answers := { s.answers with geom := gs },
      responses := s.responses ++ [.status ⟨.failed, .geomNotFound, s.geom, s.pageIdx⟩] }

/-- R182, R189: `RawMode -> ERROR` raises `ModeSelect` under `INIT` and under `RUN`, with `GEOM = SINGLE`: no read and no write is issued, `PAGEIDX`
stays. What the failed request did to the environment is any value (U1). -/
def Obligations.ModeSelectErrorIsFatal : Prop :=
  ∀ (s : State) (gs : List GeomAnswer) (rs : List Ack), ∀ i ∈ [Instr.init, Instr.run],
    s.ctl = .idle → s.answers.geom = .single :: gs → s.answers.raw = .error :: rs →
    ∃ (w : World) (n : Nat), exec i s = .next { s with
      geom := .single, err := .modeSelect, ctl := .failed, busy := none,
      history := s.history ++ [.geomQuery .single, .rawMode .error],
      answers := { s.answers with geom := gs, raw := rs }, world := w, freeCount := n,
      responses := s.responses ++ [.status ⟨.failed, .modeSelect, .single, s.pageIdx⟩] }

/-! ## PAGE -/

/-- R142, R56, R57, R148: one page on single-plane geometry. The padded page is written, then its footer at offset `PAGEIDX × 2048`; `PAGEIDX` advances by 1;
`PAGEBUF[0..2047]` holds the page and `OOBBUF[0..63]` the footer; every other byte and everything else stays. That the buffers keep their content after
the writes is the model's choice (U6, log 14); the environment's records are R32's and R66's (log 7, log 16). -/
def Obligations.PageOnSinglePlane : Prop :=
  ∀ (s : State) (d : InData) (rs : List ReadAnswer) (ps os : List Ack),
    s.ctl = .ready → s.geom = .single → s.maxPages ≠ some s.pageIdx →
    s.answers.read = .data d :: rs → d.bytes ≠ [] → s.answers.page = .ok :: ps → s.answers.oob = .ok :: os →
    ∃ p o : Memory, exec .page s = .next { s with
      pageIdx := s.pageIdx + 1, pageBuf := p, oobBuf := o, busy := none,
      history := s.history ++ [.inRead 2048 (.data d), .pageWrite (padPage d.bytes) .ok,
        .oobWrite (footer (padPage d.bytes)) (s.pageIdx * 2048) .ok],
      answers := { s.answers with read := rs, page := ps, oob := os },
      world := { s.world with
        inPos := s.world.inPos + d.bytes.length, devPos := s.world.devPos + 2048,
        data := s.world.data ++ padPage d.bytes,
        oob := putFooter s.world.oob (s.pageIdx * 2048) (footer (padPage d.bytes)) },
      responses := s.responses ++ [.status ⟨.ready, s.err, .single, s.pageIdx + 1⟩] } ∧
      (∀ a, a < d.bytes.length → p.readByte a = d.bytes[a]?) ∧
      (∀ a, d.bytes.length ≤ a → a < 2048 → p.readByte a = some 0xFF#8) ∧
      (∀ a, 2048 ≤ a → p.readByte a = s.pageBuf.readByte a) ∧
      (∀ a, a < 64 → o.readByte a = (footer (padPage d.bytes))[a]?) ∧
      (∀ a, 64 ≤ a → o.readByte a = s.oobBuf.readByte a)

/-- R143, R56: one page on dual-plane geometry. The padded page is written twice in one write of 4096 bytes; no code is computed and no out-of-band
write is issued; `OOBBUF` and everything else stays. That `PAGEBUF` keeps its content is the model's choice (U6, log 14); the environment's records are
R32's and R66's (log 7, log 16). -/
def Obligations.PageOnDualPlane : Prop :=
  ∀ (s : State) (d : InData) (rs : List ReadAnswer) (ps : List Ack),
    s.ctl = .ready → s.geom = .dual → s.maxPages ≠ some s.pageIdx →
    s.answers.read = .data d :: rs → d.bytes ≠ [] → s.answers.page = .ok :: ps →
    ∃ p : Memory, exec .page s = .next { s with
      pageIdx := s.pageIdx + 1, pageBuf := p, busy := none,
      history := s.history ++ [.inRead 2048 (.data d), .pageWrite (padPage d.bytes ++ padPage d.bytes) .ok],
      answers := { s.answers with read := rs, page := ps },
      world := { s.world with
        inPos := s.world.inPos + d.bytes.length, devPos := s.world.devPos + 4096,
        data := s.world.data ++ (padPage d.bytes ++ padPage d.bytes) },
      responses := s.responses ++ [.status ⟨.ready, s.err, .dual, s.pageIdx + 1⟩] } ∧
      (∀ a, a < d.bytes.length → p.readByte a = d.bytes[a]?) ∧
      (∀ a, d.bytes.length ≤ a → a < 2048 → p.readByte a = some 0xFF#8) ∧
      (∀ a, a < 2048 → p.readByte (2048 + a) = p.readByte a) ∧
      (∀ a, 4096 ≤ a → p.readByte a = s.pageBuf.readByte a)

/-- R147, R56, R88: the footer's 64 bytes: fill at 0, 1 and 14 to 63; byte `j` of the encoded code of block `k` at `2 + 3k + j`. -/
def Obligations.FooterLayout : Prop :=
  ∀ page : List Byte, (footer page).length = 64 ∧
    (∀ a, a < 2 ∨ (14 ≤ a ∧ a < 64) → (footer page)[a]? = some 0xFF#8) ∧
    (∀ k, k < 4 → (footer page)[2 + 3 * k]? = some (enc (ecc ((page.drop (512 * k)).take 512))).1 ∧
      (footer page)[2 + 3 * k + 1]? = some (enc (ecc ((page.drop (512 * k)).take 512))).2.1 ∧
      (footer page)[2 + 3 * k + 2]? = some (enc (ecc ((page.drop (512 * k)).take 512))).2.2)

/-- R146: an `InRead` answered with zero bytes ends the run with success on either geometry: `STATE` becomes `DONE`, nothing is written and `PAGEIDX`
is unchanged; `OOBBUF` and every byte of `PAGEBUF` above the range cleared stay. That zero bytes end the stream is the spec's decision D9 (GK1, log 15). -/
def Obligations.PageAtEndOfStream : Prop :=
  ∀ (s : State) (d : InData) (rs : List ReadAnswer),
    s.ctl = .ready → s.geom ≠ .none → s.maxPages ≠ some s.pageIdx →
    s.answers.read = .data d :: rs → d.bytes = [] →
    ∃ p : Memory, exec .page s = .next { s with
      ctl := .done, pageBuf := p, busy := none, history := s.history ++ [.inRead 2048 (.data d)],
      answers := { s.answers with read := rs }, responses := s.responses ++ [.status ⟨.done, s.err, s.geom, s.pageIdx⟩] } ∧
      (∀ a, writeLength s.geom ≤ a → p.readByte a = s.pageBuf.readByte a)

/-- R183, R189: `InRead -> ERROR` raises `ReadError` on either geometry: no write is issued, `PAGEIDX`, `GEOM` and `OOBBUF` stay. What the
failed request did to the environment is any value (U1, log 6), here and in the two statements below. -/
def Obligations.ReadErrorIsFatal : Prop :=
  ∀ (s : State) (rs : List ReadAnswer),
    s.ctl = .ready → s.geom ≠ .none → s.maxPages ≠ some s.pageIdx → s.answers.read = .error :: rs →
    ∃ (p : Memory) (w : World) (n : Nat), exec .page s = .next { s with
      err := .readError, ctl := .failed, pageBuf := p, busy := none, history := s.history ++ [.inRead 2048 .error],
      answers := { s.answers with read := rs }, world := w, freeCount := n,
      responses := s.responses ++ [.status ⟨.failed, .readError, s.geom, s.pageIdx⟩] } ∧
      (∀ a, writeLength s.geom ≤ a → p.readByte a = s.pageBuf.readByte a)

/-- R184, R189: `PageWrite -> ERROR` raises `WriteErrorPage` on either geometry: no `OobWrite` is issued and `PAGEIDX` keeps the index of the page. -/
def Obligations.PageWriteErrorIsFatal : Prop :=
  ∀ (s : State) (d : InData) (rs : List ReadAnswer) (ps : List Ack),
    s.ctl = .ready → s.geom ≠ .none → s.maxPages ≠ some s.pageIdx →
    s.answers.read = .data d :: rs → d.bytes ≠ [] → s.answers.page = .error :: ps →
    ∃ (p o : Memory) (w : World) (n : Nat), exec .page s = .next { s with
      err := .writeErrorPage, ctl := .failed, pageBuf := p, oobBuf := o, busy := none,
      history := s.history ++ [.inRead 2048 (.data d), .pageWrite (pagePayload s.geom (padPage d.bytes)) .error],
      answers := { s.answers with read := rs, page := ps }, world := w, freeCount := n,
      responses := s.responses ++ [.status ⟨.failed, .writeErrorPage, s.geom, s.pageIdx⟩] } ∧
      (∀ a, writeLength s.geom ≤ a → p.readByte a = s.pageBuf.readByte a) ∧
      (s.geom = .dual → o = s.oobBuf) ∧ (∀ a, 64 ≤ a → o.readByte a = s.oobBuf.readByte a)

/-- R185, R189: `OobWrite -> ERROR` raises `WriteErrorOob`, on single-plane geometry only, after the page's data was written; `PAGEIDX` keeps the
index of the page. -/
def Obligations.OobWriteErrorIsFatal : Prop :=
  ∀ (s : State) (d : InData) (rs : List ReadAnswer) (ps os : List Ack),
    s.ctl = .ready → s.geom = .single → s.maxPages ≠ some s.pageIdx →
    s.answers.read = .data d :: rs → d.bytes ≠ [] → s.answers.page = .ok :: ps → s.answers.oob = .error :: os →
    ∃ (p o : Memory) (w : World) (n : Nat), exec .page s = .next { s with
      err := .writeErrorOob, ctl := .failed, pageBuf := p, oobBuf := o, busy := none,
      history := s.history ++ [.inRead 2048 (.data d), .pageWrite (padPage d.bytes) .ok,
        .oobWrite (footer (padPage d.bytes)) (s.pageIdx * 2048) .error],
      answers := { s.answers with read := rs, page := ps, oob := os }, world := w, freeCount := n,
      responses := s.responses ++ [.status ⟨.failed, .writeErrorOob, .single, s.pageIdx⟩] } ∧
      (∀ a, 2048 ≤ a → p.readByte a = s.pageBuf.readByte a) ∧ (∀ a, 64 ≤ a → o.readByte a = s.oobBuf.readByte a)

/-! ## RUN -/

/-- R144, R149: the whole run on single-plane geometry over an input of `L` bytes that the environment delivers as it owes (R64): exactly
`ceil(L / 2048)` pages, each read, padded, written and given its footer in order, then one read answered with zero bytes; `RUN` ends in `DONE` with one
response, and the data acknowledged is the input followed by the fill bytes that complete its last page. The environment's records are R32's and R66's
(log 7, log 16). `MAX_PAGES` is unbounded here; RunIsInitThenPages and RunEndsOverOrAtBound hold for every bound. -/
def Obligations.RunWritesWholeInputSinglePlane : Prop :=
  ∀ (input : List Byte) (s : State),
    s.ctl = .idle → s.maxPages = none → s.answers = (RefEnv.plain input .single).answers →
    ∃ t : State, exec .run s = .next t ∧
      t.ctl = .done ∧ t.err = s.err ∧ t.geom = .single ∧ t.pageIdx = s.pageIdx + (input.length + 2047) / 2048 ∧ t.busy = none ∧
      t.inputs = s.inputs ∧ t.responses = s.responses ++ [.status ⟨.done, s.err, .single, t.pageIdx⟩] ∧
      t.history = s.history ++ [.geomQuery .single, .rawMode .ok] ++
        ((List.range ((input.length + 2047) / 2048)).flatMap fun n =>
          let chunk := (input.drop (2048 * n)).take 2048
          [.inRead 2048 (chunkAnswer input n), .pageWrite (padPage chunk) .ok,
            .oobWrite (footer (padPage chunk)) ((s.pageIdx + n) * 2048) .ok]) ++
        [.inRead 2048 (.data ⟨[], by simp⟩)] ∧
      t.answers = Answers.empty ∧ t.maxPages = none ∧ t.freeCount = s.freeCount ∧
      (∀ a, 2048 ≤ a → t.pageBuf.readByte a = s.pageBuf.readByte a) ∧ (∀ a, 64 ≤ a → t.oobBuf.readByte a = s.oobBuf.readByte a) ∧
      t.world.mode = .raw ∧ t.world.inPos = s.world.inPos + input.length ∧
      t.world.devPos = s.world.devPos + (input.length + 2047) / 2048 * 2048 ∧
      t.world.oob = ((List.range ((input.length + 2047) / 2048)).foldl (fun o n =>
        putFooter o ((s.pageIdx + n) * 2048) (footer (padPage ((input.drop (2048 * n)).take 2048)))) s.world.oob) ∧
      t.world.data = s.world.data ++ input ++ List.replicate ((2048 - input.length % 2048) % 2048) 0xFF#8

/-- R144, R149: the whole run on dual-plane geometry: each padded page is written followed by itself; no raw mode, no footer. The environment's
records are R32's and R66's (log 7, log 16); a finite `MAX_PAGES` as above. -/
def Obligations.RunWritesWholeInputDualPlane : Prop :=
  ∀ (input : List Byte) (s : State),
    s.ctl = .idle → s.maxPages = none → s.answers = (RefEnv.plain input .dual).answers →
    ∃ t : State, exec .run s = .next t ∧
      t.ctl = .done ∧ t.err = s.err ∧ t.geom = .dual ∧ t.pageIdx = s.pageIdx + (input.length + 2047) / 2048 ∧ t.busy = none ∧
      t.inputs = s.inputs ∧ t.responses = s.responses ++ [.status ⟨.done, s.err, .dual, t.pageIdx⟩] ∧ t.oobBuf = s.oobBuf ∧
      t.history = s.history ++ [.geomQuery .dual] ++
        ((List.range ((input.length + 2047) / 2048)).flatMap fun n =>
          let page := padPage ((input.drop (2048 * n)).take 2048)
          [.inRead 2048 (chunkAnswer input n), .pageWrite (page ++ page) .ok]) ++
        [.inRead 2048 (.data ⟨[], by simp⟩)] ∧
      t.answers = { Answers.empty with raw := s.answers.raw, oob := s.answers.oob } ∧ t.maxPages = none ∧ t.freeCount = s.freeCount ∧
      (∀ a, 4096 ≤ a → t.pageBuf.readByte a = s.pageBuf.readByte a) ∧
      t.world.mode = s.world.mode ∧ t.world.oob = s.world.oob ∧ t.world.inPos = s.world.inPos + input.length ∧
      t.world.devPos = s.world.devPos + (input.length + 2047) / 2048 * 4096 ∧
      t.world.data = s.world.data ++ ((List.range ((input.length + 2047) / 2048)).flatMap fun n =>
        padPage ((input.drop (2048 * n)).take 2048) ++ padPage ((input.drop (2048 * n)).take 2048))

/-- R144, R85: `RUN` behaves as `INIT` followed by `PAGE` repeated while it is admitted: when `RUN` completes, those commands complete in the same
state, but for the responses they give between. -/
def Obligations.RunIsInitThenPages : Prop :=
  ∀ s t : State, s.ctl = .idle → exec .run s = .next t → t.busy = none →
    ∃ (n : Nat) (u v : State), exec .init s = .next u ∧ u.busy = none ∧ pagesWhileAdmitted n u = .next v ∧
      v.busy = none ∧ v.admitsPage = false ∧ t = { v with responses := s.responses ++ [.status v.status] }

/-- R144: a `RUN` that completes ends in `DONE` or `FAILED`, or, at a finite `MAX_PAGES`, in `READY` with `PAGEIDX = MAX_PAGES`. -/
def Obligations.RunEndsOverOrAtBound : Prop :=
  ∀ s t : State, s.ctl = .idle → exec .run s = .next t → t.busy = none →
    t.over = true ∨ (t.ctl = .ready ∧ t.maxPages = some t.pageIdx)

/-! ## Waiting -/

/-- R198, R58 (a): a command that has not completed waits on its outstanding request for an answer that is not there (how much of a command one
step runs is the model's choice, log 1). -/
def Obligations.CommandStopsOnlyToWait : Prop :=
  ∀ (i : Instr) (s t : State) (b : Busy), s.busy = none → exec i s = .next t → t.busy = some b → t.answered b = false

/-- R3, R198 (the name of the stuck outcome is the model's, log 12): a block whose request has no answer moves no further; with the answer given a step is
exactly that port transaction: one event is added to the history, and the command goes on to its next request or its end. -/
def Obligations.WaitingBlockDoesNotMove : Prop :=
  ∀ (s : State) (b : Busy), s.busy = some b →
    (s.answered b = false → step s = .fault .noAnswer) ∧
    (∀ t, transact b s = some (.ok t) → step s = .next t ∧ ∃ e, t.history = s.history ++ [e]) ∧
    (∀ f, transact b s = some (.error f) → step s = .fault f)

/-- R198: with no answer ready, `INIT` and `RUN` wait on `GeomQuery` and `PAGE` waits on `InRead(2048)`; nothing but the cleared range of `PAGEBUF`
has changed. -/
def Obligations.CommandsWaitForTheirFirstAnswer : Prop :=
  ∀ s : State,
    (s.ctl = .idle → s.answers.geom = [] →
      exec .init s = .next { s with busy := some ⟨.init, .geomQuery⟩ } ∧ exec .run s = .next { s with busy := some ⟨.run, .geomQuery⟩ }) ∧
    (s.ctl = .ready → s.geom ≠ .none → s.maxPages ≠ some s.pageIdx → s.answers.read = [] →
      ∃ p : Memory, exec .page s = .next { s with pageBuf := p, busy := some ⟨.page, .inRead 2048⟩ } ∧
        ∀ a, writeLength s.geom ≤ a → p.readByte a = s.pageBuf.readByte a)

/-- R55, R63: each port transaction takes exactly one answer and adds exactly one event to the run's history; a command adds to the history and
rewrites nothing of it. -/
def Obligations.OneAnswerPerRequest : Prop :=
  ∀ (i : Instr) (s t : State), exec i s = .next t →
    t.answers.count + t.history.length = s.answers.count + s.history.length ∧ s.history <+: t.history

/-! ## The machine as a whole -/

/-- R33, R34, R210, R211: the state after reset has the reset values, no buffer byte has a value (the model's choice among R34's, log 2), and both
invariants hold of it. -/
def Obligations.ResetIsLegalStart : Prop :=
  State.reset.geom = .none ∧ State.reset.ctl = .idle ∧ State.reset.err = .none ∧ State.reset.pageIdx = 0 ∧
    (∀ a, State.reset.pageBuf.readByte a = none ∧ State.reset.oobBuf.readByte a = none) ∧
    State.reset.busy = none ∧ RunInv State.reset ∧ BufferInv State.reset

/-- R210: reset between commands gives the four control elements their reset values and leaves the buffers without a value; it does not touch the
environment, its answers, the host's inputs or the responses given. That no byte has a value, and that a new history begins, is the model's choice
(log 2, log 8). -/
def Obligations.ResetRestoresControlElements : Prop :=
  ∀ (s : State) (rest : List HostInput), s.busy = none → s.inputs = .reset :: rest → ∃ t : State, step s = .next t ∧
    t.geom = .none ∧ t.ctl = .idle ∧ t.err = .none ∧ t.pageIdx = 0 ∧
    (∀ a, t.pageBuf.readByte a = none ∧ t.oobBuf.readByte a = none) ∧ t.busy = none ∧
    t.world = s.world ∧ t.answers = s.answers ∧ t.inputs = rest ∧ t.responses = s.responses ∧ t.maxPages = s.maxPages ∧
    t.freeCount = s.freeCount ∧ RunInv t

/-- R58, R65: every step keeps the invariant that the history explains the state: events stand in the order of R58 (b) to (e) with the payloads of R56
and the offsets of R57, and `GEOM`, `STATE`, `ERR`, `PAGEIDX` and the outstanding request are what those events lead to. -/
def Obligations.StepKeepsRunInvariant : Prop :=
  ∀ s t : State, RunInv s → step s = .next t → RunInv t

/-- R50: every step keeps the buffers in canonical form (the model's, log 2) and within their spaces. -/
def Obligations.StepKeepsBufferInvariant : Prop :=
  ∀ s t : State, BufferInv s → step s = .next t → BufferInv t

/-- R22: the invariants of `STATE` between commands; and `DONE` and `FAILED` are terminal: no command leaves them, nor `ERR`, `GEOM` or `PAGEIDX`, and
none issues a request (R189, R200), only reset does. -/
def Obligations.ControlStateRules : Prop :=
  ∀ s : State, RunInv s → s.busy = none →
    (s.ctl = .idle → s.geom = .none ∧ s.pageIdx = 0 ∧ s.err = .none) ∧
    (s.ctl = .ready ∨ s.ctl = .done → s.geom ≠ .none ∧ s.err = .none) ∧
    (s.ctl = .failed ↔ s.err ≠ .none) ∧
    (s.over = true → ∀ (w : CmdWord) (rest : List HostInput) (t : State), s.inputs = .command w :: rest → step s = .next t →
      ∃ r : Response, t = { s with inputs := rest, responses := s.responses ++ [r] })

/-- R197, R34: from a state of the invariant no command faults: every command is total, and no rule reads an unspecified buffer byte. -/
def Obligations.EveryCommandIsTotal : Prop :=
  ∀ (i : Instr) (s : State), RunInv s → s.busy = none → ∃ t : State, exec i s = .next t

/-- R21: once `GEOM` holds a geometry no command writes it again until reset. -/
def Obligations.GeometryIsLatchedOnce : Prop :=
  ∀ s t : State, RunInv s → step s = .next t → s.geom ≠ .none →
    (s.busy ≠ none ∨ ∃ w rest, s.inputs = .command w :: rest) → t.geom = s.geom

/-- R24: `PAGEIDX` is the number of pages completely written, in every state of the invariant; so after an error it is the index of the page during
which the error occurred. -/
def Obligations.PageIndexCountsCompletedPages : Prop :=
  ∀ s : State, RunInv s → s.pageIdx = (s.history.filter (completesPage s.geom)).length

/-- R53, R149, R63: every `InRead` asks for 2048 bytes, every `PageWrite` carries 2048 bytes on single-plane and 4096 on dual-plane geometry, every
`OobWrite` carries 64 bytes at a multiple of 2048 and is issued on single-plane geometry only, as is `RawMode`. -/
def Obligations.RequestsHaveTheirShape : Prop :=
  ∀ s : State, RunInv s → ∀ e ∈ s.history, shapeOk s.geom e = true

/-- R140, R188, R151: `GeomQuery` is the first request of a run and is never repeated, and nothing follows an event that raises an exception. -/
def Obligations.GeometryFirstAndNothingAfterFailure : Prop :=
  ∀ s : State, RunInv s → ∀ (before after : List Event) (e : Event), s.history = before ++ e :: after →
    ((∃ g, e = .geomQuery g) ↔ before = []) ∧ (raises e = true → after = [] ∧ s.ctl = .failed)

/-- R215: a run that is over with success has had no error: every `InRead` was answered `DATA`, the last one with zero bytes, every write and mode
request `OK`, and `PAGEIDX` is the number of non-empty `DATA` answers. -/
def Obligations.SuccessMeansEveryRequestSucceeded : Prop :=
  ∀ s : State, RunInv s → s.success = true →
    (∀ e ∈ s.history, raises e = false) ∧ (∃ d : InData, d.bytes = [] ∧ s.history.getLast? = some (.inRead 2048 (.data d))) ∧
    s.pageIdx = (s.history.filter readsBytes).length ∧ s.geom ≠ .none ∧ s.busy = none

/-- R34, R65: what a command does and answers does not depend on the content of the buffers before it, nor on the environment's own state: from two
states that differ in those only it ends in two states that differ in those only, or faults in both. -/
def Obligations.BufferContentIsIrrelevant : Prop :=
  ∀ (i : Instr) (s s' : State), SameButBuffers s s' → s.busy = none →
    (∃ t t' : State, exec i s = .next t ∧ exec i s' = .next t' ∧ SameButBuffers t t') ∨
    (∃ f : Fault, exec i s = .fault f ∧ exec i s' = .fault f)

/-- R36, R84: the status port shows (`STATE`, `ERR`, `GEOM`, `PAGEIDX`) between commands and nothing inside one, and the response with which `INIT`,
`PAGE` and `RUN` end (`complete`) is what the status port then shows. -/
def Obligations.StatusPortShowsControlElements : Prop :=
  ∀ s : State, (s.busy = none → s.statusPort = some ⟨s.ctl, s.err, s.geom, s.pageIdx⟩) ∧ (s.busy ≠ none → s.statusPort = none) ∧
    ∃ st, (complete s).statusPort = some st ∧ (complete s).responses = s.responses ++ [.status st]

/-- R7, R36, U2 (free values, log 9): the host-visible status of success differs from that of every failure, whatever `EXIT_CODES` is, and a run that is not over has none. -/
def Obligations.SuccessStatusDiffersFromFailure : Prop :=
  ∀ st st' : Status, st.ctl = .done → st'.ctl = .failed →
    st.exitStatus ≠ st'.exitStatus ∧ st.exitStatus ≠ none ∧ st'.exitStatus ≠ none ∧
      ({ st with ctl := .idle } : Status).exitStatus = none ∧ ({ st with ctl := .ready } : Status).exitStatus = none

/-- R3, R58: a command is its steps: a step makes at most one port transaction, and the steps of a command, from the one that takes it to its completion or
to a request without an answer, come to exactly what `exec` answers. The statements about `exec` reach a run through this one (log 1). -/
def Obligations.CommandIsItsSteps : Prop :=
  (∀ s t : State, step s = .next t → t.history = s.history ∨ (∃ e, t.history = s.history ++ [e]) ∨
    (s.busy = none ∧ t.history = [] ∧ ∃ rest, s.inputs = .reset :: rest)) ∧
  ∀ (s : State) (w : CmdWord) (rest : List HostInput) (i : Instr),
    s.busy = none → s.inputs = .command w :: rest → decode w = .ok i →
    runCommand s.answers.count s = exec i { s with inputs := rest }
end

