-- ==== Sys2Proof/Laws/Memory.lean ====
section
/-! SUPPORT. What reading and writing one space do: canonical form, read after write, and that a write leaves every other byte alone. -/

namespace Sys2Proof.Machine

/-! ## Cells -/

@[simp] theorem cells_nil (a : Nat) : Memory.cells a [] = [] := rfl

@[simp] theorem cells_cons (a : Nat) (b : Byte) (bs : List Byte) :
    Memory.cells a (b :: bs) = (a, b) :: Memory.cells (a + 1) bs := rfl

@[simp] theorem cells_length (a : Nat) (bs : List Byte) : (Memory.cells a bs).length = bs.length := by
  induction bs generalizing a with
  | nil => rfl
  | cons b bs ih => simp [ih]

@[simp] theorem cells_values (a : Nat) (bs : List Byte) : (Memory.cells a bs).map (·.2) = bs := by
  induction bs generalizing a with
  | nil => rfl
  | cons b bs ih => simp [ih]

theorem cells_append (a : Nat) (bs cs : List Byte) :
    Memory.cells a (bs ++ cs) = Memory.cells a bs ++ Memory.cells (a + bs.length) cs := by
  induction bs generalizing a with
  | nil => simp
  | cons b bs ih => simp [ih, Nat.add_assoc, Nat.add_comm 1]

theorem mem_cells {a : Nat} {bs : List Byte} {c : Host.Cell} (h : c ∈ Memory.cells a bs) :
    a ≤ c.1 ∧ c.1 < a + bs.length := by
  induction bs generalizing a with
  | nil => simp at h
  | cons b bs ih =>
    rcases List.mem_cons.1 h with rfl | h
    · simp
    · have := ih h
      simp only [List.length_cons]
      omega

theorem cells_wf (a : Nat) (bs : List Byte) : (Memory.cells a bs).wf := by
  induction bs generalizing a with
  | nil => exact List.Pairwise.nil
  | cons b bs ih =>
    refine List.Pairwise.cons (fun c hc => ?_) (ih _)
    have := (mem_cells hc).1
    simp only
    omega

/-- A filter that keeps every address of a run of cells keeps the run. -/
theorem cells_filter_all {p : Nat → Bool} {a : Nat} {bs : List Byte}
    (h : ∀ x, a ≤ x → x < a + bs.length → p x = true) :
    (Memory.cells a bs).filter (fun c => p c.1) = Memory.cells a bs :=
  List.filter_eq_self.2 fun _ hc => h _ (mem_cells hc).1 (mem_cells hc).2

/-- A filter that keeps no address of a run of cells leaves nothing. -/
theorem cells_filter_none {p : Nat → Bool} {a : Nat} {bs : List Byte}
    (h : ∀ x, a ≤ x → x < a + bs.length → p x = false) :
    (Memory.cells a bs).filter (fun c => p c.1) = [] :=
  List.filter_eq_nil_iff.2 fun _ hc => by simp [h _ (mem_cells hc).1 (mem_cells hc).2]

/-! ## Canonical form -/

theorem wf_filter {m : Memory} (h : m.wf) (p : Host.Cell → Bool) : Memory.wf (m.filter p) := List.Pairwise.filter p h

/-- Every write keeps the canonical form. -/
theorem write_wf {m : Memory} (h : m.wf) (a : Nat) (bs : List Byte) : (m.write a bs).wf := by
  unfold Memory.write
  refine List.pairwise_append.2 ⟨List.pairwise_append.2 ⟨wf_filter h _, cells_wf a bs, ?_⟩, wf_filter h _, ?_⟩
  · intro c hc d hd
    have h1 := (List.mem_filter.1 hc).2
    have h2 := (mem_cells hd).1
    simp only [decide_eq_true_eq] at h1
    omega
  · intro c hc d hd
    have h2 := (List.mem_filter.1 hd).2
    simp only [decide_eq_true_eq] at h2
    rcases List.mem_append.1 hc with hc | hc
    · have h1 := (List.mem_filter.1 hc).2
      simp only [decide_eq_true_eq] at h1
      omega
    · have := (mem_cells hc).2
      omega

/-- A write within the first `n` indices keeps the memory within them. -/
theorem write_below {m : Memory} {n : Nat} (h : ∀ c ∈ m, c.1 < n) {a : Nat} {bs : List Byte} (ha : a + bs.length ≤ n) :
    ∀ c ∈ m.write a bs, c.1 < n := by
  intro c hc
  simp only [Memory.write, List.mem_append, List.mem_filter] at hc
  rcases hc with (hc | hc) | hc
  · exact h c hc.1
  · have := (mem_cells hc).2; omega
  · exact h c hc.1

/-! ## Slices and reads -/

/-- A slice of a memory whose bytes in the range are a run gives the run. -/
theorem read_of_slice {m : Memory} {a : Nat} {bs : List Byte} (h : m.slice a bs.length = Memory.cells a bs) :
    m.read a bs.length = some bs := by
  simp [Memory.read, h]

/-- A slice inside a slice. -/
theorem slice_slice {m : Memory} {a n b k : Nat} (h1 : a ≤ b) (h2 : b + k ≤ a + n) :
    m.slice b k = (m.slice a n).slice b k := by
  simp only [Memory.slice, List.filter_filter]
  refine List.filter_congr fun c _ => ?_
  rw [Bool.eq_iff_iff]
  simp only [Bool.and_eq_true, decide_eq_true_eq]
  omega

/-- The slice of a run of cells. -/
theorem cells_slice {a : Nat} (xs ys zs : List Byte) :
    (Memory.cells a (xs ++ ys ++ zs)).slice (a + xs.length) ys.length = Memory.cells (a + xs.length) ys := by
  rw [cells_append, cells_append]
  unfold Memory.slice
  rw [List.filter_append, List.filter_append,
    cells_filter_none (p := fun x => a + xs.length ≤ x && x < a + xs.length + ys.length) (fun x _ h => ?_),
    cells_filter_all (p := fun x => a + xs.length ≤ x && x < a + xs.length + ys.length) (fun x h h' => ?_),
    cells_filter_none (p := fun x => a + xs.length ≤ x && x < a + xs.length + ys.length) (fun x h _ => ?_)]
  · simp
  · simp only [List.length_append] at h
    simp only [Bool.and_eq_false_iff, decide_eq_false_iff_not]; omega
  · simp only [Bool.and_eq_true, decide_eq_true_eq]; omega
  · simp only [Bool.and_eq_false_iff, decide_eq_false_iff_not]; omega

/-- Read after write, and the rest of the range as before: if the range held the run `xs ++ ys ++ zs`, then after writing `bs` over `ys` it
holds `xs ++ bs ++ zs`. -/
theorem slice_write {m : Memory} {a : Nat} {xs ys zs bs : List Byte} (hl : ys.length = bs.length)
    (h : m.slice a (xs ++ ys ++ zs).length = Memory.cells a (xs ++ ys ++ zs)) :
    (m.write (a + xs.length) bs).slice a (xs ++ bs ++ zs).length = Memory.cells a (xs ++ bs ++ zs) := by
  have hx : m.slice a xs.length = Memory.cells a xs := by
    rw [slice_slice (a := a) (n := (xs ++ ys ++ zs).length) (by omega) (by simp), h]
    simpa using cells_slice (a := a) [] xs (ys ++ zs)
  have hz : m.slice (a + (xs ++ bs).length) zs.length = Memory.cells (a + (xs ++ bs).length) zs := by
    have hl' : (xs ++ bs).length = (xs ++ ys).length := by simp [hl]
    rw [hl', slice_slice (a := a) (n := (xs ++ ys ++ zs).length) (by omega) (by simp [Nat.add_assoc]), h]
    simpa using cells_slice (a := a) (xs ++ ys) zs []
  have e1 : (m.filter fun c => c.1 < a + xs.length).filter
      (fun c => a ≤ c.1 && c.1 < a + (xs ++ bs ++ zs).length) = Memory.cells a xs := by
    rw [List.filter_filter, ← hx]
    refine List.filter_congr fun c _ => ?_
    rw [Bool.eq_iff_iff]
    simp only [List.length_append, Bool.and_eq_true, decide_eq_true_eq]
    omega
  have e2 : (Memory.cells (a + xs.length) bs).filter
      (fun c => a ≤ c.1 && c.1 < a + (xs ++ bs ++ zs).length) = Memory.cells (a + xs.length) bs :=
    cells_filter_all (p := fun x => a ≤ x && x < a + (xs ++ bs ++ zs).length) fun x h1 h2 => by
      simp only [List.length_append, Bool.and_eq_true, decide_eq_true_eq]; omega
  have e3 : (m.filter fun c => a + xs.length + bs.length ≤ c.1).filter
      (fun c => a ≤ c.1 && c.1 < a + (xs ++ bs ++ zs).length) = Memory.cells (a + (xs ++ bs).length) zs := by
    rw [List.filter_filter, ← hz]
    refine List.filter_congr fun c _ => ?_
    rw [Bool.eq_iff_iff]
    simp only [List.length_append, Bool.and_eq_true, decide_eq_true_eq]
    omega
  rw [Memory.slice, Memory.write, List.filter_append, List.filter_append, e1, e2, e3, cells_append, cells_append]

/-- A write fills its own range whatever was there. -/
theorem slice_write_self (m : Memory) (a : Nat) (bs : List Byte) :
    (m.write a bs).slice a bs.length = Memory.cells a bs := by
  unfold Memory.slice Memory.write
  rw [List.filter_append, List.filter_append, List.filter_filter, List.filter_filter,
    cells_filter_all (p := fun x => a ≤ x && x < a + bs.length) (fun x h1 h2 => by simp; omega),
    List.filter_eq_nil_iff.2 (fun c _ => ?_), List.filter_eq_nil_iff.2 (fun c _ => ?_)]
  · simp
  · simp only [Bool.and_eq_true, decide_eq_true_eq, not_and]; omega
  · simp only [Bool.and_eq_true, decide_eq_true_eq, not_and]; omega

/-- A write outside a range leaves the range alone. -/
theorem slice_write_other (m : Memory) {a n b : Nat} {bs : List Byte} (h : b + bs.length ≤ a ∨ a + n ≤ b) :
    (m.write b bs).slice a n = m.slice a n := by
  unfold Memory.slice Memory.write
  rw [List.filter_append, List.filter_append, List.filter_filter, List.filter_filter,
    cells_filter_none (p := fun x => a ≤ x && x < a + n) (fun x h1 h2 => by simp; omega), List.append_nil]
  rcases h with h | h
  · rw [List.filter_eq_nil_iff.2 (fun c _ => ?_), List.nil_append]
    · refine List.filter_congr fun c _ => ?_
      rw [Bool.eq_iff_iff]; simp only [Bool.and_eq_true, decide_eq_true_eq]; omega
    · simp only [Bool.and_eq_true, decide_eq_true_eq, not_and]; omega
  · rw [List.filter_eq_nil_iff (p := fun c : Host.Cell => decide (a ≤ c.1) && decide (c.1 < a + n) && decide (b + bs.length ≤ c.1))
      |>.2 (fun c _ => ?_), List.append_nil]
    · refine List.filter_congr fun c _ => ?_
      rw [Bool.eq_iff_iff]; simp only [Bool.and_eq_true, decide_eq_true_eq]; omega
    · simp only [Bool.and_eq_true, decide_eq_true_eq, not_and]; omega

/-! ## Single bytes -/

theorem readByte_eq_slice (m : Memory) (a : Nat) : m.readByte a = ((m.slice a 1).head?).map (·.2) := by
  rw [Memory.readByte, Memory.slice, List.head?_filter]
  congr 2
  funext c
  rw [Bool.eq_iff_iff]
  simp only [beq_iff_eq, Bool.and_eq_true, decide_eq_true_eq]
  omega

/-- The bytes of a range that holds a run. -/
theorem readByte_of_slice {m : Memory} {a : Nat} {bs : List Byte} (h : m.slice a bs.length = Memory.cells a bs) {i : Nat}
    (hi : i < bs.length) : m.readByte (a + i) = bs[i]? := by
  have split : bs = bs.take i ++ [bs[i]] ++ bs.drop (i + 1) := by simp
  have hlen : (bs.take i).length = i := by simp; omega
  have := cells_slice (a := a) (bs.take i) [bs[i]] (bs.drop (i + 1))
  rw [← split, hlen] at this
  rw [readByte_eq_slice, slice_slice (a := a) (n := bs.length) (by omega) (by omega), h]
  simp only [List.length_singleton] at this
  rw [this]
  simp [hi]

/-- A write leaves every byte outside the written range as it was. -/
theorem readByte_write_other (m : Memory) {a b : Nat} {bs : List Byte} (h : b + bs.length ≤ a ∨ a < b) :
    (m.write b bs).readByte a = m.readByte a := by
  rw [readByte_eq_slice, readByte_eq_slice, slice_write_other m (by omega)]

/-- The bytes of the written range are those written. -/
theorem readByte_write_self (m : Memory) (a : Nat) {bs : List Byte} {i : Nat} (hi : i < bs.length) :
    (m.write a bs).readByte (a + i) = bs[i]? :=
  readByte_of_slice (slice_write_self m a bs) hi

end Sys2Proof.Machine
end

