-- ==== Sys2Proof/Laws/State.lean ====
section
/-! SUPPORT. One lemma per field per update of the state, true by definition, so that no later proof unfolds a record update. -/

namespace Sys2Proof.Machine

@[simp] theorem respond_geom (s : State) (r : Response) : (s.respond r).geom = s.geom := rfl
@[simp] theorem respond_ctl (s : State) (r : Response) : (s.respond r).ctl = s.ctl := rfl
@[simp] theorem respond_err (s : State) (r : Response) : (s.respond r).err = s.err := rfl
@[simp] theorem respond_pageIdx (s : State) (r : Response) : (s.respond r).pageIdx = s.pageIdx := rfl
@[simp] theorem respond_pageBuf (s : State) (r : Response) : (s.respond r).pageBuf = s.pageBuf := rfl
@[simp] theorem respond_oobBuf (s : State) (r : Response) : (s.respond r).oobBuf = s.oobBuf := rfl
@[simp] theorem respond_busy (s : State) (r : Response) : (s.respond r).busy = s.busy := rfl
@[simp] theorem respond_inputs (s : State) (r : Response) : (s.respond r).inputs = s.inputs := rfl
@[simp] theorem respond_responses (s : State) (r : Response) : (s.respond r).responses = s.responses ++ [r] := rfl
@[simp] theorem respond_history (s : State) (r : Response) : (s.respond r).history = s.history := rfl
@[simp] theorem respond_answers (s : State) (r : Response) : (s.respond r).answers = s.answers := rfl
@[simp] theorem respond_world (s : State) (r : Response) : (s.respond r).world = s.world := rfl
@[simp] theorem respond_maxPages (s : State) (r : Response) : (s.respond r).maxPages = s.maxPages := rfl
@[simp] theorem respond_freeCount (s : State) (r : Response) : (s.respond r).freeCount = s.freeCount := rfl

@[simp] theorem complete_geom (s : State) : (complete s).geom = s.geom := rfl
@[simp] theorem complete_ctl (s : State) : (complete s).ctl = s.ctl := rfl
@[simp] theorem complete_err (s : State) : (complete s).err = s.err := rfl
@[simp] theorem complete_pageIdx (s : State) : (complete s).pageIdx = s.pageIdx := rfl
@[simp] theorem complete_pageBuf (s : State) : (complete s).pageBuf = s.pageBuf := rfl
@[simp] theorem complete_oobBuf (s : State) : (complete s).oobBuf = s.oobBuf := rfl
@[simp] theorem complete_busy (s : State) : (complete s).busy = none := rfl
@[simp] theorem complete_inputs (s : State) : (complete s).inputs = s.inputs := rfl
@[simp] theorem complete_responses (s : State) : (complete s).responses = s.responses ++ [.status s.status] := rfl
@[simp] theorem complete_history (s : State) : (complete s).history = s.history := rfl
@[simp] theorem complete_answers (s : State) : (complete s).answers = s.answers := rfl
@[simp] theorem complete_world (s : State) : (complete s).world = s.world := rfl
@[simp] theorem complete_maxPages (s : State) : (complete s).maxPages = s.maxPages := rfl
@[simp] theorem complete_freeCount (s : State) : (complete s).freeCount = s.freeCount := rfl

@[simp] theorem raise_geom (x : Exc) (s : State) : (raise x s).geom = s.geom := rfl
@[simp] theorem raise_ctl (x : Exc) (s : State) : (raise x s).ctl = .failed := rfl
@[simp] theorem raise_err (x : Exc) (s : State) : (raise x s).err = x.code := rfl
@[simp] theorem raise_pageIdx (x : Exc) (s : State) : (raise x s).pageIdx = s.pageIdx := rfl
@[simp] theorem raise_pageBuf (x : Exc) (s : State) : (raise x s).pageBuf = s.pageBuf := rfl
@[simp] theorem raise_oobBuf (x : Exc) (s : State) : (raise x s).oobBuf = s.oobBuf := rfl
@[simp] theorem raise_busy (x : Exc) (s : State) : (raise x s).busy = none := rfl
@[simp] theorem raise_inputs (x : Exc) (s : State) : (raise x s).inputs = s.inputs := rfl
@[simp] theorem raise_responses (x : Exc) (s : State) : (raise x s).responses = s.responses ++ [.status { ctl := .failed, err := x.code, geom := s.geom, pageIdx := s.pageIdx }] := rfl
@[simp] theorem raise_history (x : Exc) (s : State) : (raise x s).history = s.history := rfl
@[simp] theorem raise_answers (x : Exc) (s : State) : (raise x s).answers = s.answers := rfl
@[simp] theorem raise_world (x : Exc) (s : State) : (raise x s).world = s.world := rfl
@[simp] theorem raise_maxPages (x : Exc) (s : State) : (raise x s).maxPages = s.maxPages := rfl
@[simp] theorem raise_freeCount (x : Exc) (s : State) : (raise x s).freeCount = s.freeCount := rfl

@[simp] theorem issue_geom (c : Activity) (r : Request) (s : State) : (issue c r s).geom = s.geom := rfl
@[simp] theorem issue_ctl (c : Activity) (r : Request) (s : State) : (issue c r s).ctl = s.ctl := rfl
@[simp] theorem issue_err (c : Activity) (r : Request) (s : State) : (issue c r s).err = s.err := rfl
@[simp] theorem issue_pageIdx (c : Activity) (r : Request) (s : State) : (issue c r s).pageIdx = s.pageIdx := rfl
@[simp] theorem issue_pageBuf (c : Activity) (r : Request) (s : State) : (issue c r s).pageBuf = s.pageBuf := rfl
@[simp] theorem issue_oobBuf (c : Activity) (r : Request) (s : State) : (issue c r s).oobBuf = s.oobBuf := rfl
@[simp] theorem issue_busy (c : Activity) (r : Request) (s : State) : (issue c r s).busy = some ⟨c, r⟩ := rfl
@[simp] theorem issue_inputs (c : Activity) (r : Request) (s : State) : (issue c r s).inputs = s.inputs := rfl
@[simp] theorem issue_responses (c : Activity) (r : Request) (s : State) : (issue c r s).responses = s.responses := rfl
@[simp] theorem issue_history (c : Activity) (r : Request) (s : State) : (issue c r s).history = s.history := rfl
@[simp] theorem issue_answers (c : Activity) (r : Request) (s : State) : (issue c r s).answers = s.answers := rfl
@[simp] theorem issue_world (c : Activity) (r : Request) (s : State) : (issue c r s).world = s.world := rfl
@[simp] theorem issue_maxPages (c : Activity) (r : Request) (s : State) : (issue c r s).maxPages = s.maxPages := rfl
@[simp] theorem issue_freeCount (c : Activity) (r : Request) (s : State) : (issue c r s).freeCount = s.freeCount := rfl

@[simp] theorem record_geom (e : Event) (s : State) : (record e s).geom = s.geom := rfl
@[simp] theorem record_ctl (e : Event) (s : State) : (record e s).ctl = s.ctl := rfl
@[simp] theorem record_err (e : Event) (s : State) : (record e s).err = s.err := rfl
@[simp] theorem record_pageIdx (e : Event) (s : State) : (record e s).pageIdx = s.pageIdx := rfl
@[simp] theorem record_pageBuf (e : Event) (s : State) : (record e s).pageBuf = s.pageBuf := rfl
@[simp] theorem record_oobBuf (e : Event) (s : State) : (record e s).oobBuf = s.oobBuf := rfl
@[simp] theorem record_busy (e : Event) (s : State) : (record e s).busy = s.busy := rfl
@[simp] theorem record_inputs (e : Event) (s : State) : (record e s).inputs = s.inputs := rfl
@[simp] theorem record_responses (e : Event) (s : State) : (record e s).responses = s.responses := rfl
@[simp] theorem record_history (e : Event) (s : State) : (record e s).history = s.history ++ [e] := rfl
@[simp] theorem record_answers (e : Event) (s : State) : (record e s).answers = s.answers := rfl
@[simp] theorem record_world (e : Event) (s : State) : (record e s).world = worldAfter s.freeCount e s.world := rfl
@[simp] theorem record_maxPages (e : Event) (s : State) : (record e s).maxPages = s.maxPages := rfl
@[simp] theorem record_freeCount (e : Event) (s : State) : (record e s).freeCount = if e.isError then s.freeCount + 1 else s.freeCount := rfl

@[simp] theorem setPageBuf_geom (s : State) (m : Memory) : (s.setSpace .pageBuf m).geom = s.geom := rfl
@[simp] theorem setPageBuf_ctl (s : State) (m : Memory) : (s.setSpace .pageBuf m).ctl = s.ctl := rfl
@[simp] theorem setPageBuf_err (s : State) (m : Memory) : (s.setSpace .pageBuf m).err = s.err := rfl
@[simp] theorem setPageBuf_pageIdx (s : State) (m : Memory) : (s.setSpace .pageBuf m).pageIdx = s.pageIdx := rfl
@[simp] theorem setPageBuf_pageBuf (s : State) (m : Memory) : (s.setSpace .pageBuf m).pageBuf = m := rfl
@[simp] theorem setPageBuf_oobBuf (s : State) (m : Memory) : (s.setSpace .pageBuf m).oobBuf = s.oobBuf := rfl
@[simp] theorem setPageBuf_busy (s : State) (m : Memory) : (s.setSpace .pageBuf m).busy = s.busy := rfl
@[simp] theorem setPageBuf_inputs (s : State) (m : Memory) : (s.setSpace .pageBuf m).inputs = s.inputs := rfl
@[simp] theorem setPageBuf_responses (s : State) (m : Memory) : (s.setSpace .pageBuf m).responses = s.responses := rfl
@[simp] theorem setPageBuf_history (s : State) (m : Memory) : (s.setSpace .pageBuf m).history = s.history := rfl
@[simp] theorem setPageBuf_answers (s : State) (m : Memory) : (s.setSpace .pageBuf m).answers = s.answers := rfl
@[simp] theorem setPageBuf_world (s : State) (m : Memory) : (s.setSpace .pageBuf m).world = s.world := rfl
@[simp] theorem setPageBuf_maxPages (s : State) (m : Memory) : (s.setSpace .pageBuf m).maxPages = s.maxPages := rfl
@[simp] theorem setPageBuf_freeCount (s : State) (m : Memory) : (s.setSpace .pageBuf m).freeCount = s.freeCount := rfl

@[simp] theorem setOobBuf_geom (s : State) (m : Memory) : (s.setSpace .oobBuf m).geom = s.geom := rfl
@[simp] theorem setOobBuf_ctl (s : State) (m : Memory) : (s.setSpace .oobBuf m).ctl = s.ctl := rfl
@[simp] theorem setOobBuf_err (s : State) (m : Memory) : (s.setSpace .oobBuf m).err = s.err := rfl
@[simp] theorem setOobBuf_pageIdx (s : State) (m : Memory) : (s.setSpace .oobBuf m).pageIdx = s.pageIdx := rfl
@[simp] theorem setOobBuf_pageBuf (s : State) (m : Memory) : (s.setSpace .oobBuf m).pageBuf = s.pageBuf := rfl
@[simp] theorem setOobBuf_oobBuf (s : State) (m : Memory) : (s.setSpace .oobBuf m).oobBuf = m := rfl
@[simp] theorem setOobBuf_busy (s : State) (m : Memory) : (s.setSpace .oobBuf m).busy = s.busy := rfl
@[simp] theorem setOobBuf_inputs (s : State) (m : Memory) : (s.setSpace .oobBuf m).inputs = s.inputs := rfl
@[simp] theorem setOobBuf_responses (s : State) (m : Memory) : (s.setSpace .oobBuf m).responses = s.responses := rfl
@[simp] theorem setOobBuf_history (s : State) (m : Memory) : (s.setSpace .oobBuf m).history = s.history := rfl
@[simp] theorem setOobBuf_answers (s : State) (m : Memory) : (s.setSpace .oobBuf m).answers = s.answers := rfl
@[simp] theorem setOobBuf_world (s : State) (m : Memory) : (s.setSpace .oobBuf m).world = s.world := rfl
@[simp] theorem setOobBuf_maxPages (s : State) (m : Memory) : (s.setSpace .oobBuf m).maxPages = s.maxPages := rfl
@[simp] theorem setOobBuf_freeCount (s : State) (m : Memory) : (s.setSpace .oobBuf m).freeCount = s.freeCount := rfl

@[simp] theorem applyReset_geom (s : State) : (applyReset s).geom = .none := rfl
@[simp] theorem applyReset_ctl (s : State) : (applyReset s).ctl = .idle := rfl
@[simp] theorem applyReset_err (s : State) : (applyReset s).err = .none := rfl
@[simp] theorem applyReset_pageIdx (s : State) : (applyReset s).pageIdx = 0 := rfl
@[simp] theorem applyReset_pageBuf (s : State) : (applyReset s).pageBuf = [] := rfl
@[simp] theorem applyReset_oobBuf (s : State) : (applyReset s).oobBuf = [] := rfl
@[simp] theorem applyReset_busy (s : State) : (applyReset s).busy = none := rfl
@[simp] theorem applyReset_inputs (s : State) : (applyReset s).inputs = s.inputs := rfl
@[simp] theorem applyReset_responses (s : State) : (applyReset s).responses = s.responses := rfl
@[simp] theorem applyReset_history (s : State) : (applyReset s).history = [] := rfl
@[simp] theorem applyReset_answers (s : State) : (applyReset s).answers = s.answers := rfl
@[simp] theorem applyReset_world (s : State) : (applyReset s).world = s.world := rfl
@[simp] theorem applyReset_maxPages (s : State) : (applyReset s).maxPages = s.maxPages := rfl
@[simp] theorem applyReset_freeCount (s : State) : (applyReset s).freeCount = s.freeCount := rfl

@[simp] theorem withAnswers_geom (s : State) (a : Answers) : (s.withAnswers a).geom = s.geom := rfl
@[simp] theorem withAnswers_ctl (s : State) (a : Answers) : (s.withAnswers a).ctl = s.ctl := rfl
@[simp] theorem withAnswers_err (s : State) (a : Answers) : (s.withAnswers a).err = s.err := rfl
@[simp] theorem withAnswers_pageIdx (s : State) (a : Answers) : (s.withAnswers a).pageIdx = s.pageIdx := rfl
@[simp] theorem withAnswers_pageBuf (s : State) (a : Answers) : (s.withAnswers a).pageBuf = s.pageBuf := rfl
@[simp] theorem withAnswers_oobBuf (s : State) (a : Answers) : (s.withAnswers a).oobBuf = s.oobBuf := rfl
@[simp] theorem withAnswers_busy (s : State) (a : Answers) : (s.withAnswers a).busy = s.busy := rfl
@[simp] theorem withAnswers_inputs (s : State) (a : Answers) : (s.withAnswers a).inputs = s.inputs := rfl
@[simp] theorem withAnswers_responses (s : State) (a : Answers) : (s.withAnswers a).responses = s.responses := rfl
@[simp] theorem withAnswers_history (s : State) (a : Answers) : (s.withAnswers a).history = s.history := rfl
@[simp] theorem withAnswers_answers (s : State) (a : Answers) : (s.withAnswers a).answers = a := rfl
@[simp] theorem withAnswers_world (s : State) (a : Answers) : (s.withAnswers a).world = s.world := rfl
@[simp] theorem withAnswers_maxPages (s : State) (a : Answers) : (s.withAnswers a).maxPages = s.maxPages := rfl
@[simp] theorem withAnswers_freeCount (s : State) (a : Answers) : (s.withAnswers a).freeCount = s.freeCount := rfl
@[simp] theorem withAnswers_self (s : State) : s.withAnswers s.answers = s := rfl
@[simp] theorem withAnswers_twice (s : State) (a b : Answers) : (s.withAnswers a).withAnswers b = s.withAnswers b := rfl

@[simp] theorem refuse_eq_respond (s : State) : refuse s = s.respond .refused := rfl

@[simp] theorem space_pageBuf (s : State) : s.space .pageBuf = s.pageBuf := rfl
@[simp] theorem space_oobBuf (s : State) : s.space .oobBuf = s.oobBuf := rfl
@[simp] theorem size_pageBuf : Space.pageBuf.size = 4096 := rfl
@[simp] theorem size_oobBuf : Space.oobBuf.size = 64 := rfl

theorem withFetchWord_inputs (s : State) (nbits w : Nat) :
    (s.withFetchWord nbits w).inputs = .command (tableCommand nbits w) :: s.inputs := rfl

theorem withFetchWord_busy (s : State) (nbits w : Nat) : (s.withFetchWord nbits w).busy = none := rfl

end Sys2Proof.Machine
end

