-- ==== Sys2Proof/Laws/Ops.lean ====
section
/-! SUPPORT. What each shared operation over the buffers does: a write in range succeeds, a read of a range that holds a run gives the run, and
which bytes a sequence of writes can have changed. -/

namespace Sys2Proof.Machine

/-- A write inside the space takes place. -/
theorem memWrite_ok {sp : Space} {a : Nat} {bs : List Byte} {s : State} (h : a + bs.length ≤ sp.size) :
    memWrite sp a bs s = .ok (s.setSpace sp ((s.space sp).write a bs)) := if_pos h

/-- Everything a write can do: if it answers a state, the write was in range and that state has the bytes written. -/
theorem memWrite_eq_ok {sp : Space} {a : Nat} {bs : List Byte} {s t : State} (h : memWrite sp a bs s = .ok t) :
    a + bs.length ≤ sp.size ∧ t = s.setSpace sp ((s.space sp).write a bs) := by
  unfold memWrite at h
  split at h
  · exact ⟨‹_›, (Except.ok.inj h).symm⟩
  · cases h

/-- A read of a range in the space that holds a run gives the run. -/
theorem memRead_ok {sp : Space} {a n : Nat} {bs : List Byte} {s : State} (hn : bs.length = n) (hr : a + n ≤ sp.size)
    (h : (s.space sp).slice a n = Memory.cells a bs) : memRead sp a n s = .ok bs := by
  subst hn
  simp [memRead, hr, read_of_slice h]

/-- A read depends on nothing but the slice it reads. -/
theorem memRead_congr {sp : Space} {a n : Nat} {s t : State} (h : (s.space sp).slice a n = (t.space sp).slice a n) :
    memRead sp a n s = memRead sp a n t := by
  simp [memRead, Memory.read, h]

/-- `m'` is `m` with bytes written at indices below `n` only. -/
structure WrittenBelow (n : Nat) (m m' : Memory) : Prop where
  wf    : m.wf → m'.wf
  below : ∀ k, n ≤ k → (∀ c ∈ m, c.1 < k) → ∀ c ∈ m', c.1 < k
  rest  : ∀ a, n ≤ a → m'.readByte a = m.readByte a

theorem WrittenBelow.refl (n : Nat) (m : Memory) : WrittenBelow n m m := ⟨id, fun _ _ h => h, fun _ _ => rfl⟩

theorem WrittenBelow.trans {n : Nat} {m m' m'' : Memory} (h : WrittenBelow n m m') (h' : WrittenBelow n m' m'') :
    WrittenBelow n m m'' :=
  ⟨fun w => h'.wf (h.wf w), fun k hk hb => h'.below k hk (h.below k hk hb), fun a ha => (h'.rest a ha).trans (h.rest a ha)⟩

theorem WrittenBelow.write {n : Nat} (m : Memory) {a : Nat} {bs : List Byte} (h : a + bs.length ≤ n) :
    WrittenBelow n m (m.write a bs) :=
  ⟨fun w => write_wf w a bs, fun _ hk hb => write_below hb (h.trans hk), fun b hb => readByte_write_other m (by omega)⟩

end Sys2Proof.Machine
end

