-- ==== Sys2Proof/Laws/Packer.lean ====
section
/-! SUPPORT. What the page operations do, each said once: from a cleared buffer the page, its footer and the request that follows (R142, R143). -/

namespace Sys2Proof.Machine

/-! ## Layouts -/

@[simp] theorem padPage_length {bs : List Byte} (h : bs.length ≤ 2048) : (padPage bs).length = 2048 := by
  rw [padPage, List.length_append, List.length_replicate]
  omega

@[simp] theorem encodedBlock_length (page : List Byte) (k : Nat) : (encodedBlock page k).length = 3 := rfl

@[simp] theorem footer_length (page : List Byte) : (footer page).length = 64 := by
  simp [footer]

/-- The length of what a page write carries (R149). -/
theorem pagePayload_length (g : Geom) {page : List Byte} (h : page.length = 2048) : (pagePayload g page).length = writeLength g := by
  cases g with
  | none => rfl
  | single => exact h
  | dual => rw [pagePayload, List.length_append, h]; rfl

theorem pageBlock_length {page : List Byte} (h : page.length = 2048) {k : Nat} (hk : k < 4) : (pageBlock page k).length = 512 := by
  simp [pageBlock, h]; omega

/-! ## Reading one block -/

theorem pageBlock_slice {m : Memory} {page : List Byte} (hl : page.length = 2048)
    (h : m.slice 0 2048 = Memory.cells 0 page) {k : Nat} (hk : k < 4) :
    m.slice (512 * k) 512 = Memory.cells (512 * k) (pageBlock page k) := by
  have e : page = page.take (512 * k) ++ pageBlock page k ++ page.drop (512 * k + 512) := by
    rw [pageBlock, ← List.drop_drop, List.append_assoc, List.take_append_drop, List.take_append_drop]
  have h1 : (page.take (512 * k)).length = 512 * k := by simp [hl]; omega
  have h2 := cells_slice (a := 0) (page.take (512 * k)) (pageBlock page k) (page.drop (512 * k + 512))
  rw [← e, h1, pageBlock_length hl hk, Nat.zero_add, ← h] at h2
  rw [slice_slice (a := 0) (n := 2048) (by omega) (by omega), h2]

/-! ## The footer -/

/-- Placing the code of block `k` writes its three encoded bytes. -/
theorem placeCode_ok {page : List Byte} {s : State} (hl : page.length = 2048)
    (h : s.pageBuf.slice 0 2048 = Memory.cells 0 page) {k : Nat} (hk : k < 4) :
    placeCode k s = .ok (s.setSpace .oobBuf (s.oobBuf.write (2 + 3 * k) (encodedBlock page k))) := by
  have hr := memRead_ok (sp := .pageBuf) (s := s) (pageBlock_length hl hk) (by simp; omega) (pageBlock_slice hl h hk)
  unfold placeCode
  simp only [Config.blockSize, Config.oobCodeOffset, Config.codeBytes]
  rw [hr]
  exact memWrite_ok (by simp; omega)

/-- The footer is built from the page in `PAGEBUF`: `OOBBUF` then holds it and nothing else of the state has changed (R142 step 3, R147). -/
theorem buildFooter_ok {page : List Byte} {s : State} (hl : page.length = 2048)
    (h : s.pageBuf.slice 0 2048 = Memory.cells 0 page) :
    ∃ o, buildFooter s = .ok { s with oobBuf := o } ∧ o.slice 0 64 = Memory.cells 0 (footer page) ∧ WrittenBelow 64 s.oobBuf o := by
  have hF : (List.replicate 64 0xFF#8).length = 64 := List.length_replicate
  let o0 := s.oobBuf.write 0 (List.replicate 64 0xFF#8)
  let o1 := o0.write 2 (encodedBlock page 0)
  let o2 := o1.write 5 (encodedBlock page 1)
  let o3 := o2.write 8 (encodedBlock page 2)
  let o4 := o3.write 11 (encodedBlock page 3)
  refine ⟨o4, ?_, ?_, ?_⟩
  · unfold buildFooter
    simp only [Config.oobSize, Config.fill, Config.blocksPerPage]
    rw [memWrite_ok (by simp)]
    have hr : List.range 4 = [0, 1, 2, 3] := rfl
    rw [hr]
    simp only [bind, Except.bind, placeCodes]
    rw [placeCode_ok hl (by simpa using h) (by omega)]
    simp only
    rw [placeCode_ok hl (by simpa using h) (by omega)]
    simp only
    rw [placeCode_ok hl (by simpa using h) (by omega)]
    simp only
    rw [placeCode_ok hl (by simpa using h) (by omega)]
    rfl
  · have s0 : o0.slice 0 (List.replicate 2 0xFF#8 ++ List.replicate 3 0xFF#8 ++ List.replicate 59 0xFF#8).length =
        Memory.cells 0 (List.replicate 2 0xFF#8 ++ List.replicate 3 0xFF#8 ++ List.replicate 59 0xFF#8) := by
      rw [List.replicate_append_replicate, List.replicate_append_replicate]
      exact slice_write_self s.oobBuf 0 (List.replicate 64 0xFF#8)
    have s1 := slice_write (bs := encodedBlock page 0) (by simp) s0
    have e1 : List.replicate 2 0xFF#8 ++ encodedBlock page 0 ++ List.replicate 59 0xFF#8 =
        (List.replicate 2 0xFF#8 ++ encodedBlock page 0) ++ List.replicate 3 0xFF#8 ++ List.replicate 56 0xFF#8 := by
      rw [List.append_assoc (bs := List.replicate 3 0xFF#8), List.replicate_append_replicate]
    rw [e1] at s1
    have s2 := slice_write (bs := encodedBlock page 1) (by simp) s1
    have e2 : List.replicate 2 0xFF#8 ++ encodedBlock page 0 ++ encodedBlock page 1 ++ List.replicate 56 0xFF#8 =
        (List.replicate 2 0xFF#8 ++ encodedBlock page 0 ++ encodedBlock page 1) ++ List.replicate 3 0xFF#8 ++ List.replicate 53 0xFF#8 := by
      rw [List.append_assoc (bs := List.replicate 3 0xFF#8), List.replicate_append_replicate]
    rw [e2] at s2
    have s3 := slice_write (bs := encodedBlock page 2) (by simp) s2
    have e3 : List.replicate 2 0xFF#8 ++ encodedBlock page 0 ++ encodedBlock page 1 ++ encodedBlock page 2 ++ List.replicate 53 0xFF#8 =
        (List.replicate 2 0xFF#8 ++ encodedBlock page 0 ++ encodedBlock page 1 ++ encodedBlock page 2) ++ List.replicate 3 0xFF#8 ++
          List.replicate 50 0xFF#8 := by
      rw [List.append_assoc (bs := List.replicate 3 0xFF#8), List.replicate_append_replicate]
    rw [e3] at s3
    have s4 := slice_write (bs := encodedBlock page 3) (by simp) s3
    have e4 : List.replicate 2 0xFF#8 ++ encodedBlock page 0 ++ encodedBlock page 1 ++ encodedBlock page 2 ++ encodedBlock page 3 ++
        List.replicate 50 0xFF#8 = footer page := by simp only [footer, List.append_assoc]
    rw [e4, footer_length] at s4
    simpa using s4
  · exact (((((WrittenBelow.write s.oobBuf (by simp)).trans (WrittenBelow.write o0 (by simp))).trans
      (WrittenBelow.write o1 (by simp))).trans (WrittenBelow.write o2 (by simp))).trans (WrittenBelow.write o3 (by simp)))

/-! ## The page -/

/-- Input written over a cleared range leaves the rest of the range at the fill byte (R145). -/
theorem slice_padPage {m : Memory} {bs : List Byte} (hb : bs.length ≤ 2048) {n : Nat}
    (h : m.slice 0 (2048 + n) = Memory.cells 0 (List.replicate (2048 + n) 0xFF#8)) :
    (m.write 0 bs).slice 0 (2048 + n) = Memory.cells 0 (padPage bs ++ List.replicate n 0xFF#8) := by
  have e : List.replicate (2048 + n) 0xFF#8 =
      [] ++ List.replicate bs.length 0xFF#8 ++ List.replicate (2048 - bs.length + n) 0xFF#8 := by
    rw [List.nil_append, List.replicate_append_replicate]
    congr 1
    omega
  have hs : m.slice 0 ([] ++ List.replicate bs.length 0xFF#8 ++ List.replicate (2048 - bs.length + n) 0xFF#8).length =
      Memory.cells 0 ([] ++ List.replicate bs.length 0xFF#8 ++ List.replicate (2048 - bs.length + n) 0xFF#8) := by
    rw [← e]
    simpa using h
  have := slice_write (bs := bs) (by simp) hs
  have e' : [] ++ bs ++ List.replicate (2048 - bs.length + n) 0xFF#8 = padPage bs ++ List.replicate n 0xFF#8 := by
    simp [padPage, List.replicate_append_replicate]
  rw [e'] at this
  have hl : (padPage bs ++ List.replicate n 0xFF#8).length = 2048 + n := by
    rw [List.length_append, padPage_length hb, List.length_replicate]
  rw [hl] at this
  simpa using this

/-- The start of a page: the buffer is cleared and one page's worth of input is requested (R142, R143 steps 1 and 2). -/
theorem startPage_ok (c : Activity) {s : State} (h : s.geom ≠ .none) :
    ∃ p, startPage c s = .ok { s with pageBuf := p, busy := some ⟨c, .inRead 2048⟩ } ∧
      p.slice 0 (writeLength s.geom) = Memory.cells 0 (List.replicate (writeLength s.geom) 0xFF#8) ∧
      WrittenBelow (writeLength s.geom) s.pageBuf p := by
  unfold startPage clearPage
  have hs : ∀ n, (s.pageBuf.write 0 (List.replicate n 0xFF#8)).slice 0 n = Memory.cells 0 (List.replicate n 0xFF#8) := fun n => by
    simpa only [List.length_replicate] using slice_write_self s.pageBuf 0 (List.replicate n 0xFF#8)
  have hw : ∀ n, WrittenBelow n s.pageBuf (s.pageBuf.write 0 (List.replicate n 0xFF#8)) := fun n =>
    WrittenBelow.write _ (by rw [List.length_replicate, Nat.zero_add])
  cases hg : s.geom with
  | none => exact absurd hg h
  | single =>
    refine ⟨s.pageBuf.write 0 (List.replicate 2048 0xFF#8), ?_, hs 2048, hw 2048⟩
    simp only [Config.pageSize, Config.fill]
    rw [memWrite_ok (by rw [List.length_replicate, size_pageBuf]; omega)]
    simp only [bind, Except.bind, State.setSpace, issue, space_pageBuf, hg]
  | dual =>
    refine ⟨s.pageBuf.write 0 (List.replicate 4096 0xFF#8), ?_, hs 4096, hw 4096⟩
    simp only [Config.dpWriteSize, Config.pageSize, Config.fill]
    rw [memWrite_ok (by rw [List.length_replicate, size_pageBuf])]
    simp only [bind, Except.bind, State.setSpace, issue, space_pageBuf, hg]

/-- One page on single-plane geometry up to its page write (R142 steps 2 to 4). -/
theorem packSingle_ok (c : Activity) {bs : List Byte} (hb : bs.length ≤ 2048) {s : State}
    (h : s.pageBuf.slice 0 2048 = Memory.cells 0 (List.replicate 2048 0xFF#8)) :
    ∃ p o, packSingle c bs s = .ok { s with pageBuf := p, oobBuf := o, busy := some ⟨c, .pageWrite (padPage bs)⟩ } ∧
      p.slice 0 2048 = Memory.cells 0 (padPage bs) ∧ o.slice 0 64 = Memory.cells 0 (footer (padPage bs)) ∧
      WrittenBelow 2048 s.pageBuf p ∧ WrittenBelow 64 s.oobBuf o := by
  have hp : (s.pageBuf.write 0 bs).slice 0 2048 = Memory.cells 0 (padPage bs) := by
    have := slice_padPage (n := 0) hb h
    simpa using this
  obtain ⟨o, ho, hs, hw⟩ := buildFooter_ok (s := { s with pageBuf := s.pageBuf.write 0 bs }) (padPage_length hb) hp
  refine ⟨s.pageBuf.write 0 bs, o, ?_, hp, hs, WrittenBelow.write _ (by omega), hw⟩
  unfold packSingle
  rw [memWrite_ok (by rw [size_pageBuf]; omega)]
  have e : (s.setSpace .pageBuf ((s.space .pageBuf).write 0 bs)) = { s with pageBuf := s.pageBuf.write 0 bs } := rfl
  simp only [bind, Except.bind, e, ho, Config.pageSize]
  rw [memRead_ok (sp := .pageBuf) (a := 0) (padPage_length hb) (by rw [size_pageBuf]; omega)]
  · rfl
  · exact hp

/-- One page on dual-plane geometry up to its page write (R143 steps 2 to 4). -/
theorem packDual_ok (c : Activity) {bs : List Byte} (hb : bs.length ≤ 2048) {s : State}
    (h : s.pageBuf.slice 0 4096 = Memory.cells 0 (List.replicate 4096 0xFF#8)) :
    ∃ p, packDual c bs s = .ok { s with pageBuf := p, busy := some ⟨c, .pageWrite (padPage bs ++ padPage bs)⟩ } ∧
      p.slice 0 4096 = Memory.cells 0 (padPage bs ++ padPage bs) ∧ WrittenBelow 4096 s.pageBuf p := by
  have hl := padPage_length hb
  have h1 : (s.pageBuf.write 0 bs).slice 0 4096 = Memory.cells 0 (padPage bs ++ List.replicate 2048 0xFF#8) :=
    slice_padPage (n := 2048) hb h
  have h2 : (s.pageBuf.write 0 bs).slice 0 2048 = Memory.cells 0 (padPage bs) := by
    rw [slice_slice (a := 0) (n := 4096) (by omega) (by omega), h1]
    have := cells_slice (a := 0) [] (padPage bs) (List.replicate 2048 0xFF#8)
    rwa [hl] at this
  have h3 : ((s.pageBuf.write 0 bs).write 2048 (padPage bs)).slice 0 4096 = Memory.cells 0 (padPage bs ++ padPage bs) := by
    have hs : (s.pageBuf.write 0 bs).slice 0 (padPage bs ++ List.replicate 2048 0xFF#8 ++ []).length =
        Memory.cells 0 (padPage bs ++ List.replicate 2048 0xFF#8 ++ []) := by
      rwa [List.append_nil, List.length_append, hl, List.length_replicate]
    have := slice_write (bs := padPage bs) (by rw [hl, List.length_replicate]) hs
    rwa [List.append_nil, List.length_append, hl, Nat.zero_add] at this
  refine ⟨(s.pageBuf.write 0 bs).write 2048 (padPage bs), ?_, h3, ?_⟩
  · unfold packDual duplicatePage
    rw [memWrite_ok (by rw [size_pageBuf]; omega)]
    have e : (s.setSpace .pageBuf ((s.space .pageBuf).write 0 bs)) = { s with pageBuf := s.pageBuf.write 0 bs } := rfl
    simp only [bind, Except.bind, e, Config.pageSize, Config.dpWriteSize]
    rw [memRead_ok (sp := .pageBuf) (a := 0) hl (by rw [size_pageBuf]; omega)]
    · simp only
      rw [memWrite_ok (by rw [hl, size_pageBuf])]
      simp only
      rw [memRead_ok (sp := .pageBuf) (a := 0) (bs := padPage bs ++ padPage bs) (by rw [List.length_append, hl])
        (by rw [size_pageBuf])]
      · rfl
      · exact h3
    · exact h2
  · exact (WrittenBelow.write s.pageBuf (by omega)).trans (WrittenBelow.write _ (by omega))

/-- The request for the footer's write carries the content of `OOBBUF` and the offset `PAGEIDX × 2048` (R57, R142 step 4). -/
theorem requestFooter_ok (c : Activity) {f : List Byte} (hf : f.length = 64) {s : State} (h : s.oobBuf.slice 0 64 = Memory.cells 0 f) :
    requestFooter c s = .ok { s with busy := some ⟨c, .oobWrite f (s.pageIdx * 2048)⟩ } := by
  unfold requestFooter
  simp only [Config.oobSize, Config.pageSize]
  rw [memRead_ok (sp := .oobBuf) (a := 0) hf (by rw [size_oobBuf]) h]
  rfl

end Sys2Proof.Machine
end

