-- ==== Sys2Proof/Laws/Drive.lean ====
section
/-! SUPPORT. What a port transaction can do, said once (`transact_cases`, `transact_quiet`), and induction over the transactions of a command. -/

namespace Sys2Proof.Machine

/-- What the block's own computation between two requests leaves alone: the environment, the host's inputs, the history and the parameter. -/
structure Quiet (s t : State) : Prop where
  inputs    : t.inputs = s.inputs
  history   : t.history = s.history
  answers   : t.answers = s.answers
  world     : t.world = s.world
  maxPages  : t.maxPages = s.maxPages
  freeCount : t.freeCount = s.freeCount

theorem Quiet.refl (s : State) : Quiet s s := ⟨rfl, rfl, rfl, rfl, rfl, rfl⟩

theorem Quiet.trans {s t u : State} (h : Quiet s t) (h' : Quiet t u) : Quiet s u :=
  ⟨h'.inputs.trans h.inputs, h'.history.trans h.history, h'.answers.trans h.answers, h'.world.trans h.world,
    h'.maxPages.trans h.maxPages, h'.freeCount.trans h.freeCount⟩

theorem quiet_setSpace (s : State) (sp : Space) (m : Memory) : Quiet s (s.setSpace sp m) := by
  cases sp <;> exact ⟨rfl, rfl, rfl, rfl, rfl, rfl⟩

theorem quiet_memWrite {sp : Space} {a : Nat} {bs : List Byte} {s t : State} (h : memWrite sp a bs s = .ok t) : Quiet s t := by
  rw [(memWrite_eq_ok h).2]
  exact quiet_setSpace _ _ _

theorem quiet_complete (s : State) : Quiet s (complete s) := ⟨rfl, rfl, rfl, rfl, rfl, rfl⟩
theorem quiet_raise (x : Exc) (s : State) : Quiet s (raise x s) := ⟨rfl, rfl, rfl, rfl, rfl, rfl⟩
theorem quiet_issue (c : Activity) (r : Request) (s : State) : Quiet s (issue c r s) := ⟨rfl, rfl, rfl, rfl, rfl, rfl⟩

/-- A computation that may fault, followed by another, answers a state only through both. -/
theorem bind_eq_ok {α β : Type} {x : Except Fault α} {f : α → Except Fault β} {b : β} (h : x >>= f = .ok b) :
    ∃ a, x = .ok a ∧ f a = .ok b := by
  cases x with
  | error e => cases h
  | ok a => exact ⟨a, rfl, h⟩

theorem quiet_startPage {c : Activity} {s t : State} (h : startPage c s = .ok t) : Quiet s t := by
  unfold startPage clearPage at h
  split at h
  · obtain ⟨u, hu, h⟩ := bind_eq_ok h
    cases h
    exact (quiet_memWrite hu).trans (quiet_issue _ _ _)
  · obtain ⟨u, hu, h⟩ := bind_eq_ok h
    cases h
    exact (quiet_memWrite hu).trans (quiet_issue _ _ _)
  · cases h

theorem quiet_continueWith {c : Activity} {s t : State} (h : continueWith c s = .ok t) : Quiet s t := by
  unfold continueWith loopRun at h
  split at h
  · split at h
    · exact quiet_startPage h
    · cases h; exact quiet_complete _
  · cases h; exact quiet_complete _
  · cases h; exact quiet_complete _

theorem quiet_placeCodes {ks : List Nat} {s t : State} (h : placeCodes ks s = .ok t) : Quiet s t := by
  induction ks generalizing s with
  | nil => cases h; exact Quiet.refl _
  | cons k ks ih =>
    obtain ⟨u, hu, h⟩ := bind_eq_ok h
    obtain ⟨b, _, hw⟩ := bind_eq_ok hu
    exact (quiet_memWrite hw).trans (ih h)

theorem quiet_packSingle {c : Activity} {bs : List Byte} {s t : State} (h : packSingle c bs s = .ok t) : Quiet s t := by
  obtain ⟨u, hu, h⟩ := bind_eq_ok h
  obtain ⟨v, hv, h⟩ := bind_eq_ok h
  obtain ⟨p, _, h⟩ := bind_eq_ok h
  obtain ⟨w, hw, hv⟩ := bind_eq_ok hv
  cases h
  exact (((quiet_memWrite hu).trans (quiet_memWrite hw)).trans (quiet_placeCodes hv)).trans (quiet_issue _ _ _)

theorem quiet_packDual {c : Activity} {bs : List Byte} {s t : State} (h : packDual c bs s = .ok t) : Quiet s t := by
  obtain ⟨u, hu, h⟩ := bind_eq_ok h
  obtain ⟨v, hv, h⟩ := bind_eq_ok h
  obtain ⟨p, _, h⟩ := bind_eq_ok h
  obtain ⟨w, _, hv⟩ := bind_eq_ok hv
  cases h
  exact ((quiet_memWrite hu).trans (quiet_memWrite hv)).trans (quiet_issue _ _ _)

/-- Setting the control elements is the block's own business. -/
theorem quiet_control (s : State) (g : Geom) (k : Ctl) (n : Nat) : Quiet s { s with geom := g, ctl := k, pageIdx := n } :=
  ⟨rfl, rfl, rfl, rfl, rfl, rfl⟩

theorem quiet_afterGeomQuery {c : Activity} {g : GeomAnswer} {s t : State} (h : afterGeomQuery c g s = .ok t) : Quiet s t := by
  unfold afterGeomQuery at h
  split at h
  · cases h; exact quiet_raise _ _
  · cases h; exact ⟨rfl, rfl, rfl, rfl, rfl, rfl⟩
  · exact (quiet_control s _ _ s.pageIdx).trans (quiet_continueWith h)

theorem quiet_afterRawMode {c : Activity} {a : Ack} {s t : State} (h : afterRawMode c a s = .ok t) : Quiet s t := by
  unfold afterRawMode at h
  split at h
  · cases h; exact quiet_raise _ _
  · exact (quiet_control s s.geom _ s.pageIdx).trans (quiet_continueWith h)

theorem quiet_afterInRead {c : Activity} {r : ReadAnswer} {s t : State} (h : afterInRead c r s = .ok t) : Quiet s t := by
  unfold afterInRead at h
  split at h
  · cases h; exact quiet_raise _ _
  · split at h
    · exact (quiet_control s s.geom _ s.pageIdx).trans (quiet_continueWith h)
    · split at h
      · exact quiet_packSingle h
      · exact quiet_packDual h
      · cases h

theorem quiet_advancePage {c : Activity} {s t : State} (h : advancePage c s = .ok t) : Quiet s t :=
  (quiet_control s s.geom s.ctl (s.pageIdx + 1)).trans (quiet_continueWith h)

theorem quiet_afterPageWrite {c : Activity} {a : Ack} {s t : State} (h : afterPageWrite c a s = .ok t) : Quiet s t := by
  unfold afterPageWrite at h
  split at h
  · cases h; exact quiet_raise _ _
  · split at h
    · obtain ⟨p, _, h⟩ := bind_eq_ok h
      cases h
      exact quiet_issue _ _ _
    · exact quiet_advancePage h
    · cases h

theorem quiet_afterOobWrite {c : Activity} {a : Ack} {s t : State} (h : afterOobWrite c a s = .ok t) : Quiet s t := by
  unfold afterOobWrite at h
  split at h
  · cases h; exact quiet_raise _ _
  · exact quiet_advancePage h

/-! ## Transactions -/

/-- Everything a transaction can be: the answer at the head of the queue of the port the request stands on, the event recorded, and the command's
continuation. -/
theorem transact_cases {b : Busy} {s : State} {r : Except Fault State} (h : transact b s = some r) :
    (b.request = .geomQuery ∧ ∃ g rest, s.answers.geom = g :: rest ∧
      r = afterGeomQuery b.activity g (record (.geomQuery g) { s with answers := { s.answers with geom := rest } })) ∨
    (b.request = .rawMode ∧ ∃ a rest, s.answers.raw = a :: rest ∧
      r = afterRawMode b.activity a (record (.rawMode a) { s with answers := { s.answers with raw := rest } })) ∨
    (∃ n, b.request = .inRead n ∧ ∃ a rest, s.answers.read = a :: rest ∧
      r = afterInRead b.activity a (record (.inRead n a) { s with answers := { s.answers with read := rest } })) ∨
    (∃ p, b.request = .pageWrite p ∧ ∃ a rest, s.answers.page = a :: rest ∧
      r = afterPageWrite b.activity a (record (.pageWrite p a) { s with answers := { s.answers with page := rest } })) ∨
    (∃ p off, b.request = .oobWrite p off ∧ ∃ a rest, s.answers.oob = a :: rest ∧
      r = afterOobWrite b.activity a (record (.oobWrite p off a) { s with answers := { s.answers with oob := rest } })) := by
  unfold transact at h
  split at h
  · split at h
    · cases h
    · exact .inl ⟨‹_›, _, _, ‹_›, (Option.some.inj h).symm⟩
  · split at h
    · cases h
    · exact .inr (.inl ⟨‹_›, _, _, ‹_›, (Option.some.inj h).symm⟩)
  · split at h
    · cases h
    · exact .inr (.inr (.inl ⟨_, ‹_›, _, _, ‹_›, (Option.some.inj h).symm⟩))
  · split at h
    · cases h
    · exact .inr (.inr (.inr (.inl ⟨_, ‹_›, _, _, ‹_›, (Option.some.inj h).symm⟩)))
  · split at h
    · cases h
    · exact .inr (.inr (.inr (.inr ⟨_, _, ‹_›, _, _, ‹_›, (Option.some.inj h).symm⟩)))

/-- A transaction takes exactly one answer and enters exactly one event; the host's inputs and the parameter stay (R55). -/
theorem transact_quiet {b : Busy} {s t : State} (h : transact b s = some (.ok t)) :
    t.answers.count + 1 = s.answers.count ∧ (∃ e, t.history = s.history ++ [e]) ∧ t.inputs = s.inputs ∧ t.maxPages = s.maxPages := by
  rcases transact_cases h with ⟨_, a, rest, ha, hr⟩ | ⟨_, a, rest, ha, hr⟩ | ⟨_, _, a, rest, ha, hr⟩ | ⟨_, _, a, rest, ha, hr⟩ |
    ⟨_, _, _, a, rest, ha, hr⟩
  · have q := quiet_afterGeomQuery hr.symm
    exact ⟨by rw [q.answers]; simp [Answers.count, ha]; omega, ⟨_, q.history⟩, q.inputs, q.maxPages⟩
  · have q := quiet_afterRawMode hr.symm
    exact ⟨by rw [q.answers]; simp [Answers.count, ha]; omega, ⟨_, q.history⟩, q.inputs, q.maxPages⟩
  · have q := quiet_afterInRead hr.symm
    exact ⟨by rw [q.answers]; simp [Answers.count, ha]; omega, ⟨_, q.history⟩, q.inputs, q.maxPages⟩
  · have q := quiet_afterPageWrite hr.symm
    exact ⟨by rw [q.answers]; simp [Answers.count, ha]; omega, ⟨_, q.history⟩, q.inputs, q.maxPages⟩
  · have q := quiet_afterOobWrite hr.symm
    exact ⟨by rw [q.answers]; simp [Answers.count, ha]; omega, ⟨_, q.history⟩, q.inputs, q.maxPages⟩

/-! ## Runs of transactions -/

theorem drive_idle {s : State} (h : s.busy = none) (n : Nat) : drive n s = .next s := by
  cases n <;> simp [drive, h]

theorem drive_unanswered {s : State} {b : Busy} (h : s.busy = some b) (ht : transact b s = none) (n : Nat) : drive n s = .next s := by
  cases n <;> simp [drive, h, ht]

theorem drive_transact {s t : State} {b : Busy} (h : s.busy = some b) (ht : transact b s = some (.ok t)) (n : Nat) :
    drive (n + 1) s = drive n t := by
  simp [drive, h, ht]

/-- What holds of a state and is kept by every transaction holds when the command stops. -/
theorem drive_induct {P : State → Prop} (hP : ∀ s b t, P s → s.busy = some b → transact b s = some (.ok t) → P t) :
    ∀ {n : Nat} {s t : State}, P s → drive n s = .next t → P t
  | 0, s, t, hs, h => by cases h; exact hs
  | n + 1, s, t, hs, h => by
    unfold drive at h
    split at h
    · cases h; exact hs
    · split at h
      · cases h; exact hs
      · cases h
      · exact drive_induct hP (hP _ _ _ hs ‹_› ‹_›) h

/-- Where every transaction that P allows succeeds and keeps P, a command does not fault. -/
theorem drive_total {P : State → Prop}
    (hP : ∀ s b r, P s → s.busy = some b → transact b s = some r → ∃ t, r = .ok t ∧ P t) :
    ∀ {n : Nat} {s : State}, P s → ∃ t, drive n s = .next t ∧ P t
  | 0, s, hs => ⟨s, rfl, hs⟩
  | n + 1, s, hs => by
    unfold drive
    split
    · exact ⟨s, rfl, hs⟩
    · split
      · exact ⟨s, rfl, hs⟩
      · obtain ⟨t, ht, _⟩ := hP _ _ _ hs ‹_› ‹_›
        cases ht
      · obtain ⟨t, ht, hp⟩ := hP _ _ _ hs ‹_› ‹_›
        cases ht
        exact drive_total hP hp

/-- Fuel beyond the answers ready changes nothing: each transaction takes one. -/
theorem drive_fuel : ∀ {n m : Nat} {s : State}, s.answers.count ≤ n → s.answers.count ≤ m → drive n s = drive m s
  | 0, m, s, hn, _ => by
    cases hb : s.busy with
    | none => rw [drive_idle hb, drive_idle hb]
    | some b =>
      cases ht : transact b s with
      | none => rw [drive_unanswered hb ht, drive_unanswered hb ht]
      | some r =>
        exfalso
        have hc : s.answers.count = 0 := by omega
        rcases transact_cases ht with ⟨_, a, rest, ha, _⟩ | ⟨_, a, rest, ha, _⟩ | ⟨_, _, a, rest, ha, _⟩ | ⟨_, _, a, rest, ha, _⟩ |
          ⟨_, _, _, a, rest, ha, _⟩ <;> simp [Answers.count, ha] at hc
  | n + 1, 0, s, hn, hm => (drive_fuel hm hn).symm
  | n + 1, m + 1, s, hn, hm => by
    unfold drive
    split
    · rfl
    · split
      · rfl
      · rfl
      · have := (transact_quiet ‹transact _ s = some (.ok _)›).1
        exact drive_fuel (by omega) (by omega)

/-- A command that is not over waits on an answer that is not there (R198). -/
theorem proceed_end {s t : State} (h : proceed s = .next t) {b : Busy} (hb : t.busy = some b) : transact b t = none := by
  suffices H : ∀ n (s : State), s.answers.count ≤ n → drive n s = .next t → transact b t = none from H _ s (Nat.le_refl _) h
  clear h s
  intro n
  induction n with
  | zero =>
    intro s hc h
    obtain rfl : s = t := by simpa [drive] using h
    cases ht : transact b s with
    | none => rfl
    | some r =>
      exfalso
      have hc : s.answers.count = 0 := by omega
      rcases transact_cases ht with ⟨_, a, rest, ha, _⟩ | ⟨_, a, rest, ha, _⟩ | ⟨_, _, a, rest, ha, _⟩ | ⟨_, _, a, rest, ha, _⟩ |
        ⟨_, _, _, a, rest, ha, _⟩ <;> simp [Answers.count, ha] at hc
  | succ n ih =>
    intro s hc h
    unfold drive at h
    split at h
    · cases h; simp_all
    · split at h
      · cases h; simp_all
      · cases h
      · have := (transact_quiet ‹transact _ s = some (.ok _)›).1
        exact ih _ (by omega) h

/-- One transaction of a command in progress, then the rest. -/
theorem proceed_transact {s t : State} {b : Busy} (h : s.busy = some b) (ht : transact b s = some (.ok t)) :
    proceed s = proceed t := by
  have hc := (transact_quiet ht).1
  unfold proceed
  rw [← hc, drive_transact h ht]

theorem proceed_idle {s : State} (h : s.busy = none) : proceed s = .next s := drive_idle h _

theorem proceed_unanswered {s : State} {b : Busy} (h : s.busy = some b) (ht : transact b s = none) : proceed s = .next s :=
  drive_unanswered h ht _

end Sys2Proof.Machine
end

