-- ==== Sys2Proof/Laws/Commands.lean ====
section
/-! SUPPORT. What a step can be (`step_cases`), how a command is taken against how it runs (`accept_started`), how each command starts, and the
transaction on each port when its answer is there. -/

namespace Sys2Proof.Machine

/-! ## A command and its answers -/

/-- The start of a page does not look at the answers. -/
theorem startPage_withAnswers (c : Activity) (s : State) (a : Answers) :
    startPage c (s.withAnswers a) = (startPage c s).map (·.withAnswers a) := by
  unfold startPage clearPage memWrite
  cases hg : s.geom <;> simp [hg] <;> rfl

/-- What a command does before its first answer, said once: it comes to the same state whatever answers are ready, by the block's own computation, and
then runs as far as they go. -/
theorem exec_started (i : Instr) {s : State} (hs : s.busy = none) : ∃ x : Except Fault State,
    (∀ u, x = .ok u → Quiet s u) ∧
    ∀ a, exec i (s.withAnswers a) = match x with
      | .ok u    => drive a.count (u.withAnswers a)
      | .error f => .fault f := by
  have respond : ∀ r : Response, (∀ a, exec i (s.withAnswers a) = .next ((s.withAnswers a).respond r)) → ∃ x : Except Fault State,
      (∀ u, x = .ok u → Quiet s u) ∧ ∀ a, exec i (s.withAnswers a) = match x with
        | .ok u    => drive a.count (u.withAnswers a)
        | .error f => .fault f := fun r h =>
    ⟨.ok (s.respond r), by rintro u ⟨⟩; exact ⟨rfl, rfl, rfl, rfl, rfl, rfl⟩,
      fun a => (h a).trans (drive_idle (s := (s.respond r).withAnswers a) hs a.count).symm⟩
  cases i with
  | par v m => exact respond _ fun _ => rfl
  | ecc block =>
    by_cases h : block.length = 512
    · exact respond _ fun _ => if_pos h
    · exact respond _ fun _ => if_neg h
  | enc c => exact respond _ fun _ => rfl
  | init =>
    by_cases h : s.admitsStart = true
    · exact ⟨.ok (issue .init .geomQuery s), by rintro u ⟨⟩; exact quiet_issue _ _ _, fun a => if_pos h⟩
    · exact respond _ fun _ => if_neg h
  | page =>
    by_cases h : s.admitsPage = true
    · refine ⟨startPage .page s, fun u hu => quiet_startPage hu, fun a => ?_⟩
      refine (if_pos h).trans ?_
      rw [startPage_withAnswers]
      cases startPage .page s <;> rfl
    · exact respond _ fun _ => if_neg h
  | run =>
    by_cases h : s.admitsStart = true
    · exact ⟨.ok (issue .run .geomQuery s), by rintro u ⟨⟩; exact quiet_issue _ _ _, fun a => if_pos h⟩
    · exact respond _ fun _ => if_neg h
  | reserved6 => exact respond _ fun _ => rfl
  | reserved7 => exact respond _ fun _ => rfl

/-- Taking a command, against running it: the same start, then one transaction, or all that are answered. -/
theorem accept_started (i : Instr) {s : State} (hs : s.busy = none) : ∃ x : Except Fault State,
    (∀ u, x = .ok u → Quiet s u) ∧
    (accept i s = match x with
      | .ok u    => drive 1 u
      | .error f => .fault f) ∧
    exec i s = match x with
      | .ok u    => proceed u
      | .error f => .fault f := by
  obtain ⟨x, hq, hx⟩ := exec_started i hs
  refine ⟨x, hq, ?_, ?_⟩
  · unfold accept
    rw [hx]
    cases x with
    | error f => rfl
    | ok u =>
      have : u.withAnswers s.answers = u := by rw [← (hq u rfl).answers]; rfl
      simp only [show Answers.empty.count = 0 from rfl, drive, withAnswers_twice, this]
  · have := hx s.answers
    rw [withAnswers_self] at this
    rw [this]
    cases x with
    | error f => rfl
    | ok u =>
      have ha := (hq u rfl).answers
      simp only [proceed, ha, show u.withAnswers s.answers = u by rw [← ha]; rfl]

/-! ## Steps -/

/-- One unit of fuel is one transaction, if it is answered. -/
theorem drive_one {s t : State} (h : drive 1 s = .next t) :
    (t = s ∧ ∀ b, s.busy = some b → transact b s = none) ∨ ∃ b, s.busy = some b ∧ transact b s = some (.ok t) := by
  unfold drive at h
  split at h
  · cases h; exact .inl ⟨rfl, by simp_all⟩
  · split at h
    · cases h; exact .inl ⟨rfl, by simp_all⟩
    · cases h
    · cases h; exact .inr ⟨_, ‹_›, ‹_›⟩

/-- A step inside a command is one transaction, and there is none while its request is unanswered (R3, R198). -/
theorem step_busy {s : State} {b : Busy} (hb : s.busy = some b) : step s = match transact b s with
    | none            => .fault .noAnswer
    | some (.ok t)    => .next t
    | some (.error f) => .fault f := by
  unfold step
  simp only [hb, State.answered, drive]
  cases h : transact b s with
  | none => rfl
  | some r => cases r <;> simp

/-- Everything a step that goes on can be: one transaction of a command in progress; or reset; or a command that decodes is taken, or one that does
not is refused. -/
theorem step_cases {s t : State} (h : step s = .next t) :
    (∃ b, s.busy = some b ∧ transact b s = some (.ok t)) ∨
    (s.busy = none ∧ ∃ xs, s.inputs = .reset :: xs ∧ t = applyReset { s with inputs := xs }) ∨
    (s.busy = none ∧ ∃ w xs, s.inputs = .command w :: xs ∧
      ((∃ i, decode w = .ok i ∧ accept i { s with inputs := xs } = .next t) ∨
       (∃ e, decode w = .error e ∧ t = refuse { s with inputs := xs }))) := by
  rcases Option.eq_none_or_eq_some s.busy with hb | ⟨b, hb⟩
  rotate_left
  · rw [step_busy hb] at h
    split at h
    · cases h
    · cases h; exact .inl ⟨b, hb, ‹_›⟩
    · cases h
  · unfold step at h
    simp only [hb] at h
    unfold fetch at h
    cases hin : s.inputs with
    | nil => simp [hin] at h
    | cons x xs =>
      simp only [hin] at h
      cases x with
      | reset => exact .inr (.inl ⟨hb, _, rfl, by cases h; rfl⟩)
      | command w =>
        simp only at h
        split at h
        · exact .inr (.inr ⟨hb, _, _, rfl, .inl ⟨_, ‹_›, h⟩⟩)
        · exact .inr (.inr ⟨hb, _, _, rfl, .inr ⟨_, ‹_›, by cases h; rfl⟩⟩)

/-! ## Starting a command -/

theorem exec_init {s : State} (h : s.ctl = .idle) : exec .init s = proceed (issue .init .geomQuery s) :=
  if_pos (by simp [State.admitsStart, h])

theorem exec_run {s : State} (h : s.ctl = .idle) : exec .run s = proceed (issue .run .geomQuery s) :=
  if_pos (by simp [State.admitsStart, h])

theorem exec_page {s t : State} (h : s.ctl = .ready) (hm : s.maxPages ≠ some s.pageIdx) (hs : startPage .page s = .ok t) :
    exec .page s = proceed t := by
  have : exec .page s = match startPage .page s with
    | .error f => .fault f
    | .ok t => proceed t := if_pos (by simp [State.admitsPage, State.atBound, h, hm])
  rw [this, hs]

/-- Outside `READY` and at the bound `PAGE` is refused (R141, R195). -/
theorem exec_page_refused {s : State} (h : s.ctl = .ready → s.maxPages = some s.pageIdx) : exec .page s = .next (refuse s) :=
  if_neg (by simpa [State.admitsPage, State.atBound] using h)

/-! ## The transaction on each port -/

theorem transact_geom {u : State} {c r rest} (ha : u.answers.geom = r :: rest) : transact ⟨c, .geomQuery⟩ u =
  some (afterGeomQuery c r (record (.geomQuery r) { u with answers := { u.answers with geom := rest } })) := by simp [transact, ha]
theorem transact_raw {u : State} {c r rest} (ha : u.answers.raw = r :: rest) : transact ⟨c, .rawMode⟩ u =
  some (afterRawMode c r (record (.rawMode r) { u with answers := { u.answers with raw := rest } })) := by simp [transact, ha]
theorem transact_read {u : State} {c n r rest} (ha : u.answers.read = r :: rest) : transact ⟨c, .inRead n⟩ u =
  some (afterInRead c r (record (.inRead n r) { u with answers := { u.answers with read := rest } })) := by simp [transact, ha]
theorem transact_page {u : State} {c n r rest} (ha : u.answers.page = r :: rest) : transact ⟨c, .pageWrite n⟩ u =
  some (afterPageWrite c r (record (.pageWrite n r) { u with answers := { u.answers with page := rest } })) := by simp [transact, ha]
theorem transact_oob {u : State} {c n o r rest} (ha : u.answers.oob = r :: rest) : transact ⟨c, .oobWrite n o⟩ u =
  some (afterOobWrite c r (record (.oobWrite n o r) { u with answers := { u.answers with oob := rest } })) := by simp [transact, ha]

/-! ## The end of a phase -/

/-- A command after the end of a phase: `RUN` in its loop, `INIT` and `PAGE` over. -/
def continued (c : Activity) (s : State) : Host.Outcome State Fault Refusal :=
  match continueWith c s with
  | .error f => .fault f
  | .ok t => proceed t

theorem proceed_continued {s u : State} {b c} (h : s.busy = some b) (ht : transact b s = some (continueWith c u)) : proceed s = continued c u := by
  unfold continued
  cases hc : continueWith c u with
  | ok t => rw [hc] at ht; exact proceed_transact h ht
  | error f =>
    rw [hc] at ht
    have : s.answers.count ≠ 0 := by
      rcases transact_cases ht with ⟨_, a, rest, ha, _⟩ | ⟨_, a, rest, ha, _⟩ | ⟨_, _, a, rest, ha, _⟩ | ⟨_, _, a, rest, ha, _⟩ |
          ⟨_, _, _, a, rest, ha, _⟩ <;> simp [Answers.count, ha]
    unfold proceed
    cases hn : s.answers.count with
    | zero => exact absurd hn this
    | succ n => simp [drive, h, ht]

theorem continued_page (s : State) : continued .page s = .next (complete s) := proceed_idle rfl
theorem continued_init (s : State) : continued .init s = .next (complete s) := proceed_idle rfl

theorem continued_run {s t : State} (hc : s.ctl = .ready) (hm : s.maxPages ≠ some s.pageIdx) (h : startPage .run s = .ok t) :
    continued .run s = proceed t := by
  have : loopRun s = startPage .run s := if_pos (by simp [hc, State.atBound, hm])
  unfold continued continueWith
  simp only
  rw [this, h]

end Sys2Proof.Machine
end

