-- ==== Sys2Proof/Laws/Page.lean ====
section
/-! SUPPORT. One page from its start to its end, on each geometry, for `PAGE` and inside `RUN` alike (R142, R143, R146). -/

namespace Sys2Proof.Machine

/-! ## The geometry dispatch -/

theorem afterInRead_single {c : Activity} {d : InData} {s : State} (hg : s.geom = .single) (hd : d.bytes ≠ []) :
    afterInRead c (.data d) s = packSingle c d.bytes s := by simp [afterInRead, hd, hg]

theorem afterInRead_dual {c : Activity} {d : InData} {s : State} (hg : s.geom = .dual) (hd : d.bytes ≠ []) :
    afterInRead c (.data d) s = packDual c d.bytes s := by simp [afterInRead, hd, hg]

theorem afterPageWrite_single {c : Activity} {s : State} (hg : s.geom = .single) :
    afterPageWrite c .ok s = requestFooter c s := by simp [afterPageWrite, hg]

theorem afterPageWrite_dual {c : Activity} {s : State} (hg : s.geom = .dual) :
    afterPageWrite c .ok s = advancePage c s := by simp [afterPageWrite, hg]

/-! ## Pages -/

/-- A page on single-plane geometry up to its page write (R142 steps 1 to 4). -/
theorem single_read (c : Activity) {s : State} {d : InData} {rs} (hg : s.geom = .single)
    (hr : s.answers.read = .data d :: rs) (hd : d.bytes ≠ []) :
    ∃ t0 p o, startPage c s = .ok t0 ∧
      p.slice 0 2048 = Memory.cells 0 (padPage d.bytes) ∧ o.slice 0 64 = Memory.cells 0 (footer (padPage d.bytes)) ∧
      WrittenBelow 2048 s.pageBuf p ∧ WrittenBelow 64 s.oobBuf o ∧
      proceed t0 = proceed { s with
        pageBuf := p, oobBuf := o, busy := some ⟨c, .pageWrite (padPage d.bytes)⟩,
        history := s.history ++ [.inRead 2048 (.data d)], answers := { s.answers with read := rs },
        world := { s.world with inPos := s.world.inPos + d.bytes.length } } := by
  obtain ⟨p0, h0, hs0, hw0⟩ := startPage_ok c (s := s) (by simp [hg])
  rw [hg] at hs0 hw0
  change p0.slice 0 2048 = Memory.cells 0 (List.replicate 2048 0xFF#8) at hs0
  obtain ⟨p, o, h1, hp, ho, hwp, hwo⟩ := packSingle_ok c d.fits (s := { s with
        pageBuf := p0, busy := some ⟨c, .inRead 2048⟩,
        history := s.history ++ [.inRead 2048 (.data d)], answers := { s.answers with read := rs },
        world := { s.world with inPos := s.world.inPos + d.bytes.length } }) hs0
  refine ⟨_, p, o, h0, hp, ho, hw0.trans hwp, hwo, ?_⟩
  refine proceed_transact (b := ⟨c, .inRead 2048⟩) rfl ?_
  rw [transact_read (u := { s with
        pageBuf := p0, busy := some ⟨c, .inRead 2048⟩ }) hr]
  refine congrArg some ?_
  rw [afterInRead_single (by exact hg) hd]
  exact h1

/-- A whole page on single-plane geometry (R142). -/
theorem single_page (c : Activity) {s : State} {d : InData} {rs ps os} (hg : s.geom = .single)
    (hr : s.answers.read = .data d :: rs) (hd : d.bytes ≠ [])
    (hp : s.answers.page = .ok :: ps) (ho : s.answers.oob = .ok :: os) :
    ∃ t0 p o, startPage c s = .ok t0 ∧
      p.slice 0 2048 = Memory.cells 0 (padPage d.bytes) ∧ o.slice 0 64 = Memory.cells 0 (footer (padPage d.bytes)) ∧
      WrittenBelow 2048 s.pageBuf p ∧ WrittenBelow 64 s.oobBuf o ∧
      proceed t0 = continued c { s with
        pageIdx := s.pageIdx + 1, pageBuf := p, oobBuf := o, busy := some ⟨c, .oobWrite (footer (padPage d.bytes)) (s.pageIdx * 2048)⟩,
        history := s.history ++ [.inRead 2048 (.data d), .pageWrite (padPage d.bytes) .ok,
          .oobWrite (footer (padPage d.bytes)) (s.pageIdx * 2048) .ok],
        answers := { s.answers with read := rs, page := ps, oob := os },
        world := { s.world with
          inPos := s.world.inPos + d.bytes.length, devPos := s.world.devPos + 2048,
          data := s.world.data ++ padPage d.bytes, oob := putFooter s.world.oob (s.pageIdx * 2048) (footer (padPage d.bytes)) } } := by
  obtain ⟨t0, p, o, h0, h1, h2, h3, h4, h5⟩ := single_read c hg hr hd
  refine ⟨t0, p, o, h0, h1, h2, h3, h4, h5.trans ?_⟩
  have r1 := requestFooter_ok c (footer_length (padPage d.bytes)) (s := { s with
        pageBuf := p, oobBuf := o, busy := some ⟨c, .pageWrite (padPage d.bytes)⟩,
        history := s.history ++ [.inRead 2048 (.data d)] ++ [.pageWrite (padPage d.bytes) .ok], answers := { s.answers with read := rs, page := ps },
        world := { s.world with
          inPos := s.world.inPos + d.bytes.length, devPos := s.world.devPos + (padPage d.bytes).length,
          data := s.world.data ++ padPage d.bytes } }) h2
  refine (proceed_transact (b := ⟨c, .pageWrite (padPage d.bytes)⟩) rfl (((transact_page (u := { s with
        pageBuf := p, oobBuf := o, busy := some ⟨c, .pageWrite (padPage d.bytes)⟩,
        history := s.history ++ [.inRead 2048 (.data d)], answers := { s.answers with read := rs },
        world := { s.world with inPos := s.world.inPos + d.bytes.length } }) hp).trans (congrArg some ?_)).trans (congrArg some r1))).trans ?_
  · exact afterPageWrite_single hg
  · refine proceed_continued (b := ⟨c, .oobWrite (footer (padPage d.bytes)) (s.pageIdx * 2048)⟩) rfl ((transact_oob (u := { s with
        pageBuf := p, oobBuf := o, busy := some ⟨c, .oobWrite (footer (padPage d.bytes)) (s.pageIdx * 2048)⟩,
        history := s.history ++ [.inRead 2048 (.data d)] ++ [.pageWrite (padPage d.bytes) .ok], answers := { s.answers with read := rs, page := ps },
        world := { s.world with
          inPos := s.world.inPos + d.bytes.length, devPos := s.world.devPos + (padPage d.bytes).length,
          data := s.world.data ++ padPage d.bytes } }) ho).trans ?_)
    have hl := padPage_length d.fits
    simp only [afterOobWrite, advancePage, record, worldAfter, Event.isError, hl, List.append_assoc, List.cons_append, List.nil_append]
    rfl

/-- A page on dual-plane geometry up to its page write (R143 steps 1 to 4). -/
theorem dual_read (c : Activity) {s : State} {d : InData} {rs} (hg : s.geom = .dual)
    (hr : s.answers.read = .data d :: rs) (hd : d.bytes ≠ []) :
    ∃ t0 p, startPage c s = .ok t0 ∧
      p.slice 0 4096 = Memory.cells 0 (padPage d.bytes ++ padPage d.bytes) ∧
      WrittenBelow 4096 s.pageBuf p ∧
      proceed t0 = proceed { s with
        pageBuf := p, busy := some ⟨c, .pageWrite (padPage d.bytes ++ padPage d.bytes)⟩,
        history := s.history ++ [.inRead 2048 (.data d)], answers := { s.answers with read := rs },
        world := { s.world with inPos := s.world.inPos + d.bytes.length } } := by
  obtain ⟨p0, h0, hs0, hw0⟩ := startPage_ok c (s := s) (by simp [hg])
  rw [hg] at hs0 hw0
  change p0.slice 0 4096 = Memory.cells 0 (List.replicate 4096 0xFF#8) at hs0
  obtain ⟨p, h1, hp, hwp⟩ := packDual_ok c d.fits (s := { s with
        pageBuf := p0, busy := some ⟨c, .inRead 2048⟩,
        history := s.history ++ [.inRead 2048 (.data d)], answers := { s.answers with read := rs },
        world := { s.world with inPos := s.world.inPos + d.bytes.length } }) hs0
  refine ⟨_, p, h0, hp, hw0.trans hwp, ?_⟩
  refine proceed_transact (b := ⟨c, .inRead 2048⟩) rfl ?_
  rw [transact_read (u := { s with
        pageBuf := p0, busy := some ⟨c, .inRead 2048⟩ }) hr]
  refine congrArg some ?_
  rw [afterInRead_dual (by exact hg) hd]
  exact h1

/-- A whole page on dual-plane geometry (R143). -/
theorem dual_page (c : Activity) {s : State} {d : InData} {rs ps} (hg : s.geom = .dual)
    (hr : s.answers.read = .data d :: rs) (hd : d.bytes ≠ [])
    (hp : s.answers.page = .ok :: ps) :
    ∃ t0 p, startPage c s = .ok t0 ∧
      p.slice 0 4096 = Memory.cells 0 (padPage d.bytes ++ padPage d.bytes) ∧
      WrittenBelow 4096 s.pageBuf p ∧
      proceed t0 = continued c { s with
        pageIdx := s.pageIdx + 1, pageBuf := p, busy := some ⟨c, .pageWrite (padPage d.bytes ++ padPage d.bytes)⟩,
        history := s.history ++ [.inRead 2048 (.data d), .pageWrite (padPage d.bytes ++ padPage d.bytes) .ok],
        answers := { s.answers with read := rs, page := ps },
        world := { s.world with
          inPos := s.world.inPos + d.bytes.length, devPos := s.world.devPos + 4096,
          data := s.world.data ++ (padPage d.bytes ++ padPage d.bytes) } } := by
  obtain ⟨t0, p, h0, h1, h3, h5⟩ := dual_read c hg hr hd
  refine ⟨t0, p, h0, h1, h3, h5.trans ?_⟩
  refine proceed_continued (b := ⟨c, .pageWrite (padPage d.bytes ++ padPage d.bytes)⟩) rfl ((transact_page (u := { s with
        pageBuf := p, busy := some ⟨c, .pageWrite (padPage d.bytes ++ padPage d.bytes)⟩,
        history := s.history ++ [.inRead 2048 (.data d)], answers := { s.answers with read := rs },
        world := { s.world with inPos := s.world.inPos + d.bytes.length } }) hp).trans ?_)
  have hl : (padPage d.bytes ++ padPage d.bytes).length = 4096 := by rw [List.length_append, padPage_length d.fits]
  refine congrArg some ?_
  rw [afterPageWrite_dual (by exact hg)]
  simp only [advancePage, record, worldAfter, Event.isError, hl, List.append_assoc, List.cons_append, List.nil_append]
  rfl

/-- The read that is answered with zero bytes (R146). -/
theorem eof_page (c : Activity) {s : State} {d : InData} {rs} (hg : s.geom ≠ .none) (hr : s.answers.read = .data d :: rs) (hd : d.bytes = []) :
    ∃ t0 p, startPage c s = .ok t0 ∧ WrittenBelow (writeLength s.geom) s.pageBuf p ∧
      proceed t0 = .next (complete { s with
        ctl := .done, pageBuf := p, history := s.history ++ [.inRead 2048 (.data d)], answers := { s.answers with read := rs }}) := by
  obtain ⟨p0, h0, hs0, hw0⟩ := startPage_ok c (s := s) hg
  refine ⟨_, p0, h0, hw0, ?_⟩
  refine (proceed_transact (b := ⟨c, .inRead 2048⟩) (t := complete { s with
        ctl := .done, pageBuf := p0, history := s.history ++ [.inRead 2048 (.data d)], answers := { s.answers with read := rs }}) rfl ?_).trans ?_
  · rw [transact_read (u := { s with
        pageBuf := p0, busy := some ⟨c, .inRead 2048⟩ }) hr]
    simp only [afterInRead, if_pos hd]
    cases c <;> simp [continueWith, loopRun, record, worldAfter, Event.isError, complete, State.status, hd]
  · exact proceed_idle rfl

/-- A byte of a range that holds a run is the run's byte. -/
theorem readByte_of_run {m : Memory} {n : Nat} {bs : List Byte} (hl : bs.length = n) (h : m.slice 0 n = Memory.cells 0 bs) {i : Nat} (hi : i < n) :
    m.readByte i = bs[i]? := by
  subst hl
  have := readByte_of_slice (a := 0) h hi
  simpa using this

end Sys2Proof.Machine
end

