-- ==== Sys2Proof/Laws/PerInstr.lean ====
section
/-! SUPPORT. Statements for all instructions, made per constructor: the length and the `op` of an instruction's word (30_encoding.md R80, R81). -/

namespace Sys2Proof.Laws.EncodeLength

/-- The word of a well-formed instruction has the length its own `op` selects, so that "a decoder reads `op` first and then knows the length" (R80). -/
def Statement (i : Instr) : Prop := i.wellFormed = true → (encode i).len = formatLen (encode i).op

/-- The `op` of a byte sequence's format-B word is 1, whatever the bytes. -/
theorem op_formatB {w : Nat} (hw : 3 ≤ w) (n : Nat) : (BitVec.ofNat w (8 * n + 1)).extractLsb' 0 3 = 1#3 := by
  apply BitVec.eq_of_toNat_eq
  rw [BitVec.extractLsb'_toNat, BitVec.toNat_ofNat, Nat.shiftRight_zero, Nat.mod_mod_of_dvd _ (Nat.pow_dvd_pow 2 hw)]
  exact (by omega : (8 * n + 1) % 8 = 1)

/-- The `op` of a word with fields above it is its low three bits. -/
theorem op_append {n : Nat} (x : BitVec n) (op : BitVec 3) : (x ++ op).extractLsb' 0 3 = op := by
  ext i hi
  simp [BitVec.getLsbD_append, hi]

theorem par (value mask : Byte) : Statement (.par value mask) := fun _ => by
  have h : (encode (.par value mask)).op = 0 := congrArg BitVec.toNat (op_append (mask ++ value) 0#3)
  rw [h]
  rfl

theorem ecc (block : List Byte) : Statement (.ecc block) := fun _ => by
  have h : (encode (.ecc block)).op = 1 := congrArg BitVec.toNat (op_formatB (w := 4099) (by decide) (packBytes block))
  rw [h]
  rfl

theorem enc (code : Code) : Statement (.enc code) := fun _ => by
  have h : (encode (.enc code)).op = 2 := congrArg BitVec.toNat (op_append code 2#3)
  rw [h]
  rfl

theorem init : Statement .init := fun _ => by decide
theorem page : Statement .page := fun _ => by decide
theorem run : Statement .run := fun _ => by decide
theorem reserved6 : Statement .reserved6 := fun _ => by decide
theorem reserved7 : Statement .reserved7 := fun _ => by decide

end Sys2Proof.Laws.EncodeLength
end

