-- ==== Sys2Proof/Laws/Reference.lean ====
section
/-! SUPPORT. The reference environment: an injected fault changes nothing, and its records are those the block's environment keeps while no request
fails (20_memory.md R66, 10_state.md R32). -/

namespace Sys2Proof.Machine

/-- The four records of R66. -/
def RefState.records (e : RefState) : Nat × Bool × List Byte × List (Nat × List Byte) := (e.rp, e.raw, e.data, e.oob)

/-- "An injected fault answers `ERROR` and changes nothing" (R66). -/
theorem respond_error_changes_nothing {r : Request} {e : RefState} (h : (e.respond r).1.isError = true) :
    (e.respond r).2.records = e.records := by
  cases r <;> simp only [RefState.respond] at h ⊢ <;> (try split at h) <;> simp_all [Event.isError, RefState.records]

/-- The environment as R32 keeps it, against the records of the reference environment. -/
structure Agrees (w : World) (e : RefState) : Prop where
  inPos : w.inPos = e.rp
  mode  : w.mode = .raw ↔ e.raw = true
  data  : w.data = e.data
  oob   : w.oob = e.oob

theorem start_agrees (e : RefEnv) : Agrees World.start e.start := ⟨rfl, by simp [World.start, RefEnv.start], rfl, rfl⟩

/-- Where the reference environment does not fail a request, the two stay in agreement. -/
theorem respond_agrees {r : Request} {w : World} {e : RefState} (n : Nat) (h : (e.respond r).1.isError = false) (ha : Agrees w e) :
    Agrees (worldAfter n (e.respond r).1 w) (e.respond r).2 := by
  obtain ⟨h1, h2, h3, h4⟩ := ha
  cases r with
  | geomQuery => exact ⟨h1, h2, h3, h4⟩
  | rawMode =>
    by_cases hf : e.env.failRaw = true
    · simp [RefState.respond, hf, Event.isError] at h
    · constructor <;> simp [RefState.respond, worldAfter, *]
  | inRead k =>
    by_cases hf : e.env.failRead = some (e.reads + 1)
    · simp [RefState.respond, hf, Event.isError] at h
    · constructor <;> simp [RefState.respond, worldAfter, *]
  | pageWrite payload =>
    by_cases hf : e.env.failPage = some (e.pages + 1)
    · simp [RefState.respond, hf, Event.isError] at h
    · constructor <;> simp [RefState.respond, worldAfter, *]
  | oobWrite payload off =>
    by_cases hf : e.env.failOob = some (e.oobs + 1)
    · simp [RefState.respond, hf, Event.isError] at h
    · constructor <;> simp [RefState.respond, worldAfter, *]

end Sys2Proof.Machine
end

