-- ==== Sys2Proof/Laws/Run.lean ====
section
/-! SUPPORT. The history that explains the state: what one event can do to a view (`next_cases`), induction over a history, and that every
transaction succeeds and keeps the invariant of the run (R58, R65). -/

namespace Sys2Proof.Machine

/-! ## Histories -/

theorem afterEvents_snoc (v : View) (h : List Event) (e : Event) :
    v.afterEvents (h ++ [e]) = (v.afterEvents h).bind (·.next e) := by
  induction h generalizing v with
  | nil => simp [View.afterEvents]; cases v.next e <;> rfl
  | cons x xs ih =>
    simp only [List.cons_append, View.afterEvents]
    cases v.next x with
    | none => rfl
    | some v' => exact ih v'

/-- What holds before the first event and is kept by every event the rules allow holds of every history they allow. -/
theorem history_induct {P : View → List Event → Prop} (h0 : P View.start [])
    (hs : ∀ v v' h e, View.start.afterEvents h = some v → P v h → v.next e = some v' → P v' (h ++ [e])) :
    ∀ h v, View.start.afterEvents h = some v → P v h := by
  intro h
  induction h using List.reverseRecOn with
  | nil => intro v hv; cases hv; exact h0
  | append_singleton l e ih =>
    intro v hv
    rw [afterEvents_snoc] at hv
    cases hl : View.start.afterEvents l with
    | none => simp [hl] at hv
    | some u =>
      rw [hl] at hv
      exact hs u v l e hl (ih u hl) hv

/-- Everything an event can do to a view: the rows of R58's order. -/
theorem next_cases {v v' : View} {e : Event} (h : v.next e = some v') :
    (v.await = .geometry ∧ e = .geomQuery .notFound ∧ v' = v.fail .geomNotFound) ∨
    (v.await = .geometry ∧ e = .geomQuery .single ∧ v' = { v with geom := .single, await := .rawMode }) ∨
    (v.await = .geometry ∧ e = .geomQuery .dual ∧ v' = { v with geom := .dual, ctl := .ready, await := .input }) ∨
    (v.await = .rawMode ∧ e = .rawMode .error ∧ v' = v.fail .modeSelect) ∨
    (v.await = .rawMode ∧ e = .rawMode .ok ∧ v' = { v with ctl := .ready, await := .input }) ∨
    (v.await = .input ∧ e = .inRead 2048 .error ∧ v' = v.fail .readError) ∨
    (∃ d, v.await = .input ∧ e = .inRead 2048 (.data d) ∧ d.bytes = [] ∧ v' = { v with ctl := .done, await := .nothing }) ∨
    (∃ d, v.await = .input ∧ e = .inRead 2048 (.data d) ∧ d.bytes ≠ [] ∧ v' = { v with await := .pageWrite (padPage d.bytes) }) ∨
    (∃ p, v.await = .pageWrite p ∧ e = .pageWrite (pagePayload v.geom p) .error ∧ v' = v.fail .writeErrorPage) ∨
    (∃ p, v.await = .pageWrite p ∧ e = .pageWrite (pagePayload v.geom p) .ok ∧ v.geom = .single ∧ v' = { v with await := .footer p }) ∨
    (∃ p, v.await = .pageWrite p ∧ e = .pageWrite (pagePayload v.geom p) .ok ∧ v.geom ≠ .single ∧
      v' = { v with pageIdx := v.pageIdx + 1, await := .input }) ∨
    (∃ p, v.await = .footer p ∧ e = .oobWrite (footer p) (v.pageIdx * 2048) .error ∧ v' = v.fail .writeErrorOob) ∨
    (∃ p, v.await = .footer p ∧ e = .oobWrite (footer p) (v.pageIdx * 2048) .ok ∧
      v' = { v with pageIdx := v.pageIdx + 1, await := .input }) := by
  unfold View.next at h
  split at h
  all_goals (try split at h)
  all_goals (try split at h)
  all_goals (try split at h)
  all_goals (try cases h)
  all_goals simp_all

/-! ## What each place in the order says of the control elements -/

/-- `GEOM`, `STATE` and `ERR` at each place in the order of requests (R21, R22, R23). -/
def ViewOk (v : View) : Prop :=
  match v.await with
  | .geometry => v.geom = .none ∧ v.ctl = .idle ∧ v.err = .none ∧ v.pageIdx = 0
  | .rawMode => v.geom = .single ∧ v.ctl = .idle ∧ v.err = .none ∧ v.pageIdx = 0
  | .input => v.geom ≠ .none ∧ v.ctl = .ready ∧ v.err = .none
  | .pageWrite _ => v.geom ≠ .none ∧ v.ctl = .ready ∧ v.err = .none
  | .footer _ => v.geom = .single ∧ v.ctl = .ready ∧ v.err = .none
  | .nothing => (v.ctl = .done ∧ v.err = .none ∧ v.geom ≠ .none) ∨ (v.ctl = .failed ∧ v.err ≠ .none)

theorem next_viewOk {v v' : View} {e : Event} (h : v.next e = some v') (hv : ViewOk v) : ViewOk v' := by
  unfold View.next at h
  split at h
  all_goals (try split at h)
  all_goals (try split at h)
  all_goals (try split at h)
  all_goals (try cases h)
  all_goals simp_all [ViewOk, View.fail]

theorem afterEvents_viewOk {h : List Event} : ∀ {v v' : View}, ViewOk v → v.afterEvents h = some v' → ViewOk v' := by
  induction h with
  | nil => intro v v' hv h; cases h; exact hv
  | cons e es ih =>
    intro v v' hv h
    unfold View.afterEvents at h
    split at h
    · exact ih (next_viewOk ‹_› hv) h
    · cases h

theorem start_viewOk : ViewOk View.start := by simp [ViewOk, View.start]

theorem slice_single {s : State} (hg : s.geom = .single)
    (h : s.pageBuf.slice 0 (writeLength s.geom) = Memory.cells 0 (List.replicate (writeLength s.geom) 0xFF#8)) :
    s.pageBuf.slice 0 2048 = Memory.cells 0 (List.replicate 2048 0xFF#8) := by
  have e : writeLength s.geom = 2048 := by rw [hg]; rfl
  rwa [e] at h

theorem slice_dual {s : State} (hg : s.geom = .dual)
    (h : s.pageBuf.slice 0 (writeLength s.geom) = Memory.cells 0 (List.replicate (writeLength s.geom) 0xFF#8)) :
    s.pageBuf.slice 0 4096 = Memory.cells 0 (List.replicate 4096 0xFF#8) := by
  have e : writeLength s.geom = 4096 := by rw [hg]; rfl
  rwa [e] at h

/-- The view `v` is what the history of `s` leads to, and `s` shows it. -/
def Explains (v : View) (s : State) : Prop :=
  View.start.afterEvents s.history = some v ∧ s.geom = v.geom ∧ s.ctl = v.ctl ∧ s.err = v.err ∧ s.pageIdx = v.pageIdx

theorem startPage_inv {c : Activity} {v : View} {s : State} (hc : c ≠ .init) (h : Explains v s) (ha : v.await = .input) :
    ∃ t, startPage c s = .ok t ∧ RunInv t := by
  have hv := afterEvents_viewOk start_viewOk h.1
  simp only [ViewOk, ha] at hv
  obtain ⟨p, hp, hs, -⟩ := startPage_ok c (s := s) (by rw [h.2.1]; exact hv.1)
  refine ⟨_, hp, v, h.1, h.2.1, h.2.2.1, h.2.2.2.1, h.2.2.2.2, ?_⟩
  rw [ha]
  exact ⟨hc, rfl, hs⟩

theorem complete_inv {v : View} {s : State} (h : Explains v s) (ha : v.await = .input ∨ v.await = .nothing ∨ v.await = .geometry) :
    RunInv (complete s) := by
  refine ⟨v, h.1, h.2.1, h.2.2.1, h.2.2.2.1, h.2.2.2.2, ?_⟩
  rcases ha with ha | ha | ha <;> simp [ha, awaits]

theorem continueWith_inv {c : Activity} {v : View} {s : State} (h : Explains v s)
    (ha : v.await = .input ∨ v.await = .nothing) : ∃ t, continueWith c s = .ok t ∧ RunInv t := by
  have hcomp := complete_inv h (by tauto)
  cases c with
  | init => exact ⟨_, rfl, hcomp⟩
  | page => exact ⟨_, rfl, hcomp⟩
  | run =>
    simp only [continueWith, loopRun]
    split
    · rcases ha with ha | ha
      · exact startPage_inv (by simp) h ha
      · exfalso
        have hv := afterEvents_viewOk start_viewOk h.1
        simp only [ViewOk, ha] at hv
        have := h.2.2.1
        rcases hv with hv | hv <;> simp_all
    · exact ⟨_, rfl, hcomp⟩

theorem explains_snoc {v v' : View} {s t : State} {e : Event} (h : Explains v s) (hn : v.next e = some v')
    (h1 : t.history = s.history ++ [e]) (h2 : t.geom = v'.geom) (h3 : t.ctl = v'.ctl) (h4 : t.err = v'.err)
    (h5 : t.pageIdx = v'.pageIdx) : Explains v' t := by
  refine ⟨?_, h2, h3, h4, h5⟩
  rw [h1, afterEvents_snoc, h.1]
  exact hn

theorem raise_inv {v : View} {s t : State} {e : Event} {x : Exc} (h : Explains v s) (hn : v.next e = some (v.fail x.code))
    (h1 : t.history = s.history ++ [e]) (h2 : t.geom = s.geom) (h5 : t.pageIdx = s.pageIdx) : RunInv (raise x t) := by
  have : Explains (v.fail x.code) { t with err := x.code, ctl := .failed } :=
    explains_snoc h hn h1 (h2.trans h.2.1) rfl rfl (h5.trans h.2.2.2.2)
  exact complete_inv this (.inr (.inl rfl))

/-- From a state of the invariant every transaction succeeds and keeps it. -/
theorem transact_inv {b : Busy} {s : State} {r : Except Fault State} (hs : RunInv s) (hb : s.busy = some b)
    (ht : transact b s = some r) : ∃ t, r = .ok t ∧ RunInv t := by
  obtain ⟨v, h0, h1, h2, h3, h4, haw⟩ := hs
  have hE : Explains v s := ⟨h0, h1, h2, h3, h4⟩
  have hv := afterEvents_viewOk start_viewOk h0
  rcases transact_cases ht with ⟨hr, a, rest, ha, rfl⟩ | ⟨hr, a, rest, ha, rfl⟩ | ⟨n, hr, a, rest, ha, rfl⟩ | ⟨p, hr, a, rest, ha, rfl⟩ |
    ⟨p, off, hr, a, rest, ha, rfl⟩
  · cases hA : v.await <;> simp only [awaits, hA, hb, hr, reduceCtorEq, and_false, false_and] at haw
    cases a with
    | notFound => exact ⟨_, rfl, raise_inv (e := .geomQuery .notFound) hE (by simp [View.next, hA]; rfl) rfl rfl rfl⟩
    | single =>
      refine ⟨_, rfl, { v with geom := .single, await := .rawMode }, ?_⟩
      have hx := explains_snoc (t := issue b.activity .rawMode { record (.geomQuery .single) { s with answers := { s.answers with geom := rest } } with
        geom := .single })
        (e := .geomQuery .single) (v' := { v with geom := .single, await := .rawMode }) hE (by simp [View.next, hA]) rfl rfl h2 h3 h4
      exact ⟨hx.1, hx.2.1, hx.2.2.1, hx.2.2.2.1, hx.2.2.2.2, by simp [awaits, haw.1]⟩
    | dual =>
      exact continueWith_inv (explains_snoc (e := .geomQuery .dual) (v' := { v with geom := .dual, ctl := .ready, await := .input }) hE
        (by simp [View.next, hA]) rfl rfl rfl h3 h4) (.inl rfl)
  · cases hA : v.await <;> simp only [awaits, hA, hb, hr, reduceCtorEq, and_false, false_and] at haw
    cases a with
    | error => exact ⟨_, rfl, raise_inv (e := .rawMode .error) hE (by simp [View.next, hA]; rfl) rfl rfl rfl⟩
    | ok =>
      exact continueWith_inv (explains_snoc (e := .rawMode .ok) (v' := { v with ctl := .ready, await := .input }) hE
        (by simp [View.next, hA]) rfl h1 rfl h3 h4) (.inl rfl)
  · cases hA : v.await <;> simp only [awaits, hA, hb, hr, reduceCtorEq, and_false, false_and] at haw
    obtain ⟨hc, hn, hsl⟩ := haw
    injection hn with hn
    subst hn
    simp only [ViewOk, hA] at hv
    cases a with
    | error => exact ⟨_, rfl, raise_inv (e := .inRead 2048 .error) hE (by simp [View.next, hA]; rfl) rfl rfl rfl⟩
    | data d =>
      simp only [afterInRead]
      split
      · exact continueWith_inv (explains_snoc (e := .inRead 2048 (.data d)) (v' := { v with ctl := .done, await := .nothing }) hE
          (by simp [View.next, *]) rfl h1 rfl h3 h4) (.inr rfl)
      · have hx : ∀ t : State, t.history = s.history ++ [.inRead 2048 (.data d)] → t.geom = s.geom → t.ctl = s.ctl → t.err = s.err →
            t.pageIdx = s.pageIdx → Explains { v with await := .pageWrite (padPage d.bytes) } t := fun t e1 e2 e3 e4 e5 =>
          explains_snoc (e := .inRead 2048 (.data d)) hE (by simp [View.next, *]) e1 (e2.trans h1) (e3.trans h2) (e4.trans h3) (e5.trans h4)
        generalize hu : record (.inRead 2048 (.data d)) { s with answers := { s.answers with read := rest } } = u
        have f1 : u.history = s.history ++ [.inRead 2048 (.data d)] := by rw [← hu]; rfl
        have f2 : u.geom = s.geom := by rw [← hu]; rfl
        have f3 : u.ctl = s.ctl := by rw [← hu]; rfl
        have f4 : u.err = s.err := by rw [← hu]; rfl
        have f5 : u.pageIdx = s.pageIdx := by rw [← hu]; rfl
        have f6 : u.pageBuf = s.pageBuf := by rw [← hu]; rfl
        rw [f2]
        cases hg : s.geom with
        | none => exact absurd (h1.symm.trans hg) hv.1
        | single =>
          obtain ⟨p, o, hp, hps, hos, -, -⟩ := packSingle_ok b.activity d.fits (s := u) (by rw [f6]; exact slice_single hg hsl)
          refine ⟨_, hp, { v with await := .pageWrite (padPage d.bytes) }, ?_⟩
          have := hx { u with pageBuf := p, oobBuf := o, busy := some ⟨b.activity, .pageWrite (padPage d.bytes)⟩ } f1 f2 f3 f4 f5
          refine ⟨this.1, this.2.1, this.2.2.1, this.2.2.2.1, this.2.2.2.2, ?_⟩
          refine ⟨hc, ?_, fun _ => hos⟩
          simp only [f2, hg, pagePayload]
        | dual =>
          obtain ⟨p, hp, hps, -⟩ := packDual_ok b.activity d.fits (s := u) (by rw [f6]; exact slice_dual hg hsl)
          refine ⟨_, hp, { v with await := .pageWrite (padPage d.bytes) }, ?_⟩
          have := hx { u with pageBuf := p, busy := some ⟨b.activity, .pageWrite (padPage d.bytes ++ padPage d.bytes)⟩ } f1 f2 f3 f4 f5
          refine ⟨this.1, this.2.1, this.2.2.1, this.2.2.2.1, this.2.2.2.2, ?_⟩
          refine ⟨hc, ?_, fun h => ?_⟩
          · simp only [f2, hg, pagePayload]
          · exact absurd ((f2.trans hg).symm.trans h) (by simp)
  · cases hA : v.await <;> simp only [awaits, hA, hb, hr, reduceCtorEq, and_false, false_and] at haw
    rename_i page
    obtain ⟨hc, hn, hsl⟩ := haw
    injection hn with hn
    subst hn
    simp only [ViewOk, hA] at hv
    cases a with
    | error => exact ⟨_, rfl, raise_inv (e := .pageWrite (pagePayload s.geom page) .error) hE (by simp [View.next, hA, h1]; rfl) rfl rfl rfl⟩
    | ok =>
      simp only [afterPageWrite]
      generalize hu : record (.pageWrite (pagePayload s.geom page) .ok) { s with answers := { s.answers with page := rest } } = u
      have f1 : u.history = s.history ++ [.pageWrite (pagePayload s.geom page) .ok] := by rw [← hu]; rfl
      have f2 : u.geom = s.geom := by rw [← hu]; rfl
      have f3 : u.ctl = s.ctl := by rw [← hu]; rfl
      have f4 : u.err = s.err := by rw [← hu]; rfl
      have f5 : u.pageIdx = s.pageIdx := by rw [← hu]; rfl
      have f6 : u.oobBuf = s.oobBuf := by rw [← hu]; rfl
      rw [f2]
      cases hg : s.geom with
      | none => exact absurd (h1.symm.trans hg) hv.1
      | single =>
        simp only
        rw [requestFooter_ok b.activity (f := footer page) (s := u) (footer_length page) (by rw [f6]; exact hsl hg)]
        refine ⟨_, rfl, { v with await := .footer page }, ?_⟩
        have hx := explains_snoc (t := { u with busy := some ⟨b.activity, .oobWrite (footer page) (u.pageIdx * 2048)⟩ })
          (v' := { v with await := .footer page }) hE
          (by simp [View.next, hA, ← h1, hg]) f1 (f2.trans h1) (f3.trans h2) (f4.trans h3) (f5.trans h4)
        exact ⟨hx.1, hx.2.1, hx.2.2.1, hx.2.2.2.1, hx.2.2.2.2, ⟨hc, by simp [f5]⟩⟩
      | dual =>
        exact continueWith_inv (explains_snoc (v' := { v with pageIdx := v.pageIdx + 1, await := .input }) hE
          (by simp [View.next, hA, ← h1, hg]) f1 (f2.trans h1) (f3.trans h2) (f4.trans h3) (by simp [f5, h4])) (.inl rfl)
  · cases hA : v.await <;> simp only [awaits, hA, hb, hr, reduceCtorEq, and_false, false_and] at haw
    rename_i page
    obtain ⟨hc, hn⟩ := haw
    injection hn with hn hn'
    subst hn hn'
    cases a with
    | error => exact ⟨_, rfl, raise_inv (e := .oobWrite (footer page) (s.pageIdx * 2048) .error) hE (by simp [View.next, hA, h4]; rfl) rfl rfl rfl⟩
    | ok =>
      exact continueWith_inv (explains_snoc (e := .oobWrite (footer page) (s.pageIdx * 2048) .ok)
        (v' := { v with pageIdx := v.pageIdx + 1, await := .input }) hE (by simp [View.next, hA, h4]) rfl h1 h2 h3 (by simp [h4])) (.inl rfl)

/-- From a state of the invariant a command in progress does not fault and keeps it. -/
theorem proceed_inv {s : State} (h : RunInv s) : ∃ t, proceed s = .next t ∧ RunInv t :=
  drive_total (fun _ _ _ hs hb ht => transact_inv hs hb ht) h

end Sys2Proof.Machine
end

