-- ==== Sys2Proof/Tests/Slice0.lean ====
section
/-! SUPPORT. Tests from the worked examples of spec/95_test_vectors.md (rows A, E, B, G, I, F and programs P), the WellFormed smoke test, and for
each statement with hypotheses a concrete state and operands that meet them. -/

namespace Sys2Proof.Tests

open Sys2Proof.Machine

/-! ## States -/

/-- The status in `READY` on a geometry with a page index and the environment's answers; the run's history is left empty. -/
def ready (g : Geom) (n : Nat) (a : Answers) : State :=
  { State.reset with geom := g, ctl := .ready, pageIdx := n, answers := a }

/-- Reset with the environment's answers. -/
def idle (a : Answers) : State := { State.reset with answers := a }

/-- The input bytes 01 02 03 of G3, G9 and P13. -/
def three : InData := ⟨[1#8, 2#8, 3#8], by decide⟩

/-- The answer that ends the stream. -/
def noBytes : InData := ⟨[], by decide⟩

/-- What a test looks at in an outcome. -/
def statusOf (o : Host.Outcome State Fault Refusal) : Option Status :=
  match o with
  | .next t    => some t.status
  | .fault _   => none
  | .refused _ => none

def lastResponse (o : Host.Outcome State Fault Refusal) : Option Response :=
  match o with
  | .next t    => t.responses.getLast?
  | .fault _   => none
  | .refused _ => none

def eventsOf (o : Host.Outcome State Fault Refusal) : Option (List Event) :=
  match o with
  | .next t    => some t.history
  | .fault _   => none
  | .refused _ => none

/-- The bytes at the positions given of the payload of the first page write. -/
def pageWriteBytes (o : Host.Outcome State Fault Refusal) (positions : List Nat) : List (Option Byte) :=
  match (eventsOf o).bind (·.findSome? fun e => match e with | .pageWrite p _ => some p | _ => none) with
  | some p => positions.map (p[·]?)
  | none   => []

/-! ## WellFormed -/

theorem test_wellFormed_refuses_short_block : (Instr.ecc []).wellFormed = false := by decide
theorem test_wellFormed_refuses_511_bytes : (Instr.ecc (List.replicate 511 0#8)).wellFormed = false := by decide +kernel
theorem test_wellFormed_refuses_513_bytes : (Instr.ecc (List.replicate 513 0#8)).wellFormed = false := by decide +kernel

/-! ## Decoding -/

/-- A17: mask 0F, value B7, op 000. -/
theorem test_decode_par : decode ⟨19, 0b0000111110110111000#19⟩ = .ok (.par 0xB7#8 0x0F#8) := by decide
/-- E3: `bit(0, 0)` is the number 9. -/
theorem test_decode_ecc : decode ⟨4099, 9#4099⟩ = .ok (.ecc (1#8 :: List.replicate 511 0#8)) := by decide +kernel
/-- B10. -/
theorem test_decode_enc : decode ⟨35, 0x091A2B3C2#35⟩ = .ok (.enc 0x12345678#32) := by decide
theorem test_decode_init : decode ⟨3, 0b011#3⟩ = .ok .init := by decide
theorem test_decode_page : decode ⟨3, 0b100#3⟩ = .ok .page := by decide
theorem test_decode_run : decode ⟨3, 0b101#3⟩ = .ok .run := by decide
theorem test_decode_reserved6 : decode ⟨3, 0b110#3⟩ = .ok .reserved6 := by decide
theorem test_decode_reserved7 : decode ⟨3, 0b111#3⟩ = .ok .reserved7 := by decide
/-- F7: the length of `PAR`, the op of `ENC`. -/
theorem test_decode_wrong_length : decode ⟨19, 0x0000A#19⟩ = .error (.wrongLength 2 19) := by decide
theorem test_decode_no_opcode : decode ⟨2, 0b11#2⟩ = .error (.noOpcode 2) := by decide
/-- The opcode table's numbering: whole bytes, the bits above the command's length 0. -/
theorem test_decodeTableWord_par : decodeTableWord 24 0x07DB8 = some (.par 0xB7#8 0x0F#8) := by decide
theorem test_decodeTableWord_run : decodeTableWord 8 5 = some .run := by decide
theorem test_decodeTableWord_stray_bit : decodeTableWord 8 0x0B = none := by decide

/-! ## The pure units -/

/-- A17. -/
theorem test_par_one : lastResponse (exec (.par 0xB7#8 0x0F#8) State.reset) = some (.bit true) := by decide
/-- A21. -/
theorem test_par_zero : lastResponse (exec (.par 0xB7#8 0xCC#8) State.reset) = some (.bit false) := by decide
/-- E23: `bit(300, 5)`. -/
theorem test_ecc_single_bit : ecc ((List.replicate 512 0#8).set 300 0x20#8) = 0x0965069A#32 := by decide +kernel
/-- E35: byte 3 = 04, byte 100 = 40, byte 200 = 01. -/
theorem test_ecc_three_bits :
    ecc ((((List.replicate 512 0#8).set 3 0x04#8).set 100 0x40#8).set 200 0x01#8) = 0x057C0A83#32 := by decide +kernel
/-- B8: every nibble distinct. -/
theorem test_enc_nibbles : lastResponse (exec (.enc 0x0ABC0DEF#32) State.reset) = some (.triple 0xADBCEF#24) := by decide
/-- B10: `56 OR 120 = 176`, truncated to 76. -/
theorem test_enc_truncates : lastResponse (exec (.enc 0x12345678#32) State.reset) = some (.triple 0x763478#24) := by decide
/-- F6. -/
theorem test_reserved6 : exec .reserved6 State.reset = .next { State.reset with responses := [.refused] } := rfl
theorem test_reserved7 : exec .reserved7 State.reset = .next { State.reset with responses := [.refused] } := rfl

/-! ## INIT, PAGE, RUN -/

/-- I1. -/
theorem test_init_single : statusOf (exec .init (idle { Answers.empty with geom := [.single], raw := [.ok] })) =
    some ⟨.ready, .none, .single, 0⟩ := by decide
/-- I4. -/
theorem test_init_mode_error : statusOf (exec .init (idle { Answers.empty with geom := [.single], raw := [.error] })) =
    some ⟨.failed, .modeSelect, .single, 0⟩ := by decide
/-- F1. -/
theorem test_page_refused_in_idle : exec .page State.reset = .next { State.reset with responses := [.refused] } := rfl
/-- G9: the page and its padding, twice, in one write of 4096 bytes. -/
theorem test_page_dual : pageWriteBytes (exec .page (ready .dual 0 { Answers.empty with read := [.data three], page := [.ok] }))
      [0, 1, 2, 3, 2047, 2048, 2050, 2051, 4095, 4096] =
    [some 1#8, some 2#8, some 3#8, some 0xFF#8, some 0xFF#8, some 1#8, some 3#8, some 0xFF#8, some 0xFF#8, none] := by decide +kernel
/-- P4 on single-plane geometry: an empty input. -/
theorem test_run_empty_input : eventsOf (exec .run (idle (RefEnv.plain [] .single).answers)) =
    some [.geomQuery .single, .rawMode .ok, .inRead 2048 (.data noBytes)] := by decide +kernel
/-- P7. -/
theorem test_run_not_found : statusOf (exec .run (idle (RefEnv.plain [] .notFound).answers)) =
    some ⟨.failed, .geomNotFound, .none, 0⟩ := by decide

/-- R3: `RUN` with both start-up answers ready makes one port transaction in its first step (the events of P1, rows 1 and 2). -/
theorem test_step_is_one_transaction :
    eventsOf (step { idle { Answers.empty with geom := [.single], raw := [.ok] } with inputs := [.command ⟨3, 0b101#3⟩] }) =
      some [.geomQuery .single] := by decide

/-! ## The reference environment (R66) -/

/-- P6: the second `InRead` answers `ERROR`; here after a first read of 3 bytes. -/
def failSecondRead : RefState :=
  { RefEnv.start { RefEnv.plain [1#8, 2#8, 3#8] .single with failRead := some 2 } with rp := 3, reads := 1, data := [9#8] }
theorem test_reference_fault : ((failSecondRead.respond (.inRead 2048)).1, (failSecondRead.respond (.inRead 2048)).2.rp,
    (failSecondRead.respond (.inRead 2048)).2.data) = (.inRead 2048 .error, 3, [9#8]) := by decide
/-- P9: the first `PageWrite` answers `ERROR`. -/
theorem test_reference_first_page_fails :
    ((RefEnv.start { RefEnv.plain [] .single with failPage := some 1 }).respond (.pageWrite [7#8])).1 = .pageWrite [7#8] .error := by decide
/-- R66: `InRead` answers what is left of the input and advances `rp`. -/
theorem test_reference_reads :
    let r := (RefEnv.plain [1#8, 2#8, 3#8] .dual).start.respond (.inRead 2048)
    (r.1, r.2.rp) = (.inRead 2048 (.data three), 3) := by decide
/-- R66: an answer arrives for the outstanding request of the block. -/
theorem test_reference_answers_block :
    (match (RefSystem.mk (RefEnv.plain [] .single).start { State.reset with busy := some ⟨.run, .geomQuery⟩ }).step with
      | .next y => y.block.answers.geom
      | .fault _ => []
      | .refused _ => []) = [.single] := by decide

/-! ## Witnesses: the hypotheses of the statements can be met -/

/-- A block of the length of a Data Block. -/
def blockA5 : List Byte := List.replicate 512 0xA5#8

theorem blockA5_length : blockA5.length = 512 := List.length_replicate

/-- A host that has presented one command. -/
def presented (s : State) (len : Nat) (bits : BitVec len) : State := { s with inputs := [.command ⟨len, bits⟩] }

/-- Dual-plane geometry after `INIT`, as its history tells it. -/
def readyDual : State := { ready .dual 0 Answers.empty with history := [.geomQuery .dual] }

/-- Dual-plane geometry after one page. -/
def oneDualPage : State :=
  { ready .dual 1 Answers.empty with
    history := [.geomQuery .dual, .inRead 2048 (.data three), .pageWrite (padPage three.bytes ++ padPage three.bytes) .ok] }

/-- A run over an empty input that is over with success. -/
def doneDual : State :=
  { ready .dual 0 Answers.empty with ctl := .done, history := [.geomQuery .dual, .inRead 2048 (.data noBytes)] }

/-- A run that has failed at the mode selection. -/
def failedMode : State :=
  { ready .single 0 Answers.empty with ctl := .failed, err := .modeSelect, history := [.geomQuery .single, .rawMode .error] }

/-- `INIT` in progress, waiting for the answer of `RawMode`. -/
def waitingMode : State :=
  { State.reset with geom := .single, history := [.geomQuery .single], busy := some ⟨.init, .rawMode⟩ }

theorem runInv_reset : RunInv State.reset := ⟨View.start, rfl, rfl, rfl, rfl, rfl, trivial⟩
theorem runInv_readyDual : RunInv readyDual :=
  ⟨{ View.start with geom := .dual, ctl := .ready, await := .input }, rfl, rfl, rfl, rfl, rfl, trivial⟩

theorem view_oneDualPage {d : InData} (hd : d.bytes ≠ []) :
    View.start.afterEvents [.geomQuery .dual, .inRead 2048 (.data d), .pageWrite (padPage d.bytes ++ padPage d.bytes) .ok] =
      some { View.start with geom := .dual, ctl := .ready, pageIdx := 1, await := .input } := by
  simp [View.afterEvents, View.next, View.start, pagePayload, hd]

theorem runInv_oneDualPage : RunInv oneDualPage := ⟨_, view_oneDualPage (d := three) (by decide), rfl, rfl, rfl, rfl, trivial⟩
theorem runInv_doneDual : RunInv doneDual :=
  ⟨{ View.start with geom := .dual, ctl := .done, await := .nothing }, rfl, rfl, rfl, rfl, rfl, trivial⟩
theorem runInv_failedMode : RunInv failedMode :=
  ⟨{ View.start with geom := .single, ctl := .failed, err := .modeSelect, await := .nothing }, rfl, rfl, rfl, rfl, rfl, trivial⟩
theorem runInv_waitingMode : RunInv waitingMode :=
  ⟨{ View.start with geom := .single, await := .rawMode }, rfl, rfl, rfl, rfl, rfl, by simp [awaits, waitingMode]⟩

theorem witness_DecodeEncodeRoundTrip : (Instr.ecc blockA5).wellFormed = true := by decide +kernel
theorem witness_EveryWordHasOneMeaning : decode ⟨3, 0b111#3⟩ = .ok .reserved7 := by decide
theorem witness_StepRunsDecodedCommand :
    (presented readyDual 3 0b100#3).busy = none ∧ (presented readyDual 3 0b100#3).inputs = [.command ⟨3, 0b100#3⟩] ∧
      decode ⟨3, 0b100#3⟩ = .ok .page := by decide
theorem witness_StepRunsFetchWord : decodeTableWord 40 0x091A2B3C2 = some (.enc 0x12345678#32) := by decide
/-- Each row of R195's table, and for each command a state in which it is not refused. -/
theorem witness_RefusedInExactlyTheCasesOfR195 :
    refusalCase ⟨2, 0#2⟩ State.reset = true ∧ refusalCase ⟨3, 6#3⟩ State.reset = true ∧ refusalCase ⟨3, 7#3⟩ State.reset = true ∧
    refusalCase ⟨19, 2#19⟩ State.reset = true ∧ refusalCase ⟨3, 3#3⟩ readyDual = true ∧ refusalCase ⟨3, 5#3⟩ doneDual = true ∧
    refusalCase ⟨3, 4#3⟩ State.reset = true ∧ refusalCase ⟨3, 4#3⟩ { readyDual with maxPages := some 0 } = true ∧
    refusalCase ⟨19, 0#19⟩ failedMode = false ∧ refusalCase ⟨4099, 1#4099⟩ doneDual = false ∧ refusalCase ⟨35, 2#35⟩ readyDual = false ∧
    refusalCase ⟨3, 3#3⟩ State.reset = false ∧ refusalCase ⟨3, 4#3⟩ readyDual = false ∧ refusalCase ⟨3, 5#3⟩ State.reset = false ∧
    readyDual.busy = none := by decide +kernel
theorem witness_EccOfAnotherLengthIsRefused : ([] : List Byte).length ≠ 512 ∧ (0#8 :: blockA5).length ≠ 512 := by decide +kernel
/-- A command that ends, one that waits, and one in progress. -/
theorem witness_OneResponsePerCommand :
    (∃ t, step (presented State.reset 19 0x07DB8#19) = .next t ∧ t.busy = none) ∧
    (∃ t, step (presented State.reset 3 0b011#3) = .next t ∧ t.busy ≠ none) ∧
    (∃ t, step { waitingMode with answers := { Answers.empty with raw := [.ok] } } = .next t ∧ t.busy = none) :=
  ⟨⟨_, rfl, rfl⟩, ⟨_, rfl, by decide⟩, ⟨_, rfl, rfl⟩⟩
theorem witness_ParIsLinear : 0x0F#8 &&& 0xF0#8 = 0#8 ∧ (0x55#8, 0xAA#8) ∈ [(0x0F#8, 0xF0#8), (0x33#8, 0xCC#8), (0x55#8, 0xAA#8)] := by
  decide
theorem witness_MasksSelectBitIndices :
    (2, 0x0F#8, 0xF0#8) ∈ [(0, 0x55#8, 0xAA#8), (1, 0x33#8, 0xCC#8), (2, 0x0F#8, 0xF0#8)] := by decide
/-- For every statement about a Data Block, with the greatest bit, iteration and index of each clause. -/
theorem witness_blocks : blockA5.length = 512 ∧ 11 < 12 ∧ 3 < 4 ∧ 7 < 8 ∧ 2 < 3 ∧ 8 < 9 ∧ 511 < 512 := ⟨blockA5_length, by decide⟩
theorem witness_EccIsXorOfAddresses : blockA5.length = 512 ∧ 4095 < 4096 ∧ (bitBlock 4095).length = 512 := by decide +kernel
theorem witness_EccTransparentBytes :
    (0xA5#8 ∈ [0x00#8, 0xFF#8, 0xA5#8]) ∧ 0xAA#8 ∈ [0x0F#8, 0x33#8, 0x55#8, 0xF0#8, 0xCC#8, 0xAA#8] ∧
      (blockA5.take 511).length + 1 = 512 ∧ (blockA5.set 511 0xA5#8).length = 512 := by decide +kernel
theorem witness_EncOnCalculatorCodes : isCalculatorCode 0x0FFF0FFF#32 ∧ isCalculatorCode 0x0FF80007#32 ∧ 4095 < 4096 ∧ 3 < 4 := by decide
theorem witness_InitOnSinglePlane :
    let s := idle { Answers.empty with geom := [.single], raw := [.ok] }
    s.ctl = .idle ∧ s.answers.geom = .single :: [] ∧ s.answers.raw = .ok :: [] := by decide
theorem witness_InitOnDualPlane :
    let s := idle { Answers.empty with geom := [.dual] }
    s.ctl = .idle ∧ s.answers.geom = .dual :: [] := by decide
theorem witness_GeometryNotFoundIsFatal :
    let s := idle { Answers.empty with geom := [.notFound] }
    s.ctl = .idle ∧ s.answers.geom = .notFound :: [] ∧ Instr.run ∈ [Instr.init, Instr.run] := by decide
theorem witness_ModeSelectErrorIsFatal :
    let s := idle { Answers.empty with geom := [.single], raw := [.error] }
    s.ctl = .idle ∧ s.answers.geom = .single :: [] ∧ s.answers.raw = .error :: [] ∧ Instr.init ∈ [Instr.init, Instr.run] := by decide
theorem witness_PageOnSinglePlane :
    let s := ready .single 5 { Answers.empty with read := [.data three], page := [.ok], oob := [.ok] }
    s.ctl = .ready ∧ s.geom = .single ∧ s.maxPages ≠ some s.pageIdx ∧ s.answers.read = .data three :: [] ∧ three.bytes ≠ [] ∧
      s.answers.page = .ok :: [] ∧ s.answers.oob = .ok :: [] ∧ 2 < three.bytes.length ∧ three.bytes.length ≤ 2047 ∧ 2047 < 2048 := by decide
theorem witness_PageOnDualPlane :
    let s := { ready .dual 5 { Answers.empty with read := [.data three], page := [.ok] } with maxPages := some 6 }
    s.ctl = .ready ∧ s.geom = .dual ∧ s.maxPages ≠ some s.pageIdx ∧ s.answers.read = .data three :: [] ∧ three.bytes ≠ [] ∧
      s.answers.page = .ok :: [] ∧ 2 < three.bytes.length ∧ three.bytes.length ≤ 2047 ∧ 2047 < 2048 := by decide
theorem witness_FooterLayout : (1 < 2 ∨ (14 ≤ 1 ∧ 1 < 64)) ∧ (63 < 2 ∨ (14 ≤ 63 ∧ 63 < 64)) ∧ 3 < 4 := by decide
theorem witness_PageAtEndOfStream :
    let s := ready .single 3 { Answers.empty with read := [.data noBytes] }
    s.ctl = .ready ∧ s.geom ≠ .none ∧ s.maxPages ≠ some s.pageIdx ∧ s.answers.read = .data noBytes :: [] ∧ noBytes.bytes = [] := by decide
theorem witness_ReadErrorIsFatal :
    let s := ready .single 3 { Answers.empty with read := [.error] }
    s.ctl = .ready ∧ s.geom ≠ .none ∧ s.maxPages ≠ some s.pageIdx ∧ s.answers.read = .error :: [] := by decide
theorem witness_PageWriteErrorIsFatal :
    let s := ready .dual 2 { Answers.empty with read := [.data three], page := [.error] }
    s.ctl = .ready ∧ s.geom ≠ .none ∧ s.maxPages ≠ some s.pageIdx ∧ s.answers.read = .data three :: [] ∧ three.bytes ≠ [] ∧
      s.answers.page = .error :: [] ∧ s.geom = .dual := by decide
theorem witness_OobWriteErrorIsFatal :
    let s := ready .single 3 { Answers.empty with read := [.data three], page := [.ok], oob := [.error] }
    s.ctl = .ready ∧ s.geom = .single ∧ s.maxPages ≠ some s.pageIdx ∧ s.answers.read = .data three :: [] ∧ three.bytes ≠ [] ∧
      s.answers.page = .ok :: [] ∧ s.answers.oob = .error :: [] := by decide
theorem witness_RunWritesWholeInput :
    (idle (RefEnv.plain [1#8] .single).answers).ctl = .idle ∧ (idle (RefEnv.plain [1#8] .single).answers).maxPages = none ∧
      (idle (RefEnv.plain [1#8] .single).answers).answers = (RefEnv.plain [1#8] .single).answers ∧
      (idle (RefEnv.plain [1#8] .dual).answers).answers = (RefEnv.plain [1#8] .dual).answers := ⟨rfl, rfl, rfl, rfl⟩
/-- A `RUN` that completes: by failure, and at the bound without a page. -/
theorem witness_RunCompletes :
    (∃ t, exec .run (idle (RefEnv.plain [] .notFound).answers) = .next t ∧ t.busy = none ∧ t.over = true) ∧
    (∃ t, exec .run { idle (RefEnv.plain [] .single).answers with maxPages := some 0 } = .next t ∧ t.busy = none ∧ t.ctl = .ready) ∧
    (idle (RefEnv.plain [] .single).answers).ctl = .idle := ⟨⟨_, rfl, rfl, rfl⟩, ⟨_, rfl, rfl, rfl⟩, rfl⟩
theorem witness_CommandStopsOnlyToWait :
    ∃ t, exec .run State.reset = .next t ∧ t.busy = some ⟨.run, .geomQuery⟩ ∧ State.reset.busy = none := ⟨_, rfl, rfl, rfl⟩
/-- No answer; an answer; and an answer in a state that no run reaches, on which the transaction faults. -/
theorem witness_WaitingBlockDoesNotMove :
    (waitingMode.busy = some ⟨.init, .rawMode⟩ ∧ waitingMode.answered ⟨.init, .rawMode⟩ = false) ∧
    (∃ t, transact ⟨.init, .rawMode⟩ { waitingMode with answers := { Answers.empty with raw := [.ok] } } = some (.ok t)) ∧
    transact ⟨.page, .pageWrite []⟩
        { State.reset with busy := some ⟨.page, .pageWrite []⟩, answers := { Answers.empty with page := [.ok] } } = some (.error .noGeometry) :=
  ⟨⟨rfl, rfl⟩, ⟨_, rfl⟩, rfl⟩
theorem witness_CommandIsItsSteps :
    (presented readyDual 3 0b100#3).busy = none ∧ (presented readyDual 3 0b100#3).inputs = .command ⟨3, 0b100#3⟩ :: [] ∧
      decode ⟨3, 0b100#3⟩ = .ok .page ∧ ∃ t, step (presented State.reset 3 0b101#3) = .next t := ⟨rfl, rfl, by decide, _, rfl⟩
theorem witness_CommandsWaitForTheirFirstAnswer :
    State.reset.ctl = .idle ∧ State.reset.answers.geom = [] ∧ readyDual.ctl = .ready ∧ readyDual.geom ≠ .none ∧
      readyDual.maxPages ≠ some readyDual.pageIdx ∧ readyDual.answers.read = [] ∧ writeLength readyDual.geom ≤ 4096 := by decide
theorem witness_OneAnswerPerRequest :
    ∃ t, exec .init (idle { Answers.empty with geom := [.single], raw := [.ok] }) = .next t ∧ t.history.length = 2 := ⟨_, rfl, rfl⟩
theorem witness_ResetRestoresControlElements :
    let s := { failedMode with inputs := [.reset] }
    s.busy = none ∧ s.inputs = .reset :: [] := by decide
theorem witness_StepKeepsRunInvariant :
    (RunInv (presented State.reset 3 0b011#3) ∧ ∃ t, step (presented State.reset 3 0b011#3) = .next t ∧ t.busy ≠ none) ∧
    (RunInv { waitingMode with answers := { Answers.empty with raw := [.ok] } } ∧
      ∃ t, step { waitingMode with answers := { Answers.empty with raw := [.ok] } } = .next t ∧ t.ctl = .ready) :=
  ⟨⟨runInv_reset, _, rfl, by decide⟩, runInv_waitingMode, _, rfl, rfl⟩
theorem witness_StepKeepsBufferInvariant :
    BufferInv { readyDual with pageBuf := [(0, 1#8), (4095, 2#8)], oobBuf := [(63, 0xFF#8)], inputs := [.reset] } ∧
      ∃ t, step { readyDual with pageBuf := [(0, 1#8), (4095, 2#8)], oobBuf := [(63, 0xFF#8)], inputs := [.reset] } = .next t :=
  ⟨⟨by decide, by decide, by decide, by decide⟩, _, rfl⟩
theorem witness_ControlStateRules :
    (RunInv State.reset ∧ State.reset.busy = none ∧ State.reset.ctl = .idle) ∧ (RunInv oneDualPage ∧ oneDualPage.busy = none ∧ oneDualPage.ctl = .ready) ∧
    (RunInv failedMode ∧ failedMode.busy = none ∧ failedMode.ctl = .failed) ∧
    (RunInv (presented doneDual 3 0b100#3) ∧ (presented doneDual 3 0b100#3).over = true ∧ ∃ t, step (presented doneDual 3 0b100#3) = .next t) :=
  ⟨⟨runInv_reset, rfl, rfl⟩, ⟨runInv_oneDualPage, rfl, rfl⟩, ⟨runInv_failedMode, rfl, rfl⟩, runInv_doneDual, rfl, _, rfl⟩
theorem witness_EveryCommandIsTotal : RunInv readyDual ∧ readyDual.busy = none := ⟨runInv_readyDual, rfl⟩
theorem witness_GeometryIsLatchedOnce :
    (RunInv (presented readyDual 19 0#19) ∧ (∃ t, step (presented readyDual 19 0#19) = .next t) ∧ (presented readyDual 19 0#19).geom ≠ .none ∧
      (presented readyDual 19 0#19).inputs = .command ⟨19, 0#19⟩ :: []) ∧
    (RunInv { waitingMode with answers := { Answers.empty with raw := [.error] } } ∧ waitingMode.geom ≠ .none ∧ waitingMode.busy ≠ none ∧
      ∃ t, step { waitingMode with answers := { Answers.empty with raw := [.error] } } = .next t) :=
  ⟨⟨runInv_readyDual, ⟨_, rfl⟩, by decide, rfl⟩, runInv_waitingMode, by decide, by decide, _, rfl⟩
theorem witness_PageIndexCountsCompletedPages : RunInv oneDualPage ∧ oneDualPage.pageIdx = 1 := ⟨runInv_oneDualPage, rfl⟩
theorem witness_RequestsHaveTheirShape : RunInv oneDualPage ∧ .inRead 2048 (.data three) ∈ oneDualPage.history :=
  ⟨runInv_oneDualPage, by simp [oneDualPage]⟩
theorem witness_GeometryFirstAndNothingAfterFailure :
    (RunInv failedMode ∧ failedMode.history = [] ++ .geomQuery .single :: [.rawMode .error]) ∧
      failedMode.history = [.geomQuery .single] ++ .rawMode .error :: [] ∧ raises (.rawMode .error) = true := ⟨⟨runInv_failedMode, rfl⟩, rfl, rfl⟩
theorem witness_SuccessMeansEveryRequestSucceeded : RunInv doneDual ∧ doneDual.success = true := ⟨runInv_doneDual, rfl⟩
theorem witness_BufferContentIsIrrelevant :
    SameButBuffers readyDual { readyDual with pageBuf := [(0, 1#8)], oobBuf := [(2, 0#8)], freeCount := 3 } ∧ readyDual.busy = none := by
  simp [SameButBuffers, readyDual, ready, State.reset]
theorem witness_StatusPortShowsControlElements : readyDual.busy = none ∧ waitingMode.busy ≠ none := by decide
theorem witness_SuccessStatusDiffersFromFailure : doneDual.status.ctl = .done ∧ failedMode.status.ctl = .failed := ⟨rfl, rfl⟩

end Sys2Proof.Tests
end

/-! The statements of 00_scope.md: a step between commands takes the command presented, and a command is its steps (R3). -/

namespace Sys2Proof.Machine

/-! ## The step that takes a command -/

/-- Between commands a step takes the command presented, if its word decodes (R84). -/
theorem step_command {s : State} {w : CmdWord} {rest : List HostInput} {i : Instr} (hb : s.busy = none)
    (hin : s.inputs = .command w :: rest) (hd : decode w = .ok i) : step s = accept i { s with inputs := rest } := by
  simp only [step, hb, fetch, hin, hd]

/-- Settles O4: the step is `accept`, which is `exec` with the answers held back and one transaction. -/
theorem stepRunsDecodedCommand : Obligations.StepRunsDecodedCommand := by
  intro s w rest i hb hin hd
  rw [step_command hb hin hd]
  rfl

/-! ## A step makes at most one port transaction (R3, R55) -/

/-- A transaction of the command in progress, or none, enters at most one event. -/
theorem drive_one_history {s t : State} (h : drive 1 s = .next t) :
    t.history = s.history ∨ ∃ e, t.history = s.history ++ [e] := by
  rcases drive_one h with ⟨rfl, _⟩ | ⟨b, _, ht⟩
  · exact .inl rfl
  · obtain ⟨_, he, _, _⟩ := transact_quiet ht
    exact .inr he

/-- Taking a command enters at most one event: up to its first request the block computes on its own. -/
theorem accept_history {i : Instr} {s t : State} (hb : s.busy = none) (h : accept i s = .next t) :
    t.history = s.history ∨ ∃ e, t.history = s.history ++ [e] := by
  obtain ⟨x, hq, ha, _⟩ := accept_started i hb
  rw [ha] at h
  cases x with
  | error f => cases h
  | ok u =>
    rw [← (hq u rfl).history]
    exact drive_one_history h

/-- The history grows by at most one event in a step, and reset empties it. -/
theorem step_history {s t : State} (h : step s = .next t) : t.history = s.history ∨ (∃ e, t.history = s.history ++ [e]) ∨
    (s.busy = none ∧ t.history = [] ∧ ∃ rest, s.inputs = .reset :: rest) := by
  rcases step_cases h with ⟨b, _, ht⟩ | ⟨hb, rest, hin, rfl⟩ | ⟨hb, w, rest, _, ⟨i, _, ha⟩ | ⟨e, _, rfl⟩⟩
  · obtain ⟨_, he, _, _⟩ := transact_quiet ht
    exact .inr (.inl he)
  · exact .inr (.inr ⟨hb, rfl, rest, hin⟩)
  · exact (accept_history (s := { s with inputs := rest }) hb ha).imp_right .inl
  · exact .inl rfl

/-! ## The steps of a command -/

/-- Further steps of a command are the transactions of `drive`, one for one. -/
theorem goOn_eq_drive (n : Nat) (s : State) : goOn n s = drive n s := by
  induction n generalizing s with
  | zero => rfl
  | succ n ih =>
    cases hb : s.busy with
    | none => simp [goOn, State.canGoOn, hb, drive]
    | some b =>
      cases ht : transact b s with
      | none => simp [goOn, State.canGoOn, State.answered, hb, ht, drive]
      | some r => cases r <;> simp [goOn, State.canGoOn, State.answered, hb, ht, drive, step_busy hb, ih]

/-- Where the step that takes a command is one unit of fuel from `u`, the command's steps are fuel from `u`. -/
theorem runCommand_of_step {s u : State} (h : step s = drive 1 u) (n : Nat) : runCommand n s = drive (n + 1) u := by
  unfold runCommand
  rw [h]
  cases hb : u.busy with
  | none => simp only [drive_idle hb, goOn_eq_drive]
  | some b =>
    cases ht : transact b u with
    | none => simp only [drive_unanswered hb ht, goOn_eq_drive]
    | some r => cases r <;> simp only [drive, hb, ht, goOn_eq_drive]

/-- The steps of a command, at most one for each answer ready after the step that takes it, come to what `exec` answers. -/
theorem runCommand_eq_exec {s : State} {w : CmdWord} {rest : List HostInput} {i : Instr} (hb : s.busy = none)
    (hin : s.inputs = .command w :: rest) (hd : decode w = .ok i) :
    runCommand s.answers.count s = exec i { s with inputs := rest } := by
  obtain ⟨x, hq, ha, he⟩ := accept_started i (s := { s with inputs := rest }) hb
  have hstep := (step_command hb hin hd).trans ha
  rw [he]
  cases x with
  | error f => simp only [runCommand, hstep]
  | ok u =>
    have hu : u.answers.count = s.answers.count := congrArg Answers.count (hq u rfl).answers
    calc runCommand s.answers.count s
        = drive (s.answers.count + 1) u := runCommand_of_step hstep _
      _ = proceed u := drive_fuel (by omega) (by omega)

/-- Settles O60: `step_history` bounds a step, and the steps of a command are the transactions `exec` runs. -/
theorem commandIsItsSteps : Obligations.CommandIsItsSteps :=
  ⟨fun _ _ h => step_history h, fun _ _ _ _ hb hin hd => runCommand_eq_exec hb hin hd⟩

end Sys2Proof.Machine

/-! The statements of 10_state.md: the control elements, the latched geometry, the page index, reset, what the status shows
(R20 to R36). -/

namespace Sys2Proof.Machine

/-! ## What a command can be -/

/-- A command once the block's own computation before its first request has come out: it faults there, or runs as far as it is answered. -/
def started (x : Except Fault State) : Host.Outcome State Fault Refusal :=
  match x with
  | .error f => .fault f
  | .ok t    => proceed t

theorem exec_page_started {s : State} (h : s.admitsPage = true) : exec .page s = started (startPage .page s) := if_pos h

theorem exec_page_not_admitted {s : State} (h : s.admitsPage ≠ true) : exec .page s = .next (s.respond .refused) := if_neg h

/-- Every command but `PAGE` either only responds, with what its operands alone give, or is `INIT` or `RUN`, which open a run in `IDLE` and are refused
elsewhere. -/
theorem exec_kinds (i : Instr) :
    (∃ r, ∀ s, exec i s = .next (s.respond r)) ∨
    (∃ c, c ≠ .page ∧ ∀ s, (s.ctl = .idle → exec i s = proceed (issue c .geomQuery s)) ∧
      (s.ctl ≠ .idle → exec i s = .next (s.respond .refused))) ∨
    i = .page := by
  cases i with
  | par value mask => exact .inl ⟨_, fun _ => rfl⟩
  | ecc block =>
    by_cases h : block.length = 512
    · exact .inl ⟨_, fun _ => if_pos h⟩
    · exact .inl ⟨_, fun _ => if_neg h⟩
  | enc code => exact .inl ⟨_, fun _ => rfl⟩
  | init => exact .inr (.inl ⟨.init, by decide, fun s => ⟨exec_init, fun h => if_neg (by simpa [State.admitsStart] using h)⟩⟩)
  | page => exact .inr (.inr rfl)
  | run => exact .inr (.inl ⟨.run, by decide, fun s => ⟨exec_run, fun h => if_neg (by simpa [State.admitsStart] using h)⟩⟩)
  | reserved6 => exact .inl ⟨_, fun _ => rfl⟩
  | reserved7 => exact .inl ⟨_, fun _ => rfl⟩

/-! ## The invariant between commands -/

/-- The invariant of the run does not look at the host's inputs, the responses, the answers ready, the environment or the parameter. -/
theorem runInv_congr {s t : State} (hg : t.geom = s.geom) (hc : t.ctl = s.ctl) (he : t.err = s.err) (hn : t.pageIdx = s.pageIdx)
    (hp : t.pageBuf = s.pageBuf) (ho : t.oobBuf = s.oobBuf) (hb : t.busy = s.busy) (hh : t.history = s.history) (h : RunInv s) :
    RunInv t := by
  simpa only [RunInv, awaits, hg, hc, he, hn, hp, ho, hb, hh] using h

theorem runInv_respond {s : State} (h : RunInv s) (r : Response) : RunInv (s.respond r) :=
  runInv_congr rfl rfl rfl rfl rfl rfl rfl rfl h

theorem runInv_withAnswers {s : State} (h : RunInv s) (a : Answers) : RunInv (s.withAnswers a) :=
  runInv_congr rfl rfl rfl rfl rfl rfl rfl rfl h

/-- After reset no event has taken place and the control elements are those of a run's start (R33, R210). -/
theorem runInv_applyReset (s : State) : RunInv (applyReset s) := ⟨View.start, rfl, rfl, rfl, rfl, rfl, trivial⟩

/-- Between commands the run is at its start, before a page, or over, and the control elements stand accordingly (R22). -/
theorem between_cases {s : State} (h : RunInv s) (hb : s.busy = none) : ∃ v, Explains v s ∧
    ((v.await = .geometry ∧ s.ctl = .idle ∧ s.geom = .none ∧ s.err = .none ∧ s.pageIdx = 0) ∨
     (v.await = .input ∧ s.ctl = .ready ∧ s.geom ≠ .none ∧ s.err = .none) ∨
     (v.await = .nothing ∧ s.ctl = .done ∧ s.geom ≠ .none ∧ s.err = .none) ∨
     (v.await = .nothing ∧ s.ctl = .failed ∧ s.err ≠ .none)) := by
  obtain ⟨v, hh, hg, hc, he, hn, ha⟩ := h
  have hv := afterEvents_viewOk start_viewOk hh
  refine ⟨v, ⟨hh, hg, hc, he, hn⟩, ?_⟩
  rw [hg, hc, he, hn]
  cases hA : v.await <;> simp only [awaits, hA, hb] at ha <;> simp only [ViewOk, hA] at hv
  case geometry => simp [hv]
  case input => simp [hv]
  case nothing => rcases hv with ⟨hc, he, hg⟩ | ⟨hc, he⟩ <;> simp [*]

/-- In `IDLE` the request that opens a run is the one the history calls for (R58 (b)). -/
theorem runInv_open {s : State} (h : RunInv s) (hb : s.busy = none) (hi : s.ctl = .idle) {c : Activity} (hc : c ≠ .page) :
    RunInv (issue c .geomQuery s) := by
  obtain ⟨v, ⟨hh, hg, hk, he, hn⟩, ⟨ha, -⟩ | ⟨-, hr, -⟩ | ⟨-, hr, -⟩ | ⟨-, hr, -⟩⟩ := between_cases h hb
  · exact ⟨v, hh, hg, hk, he, hn, by simp [ha, awaits, hc]⟩
  all_goals simp [hi] at hr

/-- In `READY` a page starts, and the read it requests is the one the history calls for (R58 (d)). -/
theorem startPage_between {s : State} (h : RunInv s) (hb : s.busy = none) (hr : s.ctl = .ready) :
    ∃ t, startPage .page s = .ok t ∧ RunInv t := by
  obtain ⟨v, hE, ⟨-, hc, -⟩ | ⟨ha, -⟩ | ⟨-, hc, -⟩ | ⟨-, hc, -⟩⟩ := between_cases h hb
  case inr.inl => exact startPage_inv (by decide) hE ha
  all_goals simp [hr] at hc

/-- From a state of the invariant a command taken between commands does not fault and keeps the invariant (R58, R197). -/
theorem exec_inv (i : Instr) {s : State} (h : RunInv s) (hb : s.busy = none) : ∃ t, exec i s = .next t ∧ RunInv t := by
  rcases exec_kinds i with ⟨r, hi⟩ | ⟨c, hc, hi⟩ | rfl
  · exact ⟨_, hi s, runInv_respond h r⟩
  · by_cases hk : s.ctl = .idle
    · rw [(hi s).1 hk]
      exact proceed_inv (runInv_open h hb hk hc)
    · exact ⟨_, (hi s).2 hk, runInv_respond h _⟩
  · by_cases hk : s.ctl = .ready ∧ s.maxPages ≠ some s.pageIdx
    · obtain ⟨t, ht, hinv⟩ := startPage_between h hb hk.1
      rw [exec_page hk.1 hk.2 ht]
      exact proceed_inv hinv
    · exact ⟨_, exec_page_refused (by simpa using hk), runInv_respond h _⟩

/-- Taking a command keeps the invariant: its start does, with the answers held back, and so does the transaction that may follow. -/
theorem accept_inv {i : Instr} {s t : State} (h : RunInv s) (hb : s.busy = none) (ht : accept i s = .next t) : RunInv t := by
  obtain ⟨u, hu, hinv⟩ := exec_inv i (runInv_withAnswers h Answers.empty) hb
  unfold accept at ht
  rw [hu] at ht
  refine drive_induct (fun s b t hs hb ht => ?_) (runInv_withAnswers hinv s.answers) ht
  obtain ⟨_, ⟨⟩, hinv⟩ := transact_inv hs hb ht
  exact hinv

/-! ## STATE between commands (R22) -/

/-- When the run is over a command only responds (R189, R195, R200). -/
theorem exec_over (i : Instr) {s : State} (h : s.over = true) : ∃ r, exec i s = .next (s.respond r) := by
  have hk : s.ctl ≠ .idle ∧ s.ctl ≠ .ready := by
    constructor <;> intro hc <;> simp [State.over, hc] at h
  rcases exec_kinds i with ⟨r, hi⟩ | ⟨_, -, hi⟩ | rfl
  · exact ⟨r, hi s⟩
  · exact ⟨_, (hi s).2 hk.1⟩
  · exact ⟨_, exec_page_refused fun hr => absurd hr hk.2⟩

/-- A command taken when the run is over completes in that step, with nothing but its response (R200). -/
theorem accept_over (i : Instr) {s : State} (hb : s.busy = none) (h : s.over = true) : ∃ r, accept i s = .next (s.respond r) := by
  obtain ⟨r, hr⟩ := exec_over i (s := s.withAnswers Answers.empty) h
  refine ⟨r, ?_⟩
  unfold accept
  rw [hr]
  exact drive_idle (s := s.respond r) hb 1

/-- A command presented when the run is over changes nothing but the queue it comes from and the response it gets (R189, R200). -/
theorem step_over {s t : State} {w : CmdWord} {rest : List HostInput} (hb : s.busy = none) (h : s.over = true)
    (hin : s.inputs = .command w :: rest) (ht : step s = .next t) :
    ∃ r, t = { s with inputs := rest, responses := s.responses ++ [r] } := by
  rcases step_cases ht with ⟨b, hb', _⟩ | ⟨_, _, hin', _⟩ | ⟨_, _, _, hin', hdec⟩
  · simp [hb] at hb'
  · simp [hin] at hin'
  · obtain ⟨⟨⟩, ⟨⟩⟩ := List.cons.inj (hin.symm.trans hin')
    rcases hdec with ⟨i, _, ha⟩ | ⟨_, _, rfl⟩
    · obtain ⟨r, hr⟩ := accept_over i (s := { s with inputs := rest }) hb h
      rw [hr] at ha
      cases ha
      exact ⟨r, rfl⟩
    · exact ⟨.refused, rfl⟩

/-- Settles O50: `between_cases` gives the invariants of `STATE`, `step_over` that a run that is over does not move. -/
theorem controlStateRules : Obligations.ControlStateRules := by
  intro s h hb
  obtain ⟨v, -, hv⟩ := between_cases h hb
  refine ⟨?_, ?_, ?_, fun ho w rest t hin ht => step_over hb ho hin ht⟩
  all_goals rcases hv with ⟨-, hc, hv⟩ | ⟨-, hc, hv⟩ | ⟨-, hc, hv⟩ | ⟨-, hc, hv⟩ <;> simp [hc, hv]

/-! ## GEOM is latched once (R21) -/

/-- Only the answer of `GeomQuery` writes `GEOM` (R140). -/
theorem next_geom {v v' : View} {e : Event} (ha : v.await ≠ .geometry) (h : v.next e = some v') : v'.geom = v.geom := by
  rcases next_cases h with ⟨hA, -⟩ | ⟨hA, -⟩ | ⟨hA, -⟩ | ⟨-, -, rfl⟩ | ⟨-, -, rfl⟩ | ⟨-, -, rfl⟩ | ⟨_, -, -, -, rfl⟩ | ⟨_, -, -, -, rfl⟩ |
    ⟨_, -, -, rfl⟩ | ⟨_, -, -, -, rfl⟩ | ⟨_, -, -, -, rfl⟩ | ⟨_, -, -, rfl⟩ | ⟨_, -, -, rfl⟩
  iterate 3 exact absurd hA ha
  all_goals rfl

/-- Once there is a geometry `GeomQuery` is no more awaited. -/
theorem await_ne_geometry {v : View} (hv : ViewOk v) (hg : v.geom ≠ .none) : v.await ≠ .geometry := fun ha => by
  simp only [ViewOk, ha] at hv
  exact hg hv.1

/-- In the invariant the history alone tells `GEOM`: at most one event more leaves a geometry as it is. -/
theorem geom_of_history {s t : State} (hs : RunInv s) (ht : RunInv t) (hg : s.geom ≠ .none)
    (hh : t.history = s.history ∨ ∃ e, t.history = s.history ++ [e]) : t.geom = s.geom := by
  obtain ⟨v, hv, hvg, -⟩ := hs
  obtain ⟨v', hv', hvg', -⟩ := ht
  rw [hvg, hvg']
  rcases hh with hh | ⟨e, hh⟩
  · rw [hh, hv] at hv'
    cases hv'
    rfl
  · rw [hh, afterEvents_snoc, hv] at hv'
    exact next_geom (await_ne_geometry (afterEvents_viewOk start_viewOk hv) (hvg ▸ hg)) hv'

/-- Settles O52: the step of a command keeps the invariant and enters at most one event. -/
theorem geometryIsLatchedOnce : Obligations.GeometryIsLatchedOnce := by
  intro s t h ht hg hcmd
  rcases step_cases ht with ⟨b, hb, hr⟩ | ⟨hb, rest, hin, -⟩ | ⟨hb, w, rest, hin, ⟨i, -, ha⟩ | ⟨-, -, rfl⟩⟩
  · obtain ⟨_, ⟨⟩, hinv⟩ := transact_inv h hb hr
    obtain ⟨-, he, -⟩ := transact_quiet hr
    exact geom_of_history h hinv hg (.inr he)
  · simp [hb, hin] at hcmd
  · have h' : RunInv { s with inputs := rest } := runInv_congr rfl rfl rfl rfl rfl rfl rfl rfl h
    exact geom_of_history h' (accept_inv h' hb ha) hg (accept_history (s := { s with inputs := rest }) hb ha)
  · rfl

/-! ## PAGEIDX counts the pages written (R24) -/

/-- Only the run's start awaits `GeomQuery`: no event leads back to it (R140). -/
theorem next_await_ne_geometry {v v' : View} {e : Event} (h : v.next e = some v') : v'.await ≠ .geometry := by
  rcases next_cases h with ⟨-, -, rfl⟩ | ⟨-, -, rfl⟩ | ⟨-, -, rfl⟩ | ⟨-, -, rfl⟩ | ⟨-, -, rfl⟩ | ⟨-, -, rfl⟩ | ⟨_, -, -, -, rfl⟩ |
    ⟨_, -, -, -, rfl⟩ | ⟨_, -, -, rfl⟩ | ⟨_, -, -, -, rfl⟩ | ⟨_, -, -, -, rfl⟩ | ⟨_, -, -, rfl⟩ | ⟨_, -, -, rfl⟩ <;> simp [View.fail]

theorem history_nil_of_geometry {h : List Event} {v : View} (hv : View.start.afterEvents h = some v) (ha : v.await = .geometry) : h = [] :=
  history_induct (P := fun v h => v.await = .geometry → h = []) (fun _ => rfl)
    (fun _ _ _ _ _ _ hn ha => absurd ha (next_await_ne_geometry hn)) h v hv ha

/-- Where a footer is awaited the geometry is single-plane (R149). -/
theorem geom_footer {v : View} {p : List Byte} (hv : ViewOk v) (ha : v.await = .footer p) : v.geom = .single := by
  simp only [ViewOk, ha] at hv
  exact hv.1

/-- Where a page write is awaited there is a geometry. -/
theorem geom_pageWrite {v : View} {p : List Byte} (hv : ViewOk v) (ha : v.await = .pageWrite p) (hs : v.geom ≠ .single) :
    v.geom = .dual := by
  simp only [ViewOk, ha] at hv
  cases hg : v.geom with
  | none => exact absurd hg hv.1
  | single => exact absurd hg hs
  | dual => rfl

/-- An event advances `PAGEIDX` by one when it completes a page, else leaves it (R24, R142 and R143 step 5). -/
theorem next_pageIdx {v v' : View} {e : Event} (hv : ViewOk v) (h : v.next e = some v') :
    v'.pageIdx = v.pageIdx + if completesPage v'.geom e then 1 else 0 := by
  rcases next_cases h with ⟨-, rfl, rfl⟩ | ⟨-, rfl, rfl⟩ | ⟨-, rfl, rfl⟩ | ⟨-, rfl, rfl⟩ | ⟨-, rfl, rfl⟩ | ⟨-, rfl, rfl⟩ |
    ⟨_, -, rfl, -, rfl⟩ | ⟨_, -, rfl, -, rfl⟩ | ⟨_, -, rfl, rfl⟩ | ⟨_, -, rfl, hg, rfl⟩ | ⟨_, ha, rfl, hg, rfl⟩ | ⟨_, -, rfl, rfl⟩ |
    ⟨_, ha, rfl, rfl⟩
  iterate 9 simp [completesPage, View.fail]
  · simp [completesPage, hg]
  · simp [completesPage, geom_pageWrite hv ha hg]
  · simp [completesPage, View.fail]
  · simp [completesPage, geom_footer hv ha]

/-- Along a history `PAGEIDX` is the number of its events that complete a page. -/
theorem afterEvents_pageIdx : ∀ (h : List Event) (v : View), View.start.afterEvents h = some v →
    v.pageIdx = (h.filter (completesPage v.geom)).length := by
  refine history_induct rfl fun v v' h e hv ih hn => ?_
  have hfilter : h.filter (completesPage v'.geom) = h.filter (completesPage v.geom) := by
    by_cases ha : v.await = .geometry
    · rw [history_nil_of_geometry hv ha]; rfl
    · rw [next_geom ha hn]
  rw [next_pageIdx (afterEvents_viewOk start_viewOk hv) hn, ih, List.filter_append, List.length_append, hfilter]
  cases hc : completesPage v'.geom e <;> simp [hc]

/-- Settles O53: the page index is the view's, which counts the completing events of the history. -/
theorem pageIndexCountsCompletedPages : Obligations.PageIndexCountsCompletedPages := by
  rintro s ⟨v, hv, hg, -, -, hn, -⟩
  rw [hn, hg]
  exact afterEvents_pageIdx s.history v hv

/-! ## Reset (R33, R34, R210) -/

/-- Reset leaves buffers without a byte, so none is out of place (R34, R50). -/
theorem bufferInv_applyReset (s : State) : BufferInv (applyReset s) := by
  simp [BufferInv]

/-- Settles O46: the state after reset is what reset makes of it, and that satisfies both invariants. -/
theorem resetIsLegalStart : Obligations.ResetIsLegalStart :=
  ⟨rfl, rfl, rfl, rfl, fun _ => ⟨rfl, rfl⟩, rfl, runInv_applyReset State.reset, bufferInv_applyReset State.reset⟩

/-! ## The status port (R36) -/

theorem statusPort_between {s : State} (hb : s.busy = none) : s.statusPort = some s.status := by
  simp [State.statusPort, hb]

theorem statusPort_inside {s : State} (hb : s.busy ≠ none) : s.statusPort = none := by
  obtain ⟨b, hb⟩ := Option.ne_none_iff_exists'.mp hb
  simp [State.statusPort, hb]

/-- Settles O58: the port is open between commands only, and `complete` responds with the status it leaves. -/
theorem statusPortShowsControlElements : Obligations.StatusPortShowsControlElements := fun s =>
  ⟨statusPort_between, statusPort_inside, s.status, statusPort_between (complete_busy s), complete_responses s⟩

/-! ## The host-visible status (R36, U2) -/

/-- A failure never has the host-visible status of success. -/
theorem distinctFailure_ne_success (n : Nat) : Config.distinctFailure n ≠ Config.successStatus := by
  unfold Config.distinctFailure
  split
  · omega
  · assumption

theorem exitStatus_done {st : Status} (h : st.ctl = .done) : st.exitStatus = some Config.successStatus := by
  simp [Status.exitStatus, h]

theorem exitStatus_failed {st : Status} (h : st.ctl = .failed) : st.exitStatus = some (Config.distinctFailure st.err.number) := by
  simp [Status.exitStatus, h]

/-- Settles O59: a success and a failure have the statuses of `exitStatus_done` and `exitStatus_failed`, which `distinctFailure_ne_success` tells apart. -/
theorem successStatusDiffersFromFailure : Obligations.SuccessStatusDiffersFromFailure := by
  intro st st' hd hf
  rw [exitStatus_done hd, exitStatus_failed hf]
  refine ⟨fun h => ?_, by simp, by simp, rfl, rfl⟩
  exact distinctFailure_ne_success _ (Option.some.inj h).symm

end Sys2Proof.Machine

/-! The statement of 10_state.md about the buffers: what a command does and answers does not depend on their content before it (R34, R65). -/

namespace Sys2Proof.Machine

/-! ## Two states that differ in what a command does not act on -/

/-- Two states that agree on all but the buffers, the environment's own state and the counter: one is the other with those replaced. -/
theorem SameButBuffers.exists_eq {s s' : State} (h : SameButBuffers s s') :
    ∃ p o w n, s' = { s with pageBuf := p, oobBuf := o, world := w, freeCount := n } := by
  obtain ⟨h1, h2, h3, h4, h5, h6, h7, h8, h9, h10⟩ := h
  refine ⟨s'.pageBuf, s'.oobBuf, s'.world, s'.freeCount, ?_⟩
  rw [h1, h2, h3, h4, h5, h6, h7, h8, h9, h10]

/-- An operation that does not look at the buffers, the environment's own state or the counter for what it makes of the other fields keeps two states the
same but for those. Where it is one update of the state, the hypothesis holds field by field, by evaluation. -/
theorem SameButBuffers.map {s s' : State} (h : SameButBuffers s s') (f : State → State)
    (hf : ∀ p o w n, SameButBuffers (f s) (f { s with pageBuf := p, oobBuf := o, world := w, freeCount := n }) := by
      exact fun _ _ _ _ => ⟨rfl, rfl, rfl, rfl, rfl, rfl, rfl, rfl, rfl, rfl⟩) :
    SameButBuffers (f s) (f s') := by
  obtain ⟨p, o, w, n, rfl⟩ := h.exists_eq
  exact hf p o w n

/-- The buffers of each state may be replaced by any content. -/
theorem SameButBuffers.refill {s s' : State} (h : SameButBuffers s s') (p o p' o' : Memory) :
    SameButBuffers { s with pageBuf := p, oobBuf := o } { s' with pageBuf := p', oobBuf := o' } := h

theorem SameButBuffers.geom {s s' : State} (h : SameButBuffers s s') : s'.geom = s.geom := h.1.symm

theorem SameButBuffers.ctl {s s' : State} (h : SameButBuffers s s') : s'.ctl = s.ctl := h.2.1.symm

theorem SameButBuffers.busy {s s' : State} (h : SameButBuffers s s') : s'.busy = s.busy := by
  obtain ⟨_, _, _, _, rfl⟩ := h.exists_eq
  rfl

theorem SameButBuffers.answers {s s' : State} (h : SameButBuffers s s') : s'.answers = s.answers := by
  obtain ⟨_, _, _, _, rfl⟩ := h.exists_eq
  rfl

theorem SameButBuffers.admitsPage {s s' : State} (h : SameButBuffers s s') : s'.admitsPage = s.admitsPage := by
  obtain ⟨_, _, _, _, rfl⟩ := h.exists_eq
  rfl

/-- What the rest of a command reads of the buffers stands in them when a request is out: before an input read the range cleared for the page, before
a page write on single-plane geometry the footer of the page that is written (R142, R143). -/
def Prepared (s : State) : Prop :=
  match s.busy with
  | some ⟨_, .inRead _⟩ => s.pageBuf.slice 0 (writeLength s.geom) = Memory.cells 0 (List.replicate (writeLength s.geom) 0xFF#8)
  | some ⟨_, .pageWrite page⟩ => s.geom = .single → s.oobBuf.slice 0 64 = Memory.cells 0 (footer page)
  | _ => True

/-- Two states from which a command in progress goes on in the same way. -/
structure Alike (s s' : State) : Prop where
  same      : SameButBuffers s s'
  prepared  : Prepared s
  prepared' : Prepared s'

/-- Between commands nothing in the buffers is needed. -/
theorem Alike.of_idle {s s' : State} (h : SameButBuffers s s') (hb : s.busy = none) : Alike s s' := by
  have hb' : s'.busy = none := h.busy.trans hb
  exact ⟨h, by simp [Prepared, hb], by simp [Prepared, hb']⟩

/-- Two computations come to states that are alike, or to the same fault. -/
def SameResult (x x' : Except Fault State) : Prop :=
  (∃ t t', x = .ok t ∧ x' = .ok t' ∧ Alike t t') ∨ ∃ f, x = .error f ∧ x' = .error f

/-- Two commands come to states that are the same but for the buffers, or to the same fault. -/
def SameOutcome (y y' : Host.Outcome State Fault Refusal) : Prop :=
  (∃ t t', y = .next t ∧ y' = .next t' ∧ SameButBuffers t t') ∨ ∃ f, y = .fault f ∧ y' = .fault f

/-! ## Each part of a command on two such states -/

section Parts

variable {s s' : State} (c : Activity) (h : SameButBuffers s s')
include h

theorem sameResult_complete : SameResult (.ok (complete s)) (.ok (complete s')) :=
  .inl ⟨_, _, rfl, rfl, .of_idle (h.map complete) rfl⟩

theorem sameResult_raise (x : Exc) : SameResult (.ok (raise x s)) (.ok (raise x s')) :=
  .inl ⟨_, _, rfl, rfl, .of_idle (h.map (raise x)) rfl⟩

theorem sameResult_startPage : SameResult (startPage c s) (startPage c s') := by
  have hg := h.geom
  by_cases hn : s.geom = .none
  · exact .inr ⟨.noGeometry, by simp [startPage, hn], by simp [startPage, hg, hn]⟩
  · obtain ⟨p, hp, hs, -⟩ := startPage_ok c hn
    obtain ⟨p', hp', hs', -⟩ := startPage_ok c (hg ▸ hn)
    have hi := (h.refill p s.oobBuf p' s'.oobBuf).map (issue c (.inRead 2048))
    exact .inl ⟨_, _, hp, hp', hi, hs, hs'⟩

theorem sameResult_continueWith : SameResult (continueWith c s) (continueWith c s') := by
  cases c with
  | init => exact sameResult_complete h
  | page => exact sameResult_complete h
  | run =>
    have loop : ∀ u : State, continueWith .run u = if u.admitsPage then startPage .run u else .ok (complete u) := fun _ => rfl
    rw [loop, loop, h.admitsPage]
    split
    · exact sameResult_startPage .run h
    · exact sameResult_complete h

theorem sameResult_afterGeomQuery (g : GeomAnswer) : SameResult (afterGeomQuery c g s) (afterGeomQuery c g s') := by
  cases g with
  | notFound => exact sameResult_raise h _
  | single => exact .inl ⟨_, _, rfl, rfl, h.map fun u => issue c .rawMode { u with geom := .single }, trivial, trivial⟩
  | dual => exact sameResult_continueWith c (h.map fun u => { u with geom := .dual, ctl := .ready })

theorem sameResult_afterRawMode (a : Ack) : SameResult (afterRawMode c a s) (afterRawMode c a s') := by
  cases a with
  | error => exact sameResult_raise h _
  | ok => exact sameResult_continueWith c (h.map fun u => { u with ctl := .ready })

theorem sameResult_advancePage : SameResult (advancePage c s) (advancePage c s') :=
  sameResult_continueWith c (h.map fun u => { u with pageIdx := u.pageIdx + 1 })

theorem sameResult_afterOobWrite (a : Ack) : SameResult (afterOobWrite c a s) (afterOobWrite c a s') := by
  cases a with
  | error => exact sameResult_raise h _
  | ok => exact sameResult_advancePage c h

/-- From cleared buffers the page and its footer are those of the input bytes, whatever stood in the buffers before (R142, R143). -/
theorem sameResult_afterInRead (r : ReadAnswer)
    (hp : s.pageBuf.slice 0 (writeLength s.geom) = Memory.cells 0 (List.replicate (writeLength s.geom) 0xFF#8))
    (hp' : s'.pageBuf.slice 0 (writeLength s'.geom) = Memory.cells 0 (List.replicate (writeLength s'.geom) 0xFF#8)) :
    SameResult (afterInRead c r s) (afterInRead c r s') := by
  cases r with
  | error => exact sameResult_raise h _
  | data d =>
    by_cases hd : d.bytes = []
    · have done : ∀ u, afterInRead c (.data d) u = continueWith c { u with ctl := .done } := fun _ => if_pos hd
      rw [done, done]
      exact sameResult_continueWith c (h.map fun u => { u with ctl := .done })
    · have hgeom := h.geom
      cases hg : s.geom with
      | none => exact .inr ⟨.noGeometry, by simp [afterInRead, hd, hg], by simp [afterInRead, hd, hgeom, hg]⟩
      | single =>
        have hg' := hgeom.trans hg
        obtain ⟨p, o, hok, -, ho, -⟩ := packSingle_ok c d.fits (slice_single hg hp)
        obtain ⟨p', o', hok', -, ho', -⟩ := packSingle_ok c d.fits (slice_single hg' hp')
        have hi := (h.refill p o p' o').map (issue c (.pageWrite (padPage d.bytes)))
        rw [afterInRead_single hg hd, afterInRead_single hg' hd]
        exact .inl ⟨_, _, hok, hok', hi, fun _ => ho, fun _ => ho'⟩
      | dual =>
        have hg' := hgeom.trans hg
        obtain ⟨p, hok, -⟩ := packDual_ok c d.fits (slice_dual hg hp)
        obtain ⟨p', hok', -⟩ := packDual_ok c d.fits (slice_dual hg' hp')
        have hi := (h.refill p s.oobBuf p' s'.oobBuf).map (issue c (.pageWrite (padPage d.bytes ++ padPage d.bytes)))
        rw [afterInRead_dual hg hd, afterInRead_dual hg' hd]
        exact .inl ⟨_, _, hok, hok', hi, fun hs => by simp [hg] at hs, fun hs => by simp [hg'] at hs⟩

/-- With the footer of one page in both footer buffers the same footer is requested to be written (R142 step 4). -/
theorem sameResult_afterPageWrite (a : Ack) {page : List Byte}
    (ho : s.geom = .single → s.oobBuf.slice 0 64 = Memory.cells 0 (footer page))
    (ho' : s'.geom = .single → s'.oobBuf.slice 0 64 = Memory.cells 0 (footer page)) :
    SameResult (afterPageWrite c a s) (afterPageWrite c a s') := by
  cases a with
  | error => exact sameResult_raise h _
  | ok =>
    have hgeom := h.geom
    cases hg : s.geom with
    | none => exact .inr ⟨.noGeometry, by simp [afterPageWrite, hg], by simp [afterPageWrite, hgeom, hg]⟩
    | single =>
      have hg' := hgeom.trans hg
      have hi := h.map fun u => issue c (.oobWrite (footer page) (u.pageIdx * 2048)) u
      rw [afterPageWrite_single hg, afterPageWrite_single hg', requestFooter_ok c (footer_length page) (ho hg),
        requestFooter_ok c (footer_length page) (ho' hg')]
      exact .inl ⟨_, _, rfl, rfl, hi, trivial, trivial⟩
    | dual =>
      rw [afterPageWrite_dual hg, afterPageWrite_dual (hgeom.trans hg)]
      exact sameResult_advancePage c h

end Parts

/-! ## Whole commands on two such states -/

/-- From states that are alike a transaction is unanswered in both, or has the same result in both. -/
theorem transact_alike {b : Busy} {s s' : State} (h : Alike s s') (hb : s.busy = some b) :
    (transact b s = none ∧ transact b s' = none) ∨
    ∃ x x', transact b s = some x ∧ transact b s' = some x' ∧ SameResult x x' := by
  obtain ⟨same, prep, prep'⟩ := h
  have hb' : s'.busy = some b := same.busy.trans hb
  have ha : s'.answers = s.answers := same.answers
  have recorded : ∀ e a, SameButBuffers (record e (s.withAnswers a)) (record e (s'.withAnswers a)) := fun e a =>
    same.map fun u => record e (u.withAnswers a)
  obtain ⟨c, _ | _ | n | payload | ⟨payload, off⟩⟩ := b <;> simp only [Prepared, hb] at prep <;> simp only [Prepared, hb'] at prep'
  · cases hq : s.answers.geom with
    | nil => exact .inl ⟨by simp [transact, hq], by simp [transact, ha, hq]⟩
    | cons g rest =>
      refine .inr ⟨_, _, transact_geom hq, transact_geom (ha ▸ hq), ?_⟩
      rw [ha]
      exact sameResult_afterGeomQuery c (recorded _ _) g
  · cases hq : s.answers.raw with
    | nil => exact .inl ⟨by simp [transact, hq], by simp [transact, ha, hq]⟩
    | cons a rest =>
      refine .inr ⟨_, _, transact_raw hq, transact_raw (ha ▸ hq), ?_⟩
      rw [ha]
      exact sameResult_afterRawMode c (recorded _ _) a
  · cases hq : s.answers.read with
    | nil => exact .inl ⟨by simp [transact, hq], by simp [transact, ha, hq]⟩
    | cons r rest =>
      refine .inr ⟨_, _, transact_read hq, transact_read (ha ▸ hq), ?_⟩
      rw [ha]
      exact sameResult_afterInRead c (recorded _ _) r prep prep'
  · cases hq : s.answers.page with
    | nil => exact .inl ⟨by simp [transact, hq], by simp [transact, ha, hq]⟩
    | cons a rest =>
      refine .inr ⟨_, _, transact_page hq, transact_page (ha ▸ hq), ?_⟩
      rw [ha]
      exact sameResult_afterPageWrite c (recorded _ _) a prep prep'
  · cases hq : s.answers.oob with
    | nil => exact .inl ⟨by simp [transact, hq], by simp [transact, ha, hq]⟩
    | cons a rest =>
      refine .inr ⟨_, _, transact_oob hq, transact_oob (ha ▸ hq), ?_⟩
      rw [ha]
      exact sameResult_afterOobWrite c (recorded _ _) a

/-- A command in progress goes on to the same outcome from states that are alike. -/
theorem drive_alike : ∀ (n : Nat) {s s' : State}, Alike s s' → SameOutcome (drive n s) (drive n s')
  | 0, s, s', h => .inl ⟨_, _, rfl, rfl, h.same⟩
  | n + 1, s, s', h => by
    have hbusy := h.same.busy
    cases hb : s.busy with
    | none =>
      rw [drive_idle hb, drive_idle (hbusy.trans hb)]
      exact .inl ⟨_, _, rfl, rfl, h.same⟩
    | some b =>
      have hb' := hbusy.trans hb
      rcases transact_alike h hb with ⟨ht, ht'⟩ | ⟨_, _, ht, ht', ⟨t, t', rfl, rfl, hok⟩ | ⟨f, rfl, rfl⟩⟩
      · rw [drive_unanswered hb ht, drive_unanswered hb' ht']
        exact .inl ⟨_, _, rfl, rfl, h.same⟩
      · rw [drive_transact hb ht, drive_transact hb' ht']
        exact drive_alike n hok
      · exact .inr ⟨f, by simp [drive, hb, ht], by simp [drive, hb', ht']⟩

theorem proceed_alike {s s' : State} (h : Alike s s') : SameOutcome (proceed s) (proceed s') := by
  unfold proceed
  rw [h.same.answers]
  exact drive_alike _ h

theorem started_alike {x x' : Except Fault State} (h : SameResult x x') : SameOutcome (started x) (started x') := by
  obtain ⟨t, t', rfl, rfl, h⟩ | ⟨f, rfl, rfl⟩ := h
  · exact proceed_alike h
  · exact .inr ⟨f, rfl, rfl⟩

theorem sameOutcome_respond {s s' : State} (h : SameButBuffers s s') (r : Response) :
    SameOutcome (.next (s.respond r)) (.next (s'.respond r)) := .inl ⟨_, _, rfl, rfl, h.map (·.respond r)⟩

/-- Settles O57: what each kind of command starts with is the same from both states, and so is what it comes to. -/
theorem bufferContentIsIrrelevant : Obligations.BufferContentIsIrrelevant := by
  intro i s s' h hb
  change SameOutcome (exec i s) (exec i s')
  rcases exec_kinds i with ⟨r, hi⟩ | ⟨c, -, hi⟩ | rfl
  · rw [hi, hi]
    exact sameOutcome_respond h r
  · have hctl := h.ctl
    by_cases hk : s.ctl = .idle
    · rw [(hi s).1 hk, (hi s').1 (hctl.trans hk)]
      exact proceed_alike ⟨h.map (issue c .geomQuery), trivial, trivial⟩
    · rw [(hi s).2 hk, (hi s').2 (hctl ▸ hk)]
      exact sameOutcome_respond h .refused
  · by_cases ha : s.admitsPage = true
    · rw [exec_page_started ha, exec_page_started (h.admitsPage.trans ha)]
      exact started_alike (sameResult_startPage .page h)
    · rw [exec_page_not_admitted ha, exec_page_not_admitted (h.admitsPage ▸ ha)]
      exact sameOutcome_respond h .refused

end Sys2Proof.Machine

/-! The statements of 20_memory.md: what every step keeps of the history and of the buffers, the answers a command takes and the shape of its requests
(R50 to R66). -/

namespace Sys2Proof.Machine

/-! ## The history explains the state (R58, R65) -/

/-- Settles O48: a transaction, reset, a command taken and a refusal each keep the invariant. -/
theorem stepKeepsRunInvariant : Obligations.StepKeepsRunInvariant := by
  intro s t h ht
  rcases step_cases ht with ⟨b, hb, hr⟩ | ⟨-, rest, -, rfl⟩ | ⟨hb, w, rest, -, hdec⟩
  · obtain ⟨_, ⟨⟩, hinv⟩ := transact_inv h hb hr
    exact hinv
  · exact runInv_applyReset _
  · have h' : RunInv { s with inputs := rest } := runInv_congr rfl rfl rfl rfl rfl rfl rfl rfl h
    rcases hdec with ⟨i, -, ha⟩ | ⟨e, -, rfl⟩
    · exact accept_inv h' hb ha
    · exact runInv_respond h' .refused

/-! ## Induction over a whole command -/

/-- What holds after a response, after the first request of a command, and is kept by every transaction holds of what a command answers. -/
theorem exec_induct {P : State → Prop} {i : Instr} {s t : State} (hrespond : ∀ r, P (s.respond r))
    (hopen : ∀ c, P (issue c .geomQuery s)) (hstart : ∀ u, startPage .page s = .ok u → P u)
    (htransact : ∀ s b t, P s → s.busy = some b → transact b s = some (.ok t) → P t) (h : exec i s = .next t) : P t := by
  rcases exec_kinds i with ⟨r, hi⟩ | ⟨c, -, hi⟩ | rfl
  · rw [hi] at h
    cases h
    exact hrespond r
  · by_cases hk : s.ctl = .idle
    · rw [(hi s).1 hk] at h
      exact drive_induct htransact (hopen c) h
    · rw [(hi s).2 hk] at h
      cases h
      exact hrespond .refused
  · by_cases ha : s.admitsPage = true
    · rw [exec_page_started ha] at h
      cases hu : startPage .page s with
      | error f => simp [started, hu] at h
      | ok u =>
        rw [hu] at h
        exact drive_induct htransact (hstart u hu) h
    · rw [exec_page_not_admitted ha] at h
      cases h
      exact hrespond .refused

/-! ## The buffers stay in their spaces (R50) -/

/-- A computation that answers a state answers one whose buffers are canonical and within their spaces. -/
def KeepsBuffers (x : Except Fault State) : Prop := ∀ t, x = .ok t → BufferInv t

theorem keepsBuffers_ok {s : State} (h : BufferInv s) : KeepsBuffers (.ok s) := by
  rintro t ⟨⟩
  exact h

theorem keepsBuffers_error (f : Fault) : KeepsBuffers (.error f) := nofun

theorem keepsBuffers_bind {α : Type} {x : Except Fault α} {f : α → Except Fault State}
    (h : ∀ a, x = .ok a → KeepsBuffers (f a)) : KeepsBuffers (x >>= f) := by
  intro t ht
  obtain ⟨a, ha, hf⟩ := bind_eq_ok ht
  exact h a ha t hf

/-- A write that takes place is inside its space, and leaves the canonical form (R50, R53). -/
theorem keepsBuffers_memWrite {s : State} (h : BufferInv s) (sp : Space) (a : Nat) (bs : List Byte) :
    KeepsBuffers (memWrite sp a bs s) := by
  intro t ht
  obtain ⟨hle, rfl⟩ := memWrite_eq_ok ht
  obtain ⟨hpw, hpb, how, hob⟩ := h
  cases sp with
  | pageBuf => exact ⟨write_wf hpw a bs, write_below hpb hle, how, hob⟩
  | oobBuf => exact ⟨hpw, hpb, write_wf how a bs, write_below hob hle⟩

section Parts

/-! `issue`, `record`, `complete`, `raise` and a write of the control elements leave both buffers as they are, so there the invariant of the state before
is, field by field, that of the state after. -/

variable (c : Activity) {s : State} (h : BufferInv s)
include h

theorem keepsBuffers_startPage : KeepsBuffers (startPage c s) := by
  have cleared : ∀ n, KeepsBuffers (clearPage n s >>= fun u => .ok (issue c (.inRead Config.pageSize) u)) := fun n =>
    keepsBuffers_bind fun u hu => keepsBuffers_ok (keepsBuffers_memWrite h _ _ _ u hu)
  unfold startPage
  split
  · exact cleared _
  · exact cleared _
  · exact keepsBuffers_error _

theorem keepsBuffers_continueWith : KeepsBuffers (continueWith c s) := by
  have completed : KeepsBuffers (.ok (complete s)) := keepsBuffers_ok h
  cases c with
  | init => exact completed
  | page => exact completed
  | run =>
    unfold continueWith loopRun
    simp only
    split
    · exact keepsBuffers_startPage .run h
    · exact completed

theorem keepsBuffers_placeCodes (ks : List Nat) : KeepsBuffers (placeCodes ks s) := by
  induction ks generalizing s with
  | nil => exact keepsBuffers_ok h
  | cons k ks ih =>
    refine keepsBuffers_bind fun u hu => ih (s := u) ?_
    exact keepsBuffers_bind (fun block _ => keepsBuffers_memWrite h _ _ _) u hu

theorem keepsBuffers_buildFooter : KeepsBuffers (buildFooter s) :=
  keepsBuffers_bind fun u hu => keepsBuffers_placeCodes (keepsBuffers_memWrite h _ _ _ u hu) _

theorem keepsBuffers_duplicatePage : KeepsBuffers (duplicatePage s) :=
  keepsBuffers_bind fun _ _ => keepsBuffers_memWrite h _ _ _

theorem keepsBuffers_packSingle (bs : List Byte) : KeepsBuffers (packSingle c bs s) :=
  keepsBuffers_bind fun u hu => keepsBuffers_bind fun v hv => keepsBuffers_bind fun _ _ =>
    keepsBuffers_ok (keepsBuffers_buildFooter (keepsBuffers_memWrite h _ _ _ u hu) v hv)

theorem keepsBuffers_packDual (bs : List Byte) : KeepsBuffers (packDual c bs s) :=
  keepsBuffers_bind fun u hu => keepsBuffers_bind fun v hv => keepsBuffers_bind fun _ _ =>
    keepsBuffers_ok (keepsBuffers_duplicatePage (keepsBuffers_memWrite h _ _ _ u hu) v hv)

theorem keepsBuffers_afterGeomQuery (g : GeomAnswer) : KeepsBuffers (afterGeomQuery c g s) := by
  cases g with
  | notFound => exact keepsBuffers_ok h
  | single => exact keepsBuffers_ok h
  | dual => exact keepsBuffers_continueWith c h

theorem keepsBuffers_afterRawMode (a : Ack) : KeepsBuffers (afterRawMode c a s) := by
  cases a with
  | error => exact keepsBuffers_ok h
  | ok => exact keepsBuffers_continueWith c h

theorem keepsBuffers_afterInRead (r : ReadAnswer) : KeepsBuffers (afterInRead c r s) := by
  unfold afterInRead
  split
  · exact keepsBuffers_ok h
  · split
    · exact keepsBuffers_continueWith c h
    · split
      · exact keepsBuffers_packSingle c h _
      · exact keepsBuffers_packDual c h _
      · exact keepsBuffers_error _

theorem keepsBuffers_advancePage : KeepsBuffers (advancePage c s) := keepsBuffers_continueWith c h

theorem keepsBuffers_afterPageWrite (a : Ack) : KeepsBuffers (afterPageWrite c a s) := by
  unfold afterPageWrite
  split
  · exact keepsBuffers_ok h
  · split
    · exact keepsBuffers_bind fun _ _ => keepsBuffers_ok h
    · exact keepsBuffers_advancePage c h
    · exact keepsBuffers_error _

theorem keepsBuffers_afterOobWrite (a : Ack) : KeepsBuffers (afterOobWrite c a s) := by
  cases a with
  | error => exact keepsBuffers_ok h
  | ok => exact keepsBuffers_advancePage c h

end Parts

/-- Recording the event leaves the buffers as they are, and so the command goes on from buffers within their spaces. -/
theorem transact_bufferInv {b : Busy} {s t : State} (h : BufferInv s) (ht : transact b s = some (.ok t)) : BufferInv t := by
  have recorded : ∀ e a, BufferInv (record e (s.withAnswers a)) := fun _ _ => h
  rcases transact_cases ht with ⟨-, a, rest, -, hr⟩ | ⟨-, a, rest, -, hr⟩ | ⟨n, -, a, rest, -, hr⟩ | ⟨p, -, a, rest, -, hr⟩ |
    ⟨p, off, -, a, rest, -, hr⟩
  · exact keepsBuffers_afterGeomQuery b.activity (recorded _ _) a t hr.symm
  · exact keepsBuffers_afterRawMode b.activity (recorded _ _) a t hr.symm
  · exact keepsBuffers_afterInRead b.activity (recorded _ _) a t hr.symm
  · exact keepsBuffers_afterPageWrite b.activity (recorded _ _) a t hr.symm
  · exact keepsBuffers_afterOobWrite b.activity (recorded _ _) a t hr.symm

theorem exec_bufferInv {i : Instr} {s t : State} (h : BufferInv s) (ht : exec i s = .next t) : BufferInv t :=
  exec_induct (fun _ => h) (fun _ => h) (keepsBuffers_startPage .page h) (fun _ _ _ hs _ ht => transact_bufferInv hs ht) ht

theorem accept_bufferInv {i : Instr} {s t : State} (h : BufferInv s) (ht : accept i s = .next t) : BufferInv t := by
  unfold accept at ht
  split at ht
  next u hu =>
    have started : BufferInv u := exec_bufferInv (s := s.withAnswers Answers.empty) h hu
    exact drive_induct (s := u.withAnswers s.answers) (fun _ _ _ hs _ ht => transact_bufferInv hs ht) started ht
  all_goals cases ht

/-- Settles O49: a transaction and a command taken keep the buffers in their spaces, reset empties them, a refusal does not touch them. -/
theorem stepKeepsBufferInvariant : Obligations.StepKeepsBufferInvariant := by
  intro s t h ht
  rcases step_cases ht with ⟨b, -, hr⟩ | ⟨-, rest, -, rfl⟩ | ⟨-, w, rest, -, ⟨i, -, ha⟩ | ⟨e, -, rfl⟩⟩
  · exact transact_bufferInv h hr
  · exact bufferInv_applyReset _
  · exact accept_bufferInv (s := { s with inputs := rest }) h ha
  · exact h

/-! ## One answer for each event (R55, R63) -/

/-- From `s` to `t` as many answers were taken as events entered, after those of `s`. -/
def AnswersMatchEvents (s t : State) : Prop :=
  t.answers.count + t.history.length = s.answers.count + s.history.length ∧ s.history <+: t.history

theorem answersMatchEvents_of_quiet {s t : State} (h : Quiet s t) : AnswersMatchEvents s t := by
  rw [AnswersMatchEvents, h.answers, h.history]
  exact ⟨rfl, List.prefix_refl _⟩

theorem answersMatchEvents_transact {b : Busy} {s t u : State} (h : AnswersMatchEvents s t)
    (ht : transact b t = some (.ok u)) : AnswersMatchEvents s u := by
  obtain ⟨hsum, hpre⟩ := h
  obtain ⟨htaken, ⟨e, hentered⟩, -⟩ := transact_quiet ht
  rw [AnswersMatchEvents, hentered, List.length_append, List.length_singleton]
  exact ⟨by omega, hpre.trans (List.prefix_append _ _)⟩

/-- Settles O45: before its first request a command takes no answer and enters no event, and each transaction takes one and enters one. -/
theorem oneAnswerPerRequest : Obligations.OneAnswerPerRequest := fun _ s _ h =>
  exec_induct (P := AnswersMatchEvents s) (fun _ => answersMatchEvents_of_quiet ⟨rfl, rfl, rfl, rfl, rfl, rfl⟩)
    (fun _ => answersMatchEvents_of_quiet (quiet_issue _ _ _)) (fun _ hu => answersMatchEvents_of_quiet (quiet_startPage hu))
    (fun _ _ _ hs _ ht => answersMatchEvents_transact hs ht) h

/-! ## The shape of requests (R53, R63, R149) -/

/-- The page that is to be written has the length of a page (R145). -/
def PageFull (v : View) : Prop := ∀ page, v.await = .pageWrite page → page.length = 2048

/-- Only a read with bytes leads to a page write, of those bytes padded to a page (R145). -/
theorem next_pageFull {v v' : View} {e : Event} (h : v.next e = some v') : PageFull v' := by
  intro page ha
  rcases next_cases h with ⟨-, -, rfl⟩ | ⟨-, -, rfl⟩ | ⟨-, -, rfl⟩ | ⟨-, -, rfl⟩ | ⟨-, -, rfl⟩ | ⟨-, -, rfl⟩ | ⟨_, -, -, -, rfl⟩ |
    ⟨d, -, -, -, rfl⟩ | ⟨_, -, -, rfl⟩ | ⟨_, -, -, -, rfl⟩ | ⟨_, -, -, -, rfl⟩ | ⟨_, -, -, rfl⟩ | ⟨_, -, -, rfl⟩
  iterate 7 cases ha
  · cases ha
    exact padPage_length d.fits
  iterate 5 cases ha

/-- Along a history the page that is to be written is full: at the start none is. -/
theorem afterEvents_pageFull {h : List Event} {v : View} (hv : View.start.afterEvents h = some v) : PageFull v :=
  history_induct (P := fun v _ => PageFull v) (fun _ => nofun) (fun _ _ _ _ _ _ hn => next_pageFull hn) h v hv

/-- An event the rules allow has its shape on the geometry it leaves. -/
theorem next_shapeOk {v v' : View} {e : Event} (hv : ViewOk v) (hfull : PageFull v) (h : v.next e = some v') :
    shapeOk v'.geom e = true := by
  have raw : v.await = .rawMode → v.geom = .single := fun ha => by
    simp only [ViewOk, ha] at hv
    exact hv.1
  have payload : ∀ {page}, v.await = .pageWrite page → (pagePayload v.geom page).length = writeLength v.geom := fun ha =>
    pagePayload_length _ (hfull _ ha)
  rcases next_cases h with ⟨-, rfl, rfl⟩ | ⟨-, rfl, rfl⟩ | ⟨-, rfl, rfl⟩ | ⟨ha, rfl, rfl⟩ | ⟨ha, rfl, rfl⟩ | ⟨-, rfl, rfl⟩ |
    ⟨_, -, rfl, -, rfl⟩ | ⟨_, -, rfl, -, rfl⟩ | ⟨_, ha, rfl, rfl⟩ | ⟨_, ha, rfl, -, rfl⟩ | ⟨_, ha, rfl, -, rfl⟩ | ⟨_, ha, rfl, rfl⟩ |
    ⟨_, ha, rfl, rfl⟩
  iterate 3 rfl
  iterate 2 simp [shapeOk, View.fail, raw ha]
  iterate 3 rfl
  iterate 3 simp [shapeOk, View.fail, payload ha]
  iterate 2 simp [shapeOk, View.fail, geom_footer hv ha]

/-- Along a history every event has its shape: the first is entered before there is a geometry, and after it the geometry stays. -/
theorem afterEvents_shapeOk : ∀ (h : List Event) (v : View), View.start.afterEvents h = some v → ∀ e ∈ h, shapeOk v.geom e = true := by
  refine history_induct (by simp) fun v v' h e hv ih hn => ?_
  have hnew := next_shapeOk (afterEvents_viewOk start_viewOk hv) (afterEvents_pageFull hv) hn
  intro x hx
  rcases List.mem_append.1 hx with hx | hx
  · have ha : v.await ≠ .geometry := fun ha => by simp [history_nil_of_geometry hv ha] at hx
    rw [next_geom ha hn]
    exact ih x hx
  · rw [List.mem_singleton.1 hx]
    exact hnew

/-- Settles O54: the geometry is the view's, on which every event of the history has its shape. -/
theorem requestsHaveTheirShape : Obligations.RequestsHaveTheirShape := by
  rintro s ⟨v, hv, hg, -⟩
  rw [hg]
  exact afterEvents_shapeOk s.history v hv

end Sys2Proof.Machine

/-! The statements of 30_encoding.md: the decoder and the encoder are inverse to each other, every command gets one response, the refused terms, and the
3-byte form of a code (R80 to R88). -/

namespace Sys2Proof

/-! ## The decoder (R80, R81, R83) -/

theorem three_le_formatLen (op : Nat) : 3 ≤ formatLen op := by
  unfold formatLen
  split <;> decide

/-- A word decodes when its length is the one its `op` selects, and then as its payload says. -/
theorem decode_of_len {w : CmdWord} (h : w.len = formatLen w.op) : decode w = .ok (decodePayload w) := by
  have : ¬ w.len < 3 := by
    have := three_le_formatLen w.op
    omega
  rw [decode, if_neg this, if_pos h]

theorem decode_eq_ok {w : CmdWord} {i : Instr} (h : decode w = .ok i) : w.len = formatLen w.op ∧ i = decodePayload w := by
  unfold decode at h
  split at h
  · cases h
  · split at h
    next hlen => exact ⟨hlen, (Except.ok.inj h).symm⟩
    · cases h

theorem decodePayload_par {w : CmdWord} (h : w.op = 0) :
    decodePayload w = .par (w.bits.extractLsb' 3 8) (w.bits.extractLsb' 11 8) := by simp [decodePayload, h]

theorem decodePayload_ecc {w : CmdWord} (h : w.op = 1) : decodePayload w = .ecc w.blockField := by simp [decodePayload, h]

theorem decodePayload_enc {w : CmdWord} (h : w.op = 2) : decodePayload w = .enc (w.bits.extractLsb' 3 32) := by
  simp [decodePayload, h]

/-! ## Format B: the block as one number (R80) -/

/-- Bit `m` of a byte sequence as one number is bit `m mod 8` of byte `m / 8`: byte 0 stands lowest. -/
theorem testBit_packBytes (bs : List Byte) (m : Nat) : (packBytes bs).testBit m = (bs.getD (m / 8) 0#8).getLsbD (m % 8) := by
  induction bs generalizing m with
  | nil => simp [packBytes]
  | cons b bs ih =>
    rw [packBytes, Nat.add_comm, show (256 : Nat) = 2 ^ 8 from rfl, Nat.testBit_two_pow_mul_add _ b.isLt]
    split
    next hm =>
      rw [Nat.div_eq_of_lt hm, Nat.mod_eq_of_lt hm]
      rfl
    next hm =>
      obtain ⟨m, rfl⟩ := Nat.exists_eq_add_of_le' (Nat.le_of_not_lt hm)
      rw [Nat.add_sub_cancel, ih, Nat.add_div_right m (by decide), Nat.add_mod_right]
      rfl

/-- The payload of a format-B word stands above its three bits of `op`. -/
theorem getLsbD_formatB (n : Nat) {m : Nat} (hm : m < 4096) : (BitVec.ofNat 4099 (8 * n + 1)).getLsbD (3 + m) = n.testBit m := by
  rw [BitVec.getLsbD_ofNat, show (8 : Nat) = 2 ^ 3 from rfl, Nat.testBit_two_pow_mul_add n (by decide), if_neg (by omega),
    Nat.add_sub_cancel_left, decide_eq_true (by omega), Bool.true_and]

/-- Two byte sequences of one length are equal when their bytes have the same bits. -/
theorem eq_of_getD_getLsbD {xs ys : List Byte} (hl : xs.length = ys.length)
    (h : ∀ k < ys.length, ∀ j < 8, (xs.getD k 0#8).getLsbD j = (ys.getD k 0#8).getLsbD j) : xs = ys := by
  refine List.ext_getElem hl fun k hk hk' => BitVec.eq_of_getLsbD_eq fun j hj => ?_
  rw [← List.getD_eq_getElem xs 0#8 hk, ← List.getD_eq_getElem ys 0#8 hk', h k hk' j hj]

theorem blockField_length (w : CmdWord) : w.blockField.length = 512 := by simp [CmdWord.blockField]

/-- Bit `j` of byte `k` of the block stands at position `8 × k + j` of the payload. -/
theorem getLsbD_blockField (w : CmdWord) {k j : Nat} (hk : k < 512) (hj : j < 8) :
    (w.blockField.getD k 0#8).getLsbD j = w.bits.getLsbD (3 + (8 * k + j)) := by
  have hbyte : w.blockField.getD k 0#8 = w.bits.extractLsb' (8 * k + 3) 8 := by
    simp [CmdWord.blockField, hk]
  rw [hbyte, BitVec.getLsbD_extractLsb', decide_eq_true hj, Bool.true_and, show 8 * k + 3 + j = 3 + (8 * k + j) by omega]

/-- A word whose payload is a block's bits, byte 0 lowest, is read as that block. -/
theorem blockField_eq {w : CmdWord} {block : List Byte} (hl : block.length = 512)
    (hw : ∀ m < 4096, w.bits.getLsbD (3 + m) = (packBytes block).testBit m) : w.blockField = block := by
  refine eq_of_getD_getLsbD ((blockField_length w).trans hl.symm) fun k hk j hj => ?_
  have hpos : 8 * k + j < 4096 := by omega
  rw [getLsbD_blockField w (by omega) hj, hw _ hpos, testBit_packBytes, show (8 * k + j) / 8 = k by omega,
    show (8 * k + j) % 8 = j by omega]

/-- The format-B word of a block that was read out of a word with `op` 1 is that word. -/
theorem formatB_blockField {bits : BitVec 4099} (h : bits.extractLsb' 0 3 = 1#3) :
    BitVec.ofNat 4099 (8 * packBytes (CmdWord.mk 4099 bits).blockField + 1) = bits := by
  refine BitVec.eq_of_getLsbD_eq fun p hp => ?_
  rcases Nat.lt_or_ge p 3 with hop | hpay
  · have hlow : ∀ v : BitVec 4099, v.getLsbD p = (v.extractLsb' 0 3).getLsbD p := fun v => by
      simp [hop]
    rw [hlow, hlow, h, Laws.EncodeLength.op_formatB (by decide)]
  · obtain ⟨m, rfl⟩ := Nat.exists_eq_add_of_le hpay
    rw [getLsbD_formatB _ (by omega), testBit_packBytes, getLsbD_blockField _ (by omega) (Nat.mod_lt m (by decide)), Nat.div_add_mod]

/-! ## Decoding what was encoded -/

/-- The word of a well-formed instruction has the length its `op` selects (R80). -/
theorem encode_len (i : Instr) : Laws.EncodeLength.Statement i := by
  cases i with
  | par value mask => exact Laws.EncodeLength.par value mask
  | ecc block => exact Laws.EncodeLength.ecc block
  | enc code => exact Laws.EncodeLength.enc code
  | init => exact Laws.EncodeLength.init
  | page => exact Laws.EncodeLength.page
  | run => exact Laws.EncodeLength.run
  | reserved6 => exact Laws.EncodeLength.reserved6
  | reserved7 => exact Laws.EncodeLength.reserved7

theorem op_encode_par (value mask : Byte) : (encode (.par value mask)).op = 0 :=
  congrArg BitVec.toNat (Laws.EncodeLength.op_append (mask ++ value) 0#3)

theorem op_encode_ecc (block : List Byte) : (encode (.ecc block)).op = 1 :=
  congrArg BitVec.toNat (Laws.EncodeLength.op_formatB (w := 4099) (by decide) (packBytes block))

theorem op_encode_enc (code : Code) : (encode (.enc code)).op = 2 :=
  congrArg BitVec.toNat (Laws.EncodeLength.op_append code 2#3)

/-- The payload of an instruction's word holds its operands unchanged (R82). -/
theorem decodePayload_encode {i : Instr} (h : i.wellFormed = true) : decodePayload (encode i) = i := by
  cases i with
  | par value mask =>
    have hvalue : (mask ++ value ++ 0#3).extractLsb' 3 8 = value :=
      (BitVec.extractLsb'_append_eq_of_le (by decide)).trans BitVec.extractLsb'_append_eq_right
    have hmask : (mask ++ value ++ 0#3).extractLsb' 11 8 = mask :=
      (BitVec.extractLsb'_append_eq_of_le (by decide)).trans BitVec.extractLsb'_append_eq_left
    exact (decodePayload_par (op_encode_par value mask)).trans (congrArg₂ Instr.par hvalue hmask)
  | ecc block =>
    have hl : block.length = 512 := by simpa [Instr.wellFormed] using h
    exact (decodePayload_ecc (op_encode_ecc block)).trans
      (congrArg Instr.ecc (blockField_eq hl fun _ hm => getLsbD_formatB (packBytes block) hm))
  | enc code =>
    exact (decodePayload_enc (op_encode_enc code)).trans (congrArg Instr.enc BitVec.extractLsb'_append_eq_left)
  | init => rfl
  | page => rfl
  | run => rfl
  | reserved6 => rfl
  | reserved7 => rfl

/-- Settles O1: the word has the length of its `op`, and its payload is the instruction. -/
theorem decodeEncodeRoundTrip : Obligations.DecodeEncodeRoundTrip := by
  intro i hi
  rw [decode_of_len (encode_len i hi), decodePayload_encode hi]

/-- Settles O3: the words are those of their commands, which the round trip decodes; the last has the `op` of a command of another length. -/
theorem sampleWordsDecode : Obligations.SampleWordsDecode :=
  ⟨decodeEncodeRoundTrip (.par 0xB7#8 0x0F#8) rfl, decodeEncodeRoundTrip (.enc 0x12345678#32) rfl, decodeEncodeRoundTrip .init rfl,
    decodeEncodeRoundTrip .page rfl, decodeEncodeRoundTrip .run rfl, decodeEncodeRoundTrip .reserved6 rfl,
    decodeEncodeRoundTrip .reserved7 rfl, by decide⟩

/-! ## Encoding what was decoded -/

theorem decodePayload_wellFormed (w : CmdWord) : (decodePayload w).wellFormed = true := by
  unfold decodePayload
  split
  case h_2 => simp [Instr.wellFormed, blockField_length]
  all_goals rfl

/-- A word is its field above `op`, and `op`. -/
theorem append_op {n : Nat} {bits : BitVec (n + 3)} {op : BitVec 3} (h : bits.extractLsb' 0 3 = op) : bits.extractLsb' 3 n ++ op = bits := by
  rw [← h, BitVec.extractLsb'_append_extractLsb']

/-- A word of format N is its `op`. -/
theorem formatN_eq {len : Nat} {bits : BitVec len} {op : BitVec 3} (hlen : len = 3) (h : bits.extractLsb' 0 3 = op) :
    CmdWord.mk len bits = ⟨3, op⟩ := by
  subst hlen
  rw [← h, BitVec.extractLsb'_eq_self]

theorem op_cases (op : BitVec 3) :
    op = 0#3 ∨ op = 1#3 ∨ op = 2#3 ∨ op = 3#3 ∨ op = 4#3 ∨ op = 5#3 ∨ op = 6#3 ∨ op = 7#3 := by decide +revert

/-- A word whose length is the one its `op` selects is the word of its payload's instruction: its bits are `op` and the fields, and no other (R80). -/
theorem encode_decodePayload {w : CmdWord} (h : w.len = formatLen w.op) : encode (decodePayload w) = w := by
  obtain ⟨len, bits⟩ := w
  obtain ⟨op, hop⟩ : ∃ op : BitVec 3, bits.extractLsb' 0 3 = op := ⟨_, rfl⟩
  have hw : (CmdWord.mk len bits).op = op.toNat := congrArg BitVec.toNat hop
  rw [hw] at h
  rcases op_cases op with rfl | rfl | rfl | rfl | rfl | rfl | rfl | rfl
  · obtain rfl : len = 19 := h
    have hfields : bits.extractLsb' 11 8 ++ bits.extractLsb' 3 8 = bits.extractLsb' 3 16 :=
      BitVec.extractLsb'_append_extractLsb'_eq_extractLsb' (by decide)
    rw [decodePayload_par hw, encode, hfields]
    exact congrArg (CmdWord.mk 19) (append_op (n := 16) hop)
  · obtain rfl : len = 4099 := h
    rw [decodePayload_ecc hw, encode, formatB_blockField hop]
  · obtain rfl : len = 35 := h
    rw [decodePayload_enc hw, encode]
    exact congrArg (CmdWord.mk 35) (append_op (n := 32) hop)
  all_goals
    rw [formatN_eq h hop]
    rfl

/-- Settles O2: what a word decodes to is its payload, which is well-formed and encodes to the word. -/
theorem everyWordHasOneMeaning : Obligations.EveryWordHasOneMeaning := by
  intro w i h
  obtain ⟨hlen, rfl⟩ := decode_eq_ok h
  exact ⟨decodePayload_wellFormed w, encode_decodePayload hlen⟩

end Sys2Proof

namespace Sys2Proof.Machine

/-! ## One response for each command (R84) -/

/-- A command that had been given no response yet, and the responses before it were `rs`: over, it has got one; still in progress, none. -/
def OneResponse (rs : List Response) (t : State) : Prop :=
  (t.busy = none → ∃ r, t.responses = rs ++ [r]) ∧ (t.busy ≠ none → t.responses = rs)

theorem oneResponse_over {rs : List Response} {t : State} {r : Response} (hb : t.busy = none) (hr : t.responses = rs ++ [r]) :
    OneResponse rs t := ⟨fun _ => ⟨r, hr⟩, fun h => absurd hb h⟩

theorem oneResponse_complete {s : State} {rs : List Response} (h : s.responses = rs) : OneResponse rs (complete s) :=
  oneResponse_over rfl (congrArg (· ++ _) h)

theorem oneResponse_raise (x : Exc) {s : State} {rs : List Response} (h : s.responses = rs) : OneResponse rs (raise x s) :=
  oneResponse_over rfl (congrArg (· ++ _) h)

theorem oneResponse_issue (c : Activity) (r : Request) {s : State} {rs : List Response} (h : s.responses = rs) :
    OneResponse rs (issue c r s) := ⟨nofun, fun _ => h⟩

/-! The page is built without a response. -/

theorem memWrite_responses {sp : Space} {a : Nat} {bs : List Byte} {s t : State} (h : memWrite sp a bs s = .ok t) :
    t.responses = s.responses := by
  obtain ⟨-, rfl⟩ := memWrite_eq_ok h
  cases sp <;> rfl

theorem placeCodes_responses {ks : List Nat} {s t : State} (h : placeCodes ks s = .ok t) : t.responses = s.responses := by
  induction ks generalizing s with
  | nil => cases h; rfl
  | cons k ks ih =>
    obtain ⟨u, hu, h⟩ := bind_eq_ok h
    obtain ⟨block, -, hw⟩ := bind_eq_ok hu
    exact (ih h).trans (memWrite_responses hw)

theorem buildFooter_responses {s t : State} (h : buildFooter s = .ok t) : t.responses = s.responses := by
  obtain ⟨u, hu, h⟩ := bind_eq_ok h
  exact (placeCodes_responses h).trans (memWrite_responses hu)

theorem duplicatePage_responses {s t : State} (h : duplicatePage s = .ok t) : t.responses = s.responses := by
  obtain ⟨half, -, h⟩ := bind_eq_ok h
  exact memWrite_responses h

section Parts

/-! Each part of a command ends in a request, which is no response, or in its completion or an exception, which is one. -/

variable {c : Activity} {s t : State} {rs : List Response}

theorem oneResponse_startPage (h : startPage c s = .ok t) (hs : s.responses = rs) : OneResponse rs t := by
  have cleared : ∀ n, (clearPage n s >>= fun u => .ok (issue c (.inRead Config.pageSize) u)) = .ok t → OneResponse rs t := by
    intro n h
    obtain ⟨u, hu, h⟩ := bind_eq_ok h
    cases h
    exact oneResponse_issue _ _ ((memWrite_responses hu).trans hs)
  unfold startPage at h
  split at h
  · exact cleared _ h
  · exact cleared _ h
  · cases h

theorem oneResponse_continueWith (h : continueWith c s = .ok t) (hs : s.responses = rs) : OneResponse rs t := by
  cases c with
  | init => cases h; exact oneResponse_complete hs
  | page => cases h; exact oneResponse_complete hs
  | run =>
    change loopRun s = .ok t at h
    unfold loopRun at h
    split at h
    · exact oneResponse_startPage h hs
    · cases h; exact oneResponse_complete hs

theorem oneResponse_afterGeomQuery {g : GeomAnswer} (h : afterGeomQuery c g s = .ok t) (hs : s.responses = rs) : OneResponse rs t := by
  cases g with
  | notFound => cases h; exact oneResponse_raise _ hs
  | single => cases h; exact oneResponse_issue _ _ hs
  | dual => exact oneResponse_continueWith h hs

theorem oneResponse_afterRawMode {a : Ack} (h : afterRawMode c a s = .ok t) (hs : s.responses = rs) : OneResponse rs t := by
  cases a with
  | error => cases h; exact oneResponse_raise _ hs
  | ok => exact oneResponse_continueWith h hs

theorem oneResponse_packSingle {bs : List Byte} (h : packSingle c bs s = .ok t) (hs : s.responses = rs) : OneResponse rs t := by
  obtain ⟨u, hu, h⟩ := bind_eq_ok h
  obtain ⟨v, hv, h⟩ := bind_eq_ok h
  obtain ⟨payload, -, h⟩ := bind_eq_ok h
  cases h
  exact oneResponse_issue _ _ ((buildFooter_responses hv).trans ((memWrite_responses hu).trans hs))

theorem oneResponse_packDual {bs : List Byte} (h : packDual c bs s = .ok t) (hs : s.responses = rs) : OneResponse rs t := by
  obtain ⟨u, hu, h⟩ := bind_eq_ok h
  obtain ⟨v, hv, h⟩ := bind_eq_ok h
  obtain ⟨payload, -, h⟩ := bind_eq_ok h
  cases h
  exact oneResponse_issue _ _ ((duplicatePage_responses hv).trans ((memWrite_responses hu).trans hs))

theorem oneResponse_afterInRead {r : ReadAnswer} (h : afterInRead c r s = .ok t) (hs : s.responses = rs) : OneResponse rs t := by
  unfold afterInRead at h
  split at h
  · cases h; exact oneResponse_raise _ hs
  · split at h
    · exact oneResponse_continueWith h hs
    · split at h
      · exact oneResponse_packSingle h hs
      · exact oneResponse_packDual h hs
      · cases h

theorem oneResponse_advancePage (h : advancePage c s = .ok t) (hs : s.responses = rs) : OneResponse rs t :=
  oneResponse_continueWith h hs

theorem oneResponse_afterPageWrite {a : Ack} (h : afterPageWrite c a s = .ok t) (hs : s.responses = rs) : OneResponse rs t := by
  unfold afterPageWrite at h
  split at h
  · cases h; exact oneResponse_raise _ hs
  · split at h
    · obtain ⟨payload, -, h⟩ := bind_eq_ok h
      cases h
      exact oneResponse_issue _ _ hs
    · exact oneResponse_advancePage h hs
    · cases h

theorem oneResponse_afterOobWrite {a : Ack} (h : afterOobWrite c a s = .ok t) (hs : s.responses = rs) : OneResponse rs t := by
  cases a with
  | error => cases h; exact oneResponse_raise _ hs
  | ok => exact oneResponse_advancePage h hs

end Parts

/-- A transaction gives one response if it ends the command and none if the command goes on: entering the event is no response. -/
theorem oneResponse_transact {b : Busy} {s t : State} {rs : List Response}
    (h : transact b s = some (.ok t)) (hs : s.responses = rs) : OneResponse rs t := by
  rcases transact_cases h with ⟨-, _, _, -, hr⟩ | ⟨-, _, _, -, hr⟩ | ⟨_, -, _, _, -, hr⟩ | ⟨_, -, _, _, -, hr⟩ | ⟨_, _, -, _, _, -, hr⟩
  · exact oneResponse_afterGeomQuery hr.symm hs
  · exact oneResponse_afterRawMode hr.symm hs
  · exact oneResponse_afterInRead hr.symm hs
  · exact oneResponse_afterPageWrite hr.symm hs
  · exact oneResponse_afterOobWrite hr.symm hs

/-- A command in progress has had no response, so that after a transaction more it has had at most the one. -/
theorem OneResponse.transact {rs : List Response} {s t : State} {b : Busy} (h : OneResponse rs s) (hb : s.busy = some b)
    (ht : Machine.transact b s = some (.ok t)) : OneResponse rs t := by
  have none_yet : s.responses = rs := h.2 (by simp [hb])
  exact oneResponse_transact ht none_yet

theorem oneResponse_exec {i : Instr} {s t : State} (hb : s.busy = none) (h : exec i s = .next t) : OneResponse s.responses t :=
  exec_induct (fun _ => oneResponse_over hb rfl) (fun c => oneResponse_issue c .geomQuery rfl) (fun _ hu => oneResponse_startPage hu rfl)
    (fun _ _ _ hs hb ht => hs.transact hb ht) h

theorem oneResponse_accept {i : Instr} {s t : State} (hb : s.busy = none) (h : accept i s = .next t) : OneResponse s.responses t := by
  unfold accept at h
  split at h
  next u hu =>
    have started : OneResponse s.responses u := oneResponse_exec (s := s.withAnswers Answers.empty) hb hu
    exact drive_induct (s := u.withAnswers s.answers) (fun _ _ _ hs hb ht => hs.transact hb ht) started h
  all_goals cases h

/-- Settles O9: a transaction, a command taken and a refusal each give one response if the command is over and none if it is not; the step that takes
reset is none of these. -/
theorem oneResponsePerCommand : Obligations.OneResponsePerCommand := by
  intro s t ht hcommand
  rcases step_cases ht with ⟨b, hb, hr⟩ | ⟨hb, rest, hin, -⟩ | ⟨hb, w, rest, -, ⟨i, -, ha⟩ | ⟨e, -, rfl⟩⟩
  · exact oneResponse_transact hr rfl
  · rcases hcommand with hbusy | ⟨w, rest', hin'⟩
    · exact absurd hb hbusy
    · simp [hin] at hin'
  · exact oneResponse_accept (s := { s with inputs := rest }) hb ha
  · exact oneResponse_over hb rfl

/-! ## The 3-byte form of a code (R86, R87, R117) -/

/-- Bit `i` of a half is entry `i` of the list it is made of. -/
theorem getLsbD_halfOf (bits : List Bool) {i : Nat} (hi : i < 16) : (halfOf bits).getLsbD i = bits.getD i false := by
  induction bits generalizing i with
  | nil => simp [halfOf]
  | cons b bs ih =>
    have hcons : halfOf (b :: bs) = halfOf bs <<< 1 ||| (if b then 1#16 else 0#16) := rfl
    rw [hcons, BitVec.getLsbD_or, BitVec.getLsbD_shiftLeft]
    cases i with
    | zero => cases b <;> simp
    | succ i =>
      have hbit : (if b then 1#16 else 0#16).getLsbD (i + 1) = false := by cases b <;> simp [BitVec.getLsbD_one]
      rw [hbit, Nat.add_sub_cancel, ih (by omega)]
      simp [hi]

theorem length_halfBits (masks : List Byte) (inSet : Nat → Nat → Bool) (block : List Byte) :
    (halfBits masks inSet block).length = masks.length + 9 := by simp [halfBits]

/-- Bits 15 to 12 of the even half are 0: it has twelve entries (R117). -/
theorem getLsbD_evenHalf_high (block : List Byte) {i : Nat} (h : 12 ≤ i) : (evenHalf block).getLsbD i = false := by
  rcases Nat.lt_or_ge i 16 with hi | hi
  · rw [evenHalf, getLsbD_halfOf _ hi, List.getD_eq_default _ _ (by rw [length_halfBits]; exact h)]
  · exact BitVec.getLsbD_of_ge _ _ hi

/-- The low half of a code is the even half (R86, R116). -/
theorem getLsbD_ecc_low (block : List Byte) {i : Nat} (hi : i < 16) : (ecc block).getLsbD i = (evenHalf block).getLsbD i := by
  simp [ecc, hi, show i < 32 by omega]

/-- The low nibble of the third byte is the low nibble of `p[1]`: that of `p[3]` is shifted past it (R130). -/
theorem encThird_low (p1 p3 : Byte) : (encThird p1 p3).extractLsb' 0 4 = p1.extractLsb' 0 4 := by
  ext i hi
  simp [encThird, show ¬ 4 ≤ i by omega]

/-- The high nibble of the third byte is the low nibble of `p[3]`, where `p[1]` has no high nibble to be ORed in (R130, R131). -/
theorem encThird_high {p1 : Byte} (p3 : Byte) (h : p1.extractLsb' 4 4 = 0#4) : (encThird p1 p3).extractLsb' 4 4 = p3.extractLsb' 0 4 := by
  ext i hi
  have hi8 : 4 + i < 8 := by omega
  have hp1 : p1[4 + i] = false := by
    have hbit := congrArg (·.getLsbD i) h
    simpa [hi, hi8] using hbit
  simp [encThird, hp1, hi8, show i < 8 by omega]

/-- A nibble of byte `n` of a code is a nibble of the code (R51). -/
theorem codeByte_nibble (code : Code) (n : Nat) {j : Nat} (hj : j + 4 ≤ 8) :
    (codeByte code n).extractLsb' j 4 = code.extractLsb' (8 * n + j) 4 := by
  ext i hi
  simp [codeByte, show j + i < 8 by omega, Nat.add_assoc]

/-- `p[1]` of a code of `ECC` has no high nibble: there stand bits 15 to 12 of the even half (R117). -/
theorem codeByte_ecc_high (block : List Byte) : (codeByte (ecc block) 1).extractLsb' 4 4 = 0#4 := by
  rw [codeByte_nibble _ _ (by decide)]
  ext i hi
  have hlow : (ecc block).getLsbD (12 + i) = false :=
    (getLsbD_ecc_low block (by omega)).trans (getLsbD_evenHalf_high block (by omega))
  simpa using hlow

/-- Settles O26: `e0` and `e1` are bytes of the code, and since `p[1]` has no high nibble the two nibbles of `e2` are those of `p[1]` and `p[3]`. -/
theorem encOfCalculatorCode : Obligations.EncOfCalculatorCode := by
  intro block _
  have hlow : (enc (ecc block)).2.2.extractLsb' 0 4 = (ecc block).extractLsb' 8 4 :=
    (encThird_low _ _).trans (codeByte_nibble _ 1 (by decide))
  have hhigh : (enc (ecc block)).2.2.extractLsb' 4 4 = (ecc block).extractLsb' 24 4 :=
    (encThird_high _ (codeByte_ecc_high block)).trans (codeByte_nibble _ 3 (by decide))
  exact ⟨rfl, rfl, hlow, hhigh⟩

/-! ## The step that takes a word of the opcode table (R80, R84) -/

theorem decode_of_decodeTableWord {nbits w : Nat} {i : Instr} (h : decodeTableWord nbits w = some i) :
    decode (tableCommand nbits w) = .ok i := by
  unfold decodeTableWord at h
  split at h
  next hd => rw [hd, Option.some.inj h]
  · cases h

/-- Settles O5: the word presented is the next command, and no command is in progress. -/
theorem stepRunsFetchWord : Obligations.StepRunsFetchWord := fun s nbits w _ h =>
  step_command (withFetchWord_busy s nbits w) (withFetchWord_inputs s nbits w) (decode_of_decodeTableWord h)

/-! ## Terms that are refused (R83, R195) -/

/-- Settles O7: both reserved commands are the refusal. -/
theorem reservedCommandsAreRefused : Obligations.ReservedCommandsAreRefused := fun _ => ⟨rfl, rfl⟩

/-- Settles O8: `ECC` refuses a term whose block is not one Data Block. -/
theorem eccOfAnotherLengthIsRefused : Obligations.EccOfAnotherLengthIsRefused := fun _ _ h => if_neg h

end Sys2Proof.Machine

/-! The statements of 40_parity_engine.md: `PAR` is the parity of the 1 bits of the value under the mask, from which its linearity and what the column masks
select follow (R100 to R103). -/

namespace Sys2Proof

/-! ## Parity of a count of 1 bits (R9) -/

theorem isOdd_add_one (n : Nat) : isOdd (n + 1) = !isOdd n := by
  rcases Nat.mod_two_eq_zero_or_one n with h | h <;> simp [isOdd, Nat.add_mod, h]

/-- One more index flips the parity of the number of selected indices when it is selected itself. -/
theorem isOdd_length_filter_cons {α : Type} (p : α → Bool) (i : α) (is : List α) :
    isOdd ((i :: is).filter p).length = (p i ^^ isOdd (is.filter p).length) := by
  cases h : p i with
  | false => rw [List.filter_cons_of_neg (by simp [h]), Bool.false_xor]
  | true => rw [List.filter_cons_of_pos h, List.length_cons, isOdd_add_one, Bool.true_xor]

/-- The indices in exactly one of two selections: those in both count twice, and do not change the parity. -/
theorem isOdd_length_filter_xor {α : Type} (p q : α → Bool) (is : List α) :
    isOdd (is.filter fun i => p i ^^ q i).length = (isOdd (is.filter p).length ^^ isOdd (is.filter q).length) := by
  induction is with
  | nil => rfl
  | cons i is ih => simp only [isOdd_length_filter_cons, ih, Bool.xor_assoc, Bool.xor_left_comm]

end Sys2Proof

namespace Sys2Proof.Machine

/-! ## The result of `PAR` (R100) -/

/-- The accumulator of R100's loop, from any start: the parity of the number of visited positions where value and mask are both 1. -/
theorem parLoop_eq_isOdd (value mask : Byte) (is : List Nat) (acc : Bool) :
    is.foldl (fun acc i => if mask.getLsbD i then acc ^^ value.getLsbD i else acc) acc =
      (acc ^^ isOdd (is.filter fun i => value.getLsbD i && mask.getLsbD i).length) := by
  induction is generalizing acc with
  | nil => exact (Bool.xor_false acc).symm
  | cons i is ih =>
    rw [List.foldl_cons, ih, isOdd_length_filter_cons, ← Bool.xor_assoc]
    cases mask.getLsbD i <;> simp

theorem par_eq_isOdd (value mask : Byte) :
    par value mask = isOdd ((List.range 8).filter fun i => value.getLsbD i && mask.getLsbD i).length :=
  (parLoop_eq_isOdd value mask (List.range 8) false).trans (Bool.false_xor _)

theorem par_eq_isOdd_popcount (value mask : Byte) : par value mask = isOdd (popcount (value &&& mask)) := by
  simp only [popcount, BitVec.getLsbD_and]
  exact par_eq_isOdd value mask

theorem exec_par (value mask : Byte) (s : State) : exec (.par value mask) s = .next (s.respond (.bit (par value mask))) := rfl

/-- Settles O10: the word is the one `encode` gives, and the loop of `PAR` counts the 1 bits under the mask modulo 2. -/
theorem parAnswersMaskedParity : Obligations.ParAnswersMaskedParity := by
  refine fun value mask s => ⟨decodeEncodeRoundTrip (.par value mask) rfl, ?_⟩
  rw [exec_par, par_eq_isOdd_popcount]
  rfl

/-! ## Linearity (R101) -/

theorem par_xor_value (a b m : Byte) : par (a ^^^ b) m = (par a m ^^ par b m) := by
  simp only [par_eq_isOdd, BitVec.getLsbD_xor, Bool.and_xor_distrib_right]
  exact isOdd_length_filter_xor _ _ _

theorem par_xor_mask (a m n : Byte) : par a (m ^^^ n) = (par a m ^^ par a n) := by
  simp only [par_eq_isOdd, BitVec.getLsbD_xor, Bool.and_xor_distrib_left]
  exact isOdd_length_filter_xor _ _ _

/-- Masks with no bit in common have the same union as exclusive or. -/
theorem or_eq_xor_of_and_eq_zero {m n : Byte} (h : m &&& n = 0#8) : m ||| n = m ^^^ n := by
  ext i hi
  have hbit : (m[i] && n[i]) = false := by simpa [hi] using congrArg (·.getLsbD i) h
  cases hm : m[i] with
  | false => simp [hm]
  | true =>
    have hn : n[i] = false := by simpa [hm] using hbit
    simp [hm, hn]

theorem par_or_mask (a : Byte) {m n : Byte} (h : m &&& n = 0#8) : par a (m ||| n) = (par a m ^^ par a n) := by
  rw [or_eq_xor_of_and_eq_zero h, par_xor_mask]

/-- Two masks that are disjoint and cover the byte split its parity. -/
theorem par_split (a : Byte) {m n : Byte} (h : m &&& n = 0#8) (hcover : m ||| n = 0xFF#8) : (par a m ^^ par a n) = par a 0xFF#8 := by
  rw [← par_or_mask a h, hcover]

/-- Settles O11: parity is linear in the bits under the mask, and each pair of column masks is disjoint and covers the byte. -/
theorem parIsLinear : Obligations.ParIsLinear := by
  refine fun a b m n => ⟨par_xor_value a b m, par_xor_mask a m n, par_or_mask a, fun p hp => ?_⟩
  have hmasks : p.1 &&& p.2 = 0#8 ∧ p.1 ||| p.2 = 0xFF#8 := by
    fin_cases hp <;> exact ⟨rfl, rfl⟩
  obtain ⟨hdisjoint, hcover⟩ := hmasks
  exact ⟨hdisjoint, hcover, par_split a hdisjoint hcover⟩

/-! ## What the masks select (R103) -/

/-- A mask that selects the bit indices with `sel` gives the parity of the value's 1 bits at these indices. -/
theorem par_eq_isOdd_of_selects {mask : Byte} {sel : Nat → Bool} (h : ∀ b ∈ List.range 8, mask.getLsbD b = sel b) (value : Byte) :
    par value mask = isOdd ((List.range 8).filter fun b => value.getLsbD b && sel b).length := by
  rw [par_eq_isOdd, List.filter_congr fun b hb => congrArg (value.getLsbD b && ·) (h b hb)]

theorem par_full (value : Byte) : par value 0xFF#8 = isOdd (popcount value) := by
  rw [par_eq_isOdd_popcount, show 0xFF#8 = BitVec.allOnes 8 from rfl, BitVec.and_allOnes]

/-- Settles O12: each column mask has the bits of the indices it is said to select. -/
theorem masksSelectBitIndices : Obligations.MasksSelectBitIndices := by
  refine fun v => ⟨par_full v, fun p hp => ?_⟩
  have hsel : (∀ b ∈ List.range 8, p.2.1.getLsbD b = !b.testBit p.1) ∧ ∀ b ∈ List.range 8, p.2.2.getLsbD b = b.testBit p.1 := by
    revert p
    decide
  obtain ⟨heven, hodd⟩ := hsel
  exact ⟨par_eq_isOdd_of_selects heven v, par_eq_isOdd_of_selects hodd v⟩

end Sys2Proof.Machine

/-! The statements of 41_hamming_ecc_calculator.md. Every bit of a code is the parity of the 1 bits of the block at the addresses that bit selects
(`getLsbD_ecc`); linearity, the single-bit code, the transparent bytes and the complement relation follow from it (R110 to R123). -/

namespace Sys2Proof

/-! ## Parities of the 1 bits at selected addresses (R9, R120) -/

theorem isOdd_add (m n : Nat) : isOdd (m + n) = (isOdd m ^^ isOdd n) := by
  induction n with
  | zero => exact (Bool.xor_false _).symm
  | succ n ih => rw [← Nat.add_assoc, isOdd_add_one, isOdd_add_one, ih, Bool.xor_not]

/-- The parity of the 1 bits of byte `k` of a block at the selected addresses `8 × k + i`. -/
def selectedParity (sel : Nat → Bool) (k : Nat) (b : Byte) : Bool :=
  isOdd ((List.range 8).filter fun i => b.getLsbD i && sel (8 * k + i)).length

theorem isOdd_onesAt_cons (sel : Nat → Bool) (k : Nat) (b : Byte) (bs : List Byte) :
    isOdd (onesAt sel k (b :: bs)) = (selectedParity sel k b ^^ isOdd (onesAt sel (k + 1) bs)) := isOdd_add _ _

theorem selectedParity_xor (sel : Nat → Bool) (k : Nat) (a b : Byte) :
    selectedParity sel k (a ^^^ b) = (selectedParity sel k a ^^ selectedParity sel k b) := by
  simp only [selectedParity, BitVec.getLsbD_xor, Bool.and_xor_distrib_right]
  exact isOdd_length_filter_xor _ _ _

theorem selectedParity_zero (sel : Nat → Bool) (k : Nat) : selectedParity sel k 0#8 = false := by
  simp [selectedParity, isOdd]

/-- Of the indices below `n`, only `i` can satisfy a condition that includes being `i`. -/
theorem isOdd_length_filter_beq {n i : Nat} (hi : i < n) (f : Nat → Bool) :
    isOdd ((List.range n).filter fun x => f x && x == i).length = f i := by
  have hone : (List.range n).filter (· == i) = [i] := by
    rw [List.filter_beq, List.count_eq_one_of_mem List.nodup_range (List.mem_range.mpr hi), List.replicate_one]
  rw [← List.filter_filter, hone]
  cases h : f i <;> simp [h, isOdd]

theorem getLsbD_oneBit {i : Nat} (hi : i < 8) : ∀ x ∈ List.range 8, (1#8 <<< i).getLsbD x = (x == i) := by
  revert i
  decide

/-- A byte with the one 1 bit `i` has the parity of the selection of that bit. -/
theorem selectedParity_oneBit (sel : Nat → Bool) (k : Nat) {i : Nat} (hi : i < 8) :
    selectedParity sel k (1#8 <<< i) = sel (8 * k + i) := by
  have hbit : ∀ x ∈ List.range 8, ((1#8 <<< i).getLsbD x && sel (8 * k + x)) = (sel (8 * k + x) && x == i) := fun x hx => by
    rw [getLsbD_oneBit hi x hx, Bool.and_comm]
  rw [selectedParity, List.filter_congr hbit]
  exact isOdd_length_filter_beq hi fun x => sel (8 * k + x)

theorem isOdd_onesAt_xorBlocks (sel : Nat → Bool) (k : Nat) {xs ys : List Byte} (h : xs.length = ys.length) :
    isOdd (onesAt sel k (xorBlocks xs ys)) = (isOdd (onesAt sel k xs) ^^ isOdd (onesAt sel k ys)) := by
  induction xs generalizing ys k with
  | nil => cases ys with
    | nil => rfl
    | cons y ys => cases h
  | cons x xs ih => cases ys with
    | nil => cases h
    | cons y ys =>
      have htail := ih (k + 1) (Nat.succ.inj h)
      simp only [xorBlocks, List.zipWith_cons_cons, isOdd_onesAt_cons, selectedParity_xor] at htail ⊢
      simp only [htail, Bool.xor_assoc, Bool.xor_left_comm]

/-- Writing a byte over a zero byte adds its own parity. -/
theorem isOdd_onesAt_set (sel : Nat → Bool) (k : Nat) {bs : List Byte} {n : Nat} (hn : n < bs.length) (v : Byte) :
    isOdd (onesAt sel k (bs.set n v)) = (selectedParity sel (k + n) v ^^ isOdd (onesAt sel k (bs.set n 0#8))) := by
  induction bs generalizing k n with
  | nil => cases hn
  | cons b bs ih => cases n with
    | zero => simp [isOdd_onesAt_cons, selectedParity_zero]
    | succ n =>
      have htail := ih (k + 1) (Nat.lt_of_succ_lt_succ hn)
      rw [Nat.add_assoc, Nat.add_comm 1 n] at htail
      rw [List.set_cons_succ, List.set_cons_succ, isOdd_onesAt_cons, isOdd_onesAt_cons, htail, Bool.xor_left_comm]

/-- Bytes whose selected bits are even in number wherever they stand do not change the parity of the bytes before them. -/
theorem isOdd_onesAt_append_replicate {sel : Nat → Bool} {v : Byte} (hv : ∀ k, selectedParity sel k v = false) (k : Nat) (xs : List Byte)
    (n : Nat) : isOdd (onesAt sel k (xs ++ List.replicate n v)) = isOdd (onesAt sel k xs) := by
  induction xs generalizing k with
  | nil =>
    induction n generalizing k with
    | zero => rfl
    | succ n ih => rw [List.nil_append, List.replicate_succ, isOdd_onesAt_cons, hv, Bool.false_xor]; exact ih (k + 1)
  | cons x xs ih => rw [List.cons_append, isOdd_onesAt_cons, isOdd_onesAt_cons, ih]

theorem isOdd_onesAt_zeros (sel : Nat → Bool) (k n : Nat) : isOdd (onesAt sel k (List.replicate n 0#8)) = false :=
  isOdd_onesAt_append_replicate (fun k => selectedParity_zero sel k) k [] n

/-- The block with one 1 bit has the parity of the selection of that bit's address. -/
theorem isOdd_onesAt_bitBlock (sel : Nat → Bool) {A : Nat} (hA : A < 4096) : isOdd (onesAt sel 0 (bitBlock A)) = sel A := by
  rw [bitBlock, isOdd_onesAt_set sel 0 (by rw [List.length_replicate]; omega), List.set_replicate_self, isOdd_onesAt_zeros,
    Bool.xor_false, selectedParity_oneBit sel _ (Nat.mod_lt A (by decide)), Nat.zero_add, Nat.div_add_mod]

/-! ## The addresses of the 1 bits (R120 (c)) -/

/-- The selected 1 bits are those of the addresses of the 1 bits that are selected. -/
theorem onesAt_eq_length_filter (sel : Nat → Bool) (k : Nat) (bs : List Byte) :
    onesAt sel k bs = ((oneAddresses k bs).filter sel).length := by
  induction bs generalizing k with
  | nil => rfl
  | cons b bs ih =>
    simp only [onesAt, oneAddresses, List.filter_append, List.length_append, List.filter_map, List.length_map, List.filter_filter, ih]
    congr 3
    funext i
    exact Bool.and_comm _ _

theorem length_oneAddresses (k : Nat) (bs : List Byte) : (oneAddresses k bs).length = onesAt (fun _ => true) k bs := by
  rw [onesAt_eq_length_filter, List.filter_true]

/-- The 1 bits that are not selected: all of them less the selected ones. -/
theorem isOdd_onesAt_not (sel : Nat → Bool) (k : Nat) (bs : List Byte) :
    isOdd (onesAt (fun A => !sel A) k bs) = (isOdd (onesAt (fun _ => true) k bs) ^^ isOdd (onesAt sel k bs)) := by
  simp only [onesAt_eq_length_filter, ← isOdd_length_filter_xor, Bool.true_xor]

theorem mem_oneAddresses_lt {A k : Nat} {bs : List Byte} (h : A ∈ oneAddresses k bs) : A < 8 * (k + bs.length) := by
  induction bs generalizing k with
  | nil => cases h
  | cons b bs ih =>
    rw [List.length_cons]
    rcases List.mem_append.mp h with hb | hbs
    · obtain ⟨i, hi, rfl⟩ := List.mem_map.mp hb
      have hi8 := List.mem_range.mp (List.mem_of_mem_filter hi)
      omega
    · have := ih hbs
      omega

/-- Bit `j` of the exclusive or of numbers is the parity of how many of them have bit `j`. -/
theorem testBit_foldr_xor (As : List Nat) (j : Nat) :
    (As.foldr (· ^^^ ·) 0).testBit j = isOdd (As.filter fun A => A.testBit j).length := by
  induction As with
  | nil => exact Nat.zero_testBit j
  | cons A As ih => rw [List.foldr_cons, Nat.testBit_xor, ih, isOdd_length_filter_cons]

end Sys2Proof

namespace Sys2Proof.Machine

/-! ## Column and row parities (R111 to R115) -/

/-- A selection by the bit index, which a mask makes on every byte, is made by that mask on the exclusive or of the bytes. -/
theorem isOdd_onesAt_eq_par_lineParity {sel : Nat → Bool} {mask : Byte} (h : ∀ k v, selectedParity sel k v = par v mask) (k : Nat)
    (bs : List Byte) : isOdd (onesAt sel k bs) = par (lineParity bs) mask := by
  induction bs generalizing k with
  | nil => simp [onesAt, lineParity, par_eq_isOdd, isOdd]
  | cons b bs ih =>
    have hcons : lineParity (b :: bs) = b ^^^ lineParity bs := rfl
    rw [isOdd_onesAt_cons, h, ih, hcons, par_xor_value]

theorem selectedParity_column {g : Nat → Bool} {mask : Byte} (h : ∀ b ∈ List.range 8, mask.getLsbD b = g b) (k : Nat) (v : Byte) :
    selectedParity (fun A => g (A % 8)) k v = par v mask := by
  have hcol : ∀ i ∈ List.range 8, (v.getLsbD i && g ((8 * k + i) % 8)) = (v.getLsbD i && g i) := fun i hi => by
    rw [Nat.mul_add_mod, Nat.mod_eq_of_lt (List.mem_range.mp hi)]
  rw [par_eq_isOdd_of_selects h, selectedParity, List.filter_congr hcol]

theorem isOdd_onesAt_column {g : Nat → Bool} {mask : Byte} (h : ∀ b ∈ List.range 8, mask.getLsbD b = g b) (bs : List Byte) :
    isOdd (onesAt (fun A => g (A % 8)) 0 bs) = par (lineParity bs) mask :=
  isOdd_onesAt_eq_par_lineParity (selectedParity_column h) 0 bs

/-- A selection by the byte index takes all bits of a byte or none. -/
theorem selectedParity_row (f : Nat → Bool) (k : Nat) (v : Byte) : selectedParity (fun A => f (A / 8)) k v = (f k && par v 0xFF#8) := by
  have hrow : ∀ i ∈ List.range 8, (v.getLsbD i && f ((8 * k + i) / 8)) = (v.getLsbD i && f k) := fun i hi => by
    rw [Nat.mul_add_div (by decide), Nat.div_eq_of_lt (List.mem_range.mp hi), Nat.add_zero]
  rw [par_full, selectedParity, List.filter_congr hrow]
  cases f k <;> simp [popcount, isOdd]

theorem isOdd_onesAt_row (f : Nat → Bool) (k : Nat) (bs : List Byte) :
    isOdd (onesAt (fun A => f (A / 8)) k bs) = xorOver f k (byteParities bs) := by
  induction bs generalizing k with
  | nil => rfl
  | cons b bs ih => rw [isOdd_onesAt_cons, selectedParity_row, ih]; rfl

theorem isOdd_oddBytesAt (f : Nat → Bool) (k : Nat) (bs : List Byte) :
    isOdd (oddBytesAt f k bs) = xorOver f k (byteParities bs) := by
  induction bs generalizing k with
  | nil => rfl
  | cons b bs ih =>
    have hbyte : isOdd (if f k && isOdd (popcount b) then 1 else 0) = (f k && par b 0xFF#8) := by
      rw [par_full]
      cases f k && isOdd (popcount b) <;> rfl
    rw [oddBytesAt, isOdd_add, hbyte, ih]
    rfl

/-- The set of iteration `i` that starts at offset 0: every index whose bit `i` is 0 (R115). -/
theorem mod_lt_iff_testBit (i k : Nat) : k % (2 * 2 ^ i) < 2 ^ i ↔ k.testBit i = false := by
  have hlow : k % 2 ^ i < 2 ^ i := Nat.mod_lt k (Nat.two_pow_pos i)
  rw [Nat.testBit_eq_decide_div_mod_eq, Nat.mul_comm 2, Nat.mod_mul]
  rcases Nat.mod_two_eq_zero_or_one (k / 2 ^ i) with h | h <;> simp [h, hlow]

theorem inEvenSet_eq (i k : Nat) : inEvenSet i k = !k.testBit i := by
  simp [inEvenSet, mod_lt_iff_testBit]

theorem inOddSet_eq (i k : Nat) : inOddSet i k = k.testBit i := by
  simp [inOddSet, ← Nat.not_lt, mod_lt_iff_testBit]

/-! ## The two halves (R112, R113, R115) -/

/-- The masks and the sets of one half select the addresses by one of their bits, `c` saying with which value of it. -/
structure HalfSelects (masks : List Byte) (inSet : Nat → Nat → Bool) (c : Bool → Bool) : Prop where
  length : masks.length = 3
  column : ∀ j < 3, ∀ b ∈ List.range 8, (masks.getD j 0#8).getLsbD b = c (b.testBit j)
  row    : ∀ i k, inSet i k = c (k.testBit i)

theorem halfSelects_even : HalfSelects Config.maskEven inEvenSet (! ·) := ⟨rfl, by decide, inEvenSet_eq⟩

theorem halfSelects_odd : HalfSelects Config.maskOdd inOddSet id := ⟨rfl, by decide, inOddSet_eq⟩

theorem testBit_eq_column (c : Bool → Bool) {j : Nat} (hj : j < 3) :
    (fun A : Nat => c (A.testBit j)) = fun A => c ((A % 8).testBit j) := by
  funext A
  rw [show (8 : Nat) = 2 ^ 3 from rfl, Nat.testBit_mod_two_pow, decide_eq_true hj, Bool.true_and]

theorem testBit_eq_row (c : Bool → Bool) (i : Nat) : (fun A : Nat => c (A.testBit (3 + i))) = fun A => c ((A / 8).testBit i) := by
  funext A
  rw [show (8 : Nat) = 2 ^ 3 from rfl, Nat.testBit_div_two_pow, Nat.add_comm]

section Halves

variable {masks : List Byte} {inSet : Nat → Nat → Bool} {c : Bool → Bool} (h : HalfSelects masks inSet c)

include h in
theorem HalfSelects.selectedParity_column {j : Nat} (hj : j < 3) (k : Nat) (v : Byte) :
    selectedParity (fun A => c (A.testBit j)) k v = par v (masks.getD j 0#8) := by
  rw [testBit_eq_column c hj]
  exact Machine.selectedParity_column (h.column j hj) k v

theorem getD_halfBits_column (hlen : masks.length = 3) (block : List Byte) {j : Nat} (hj : j < 3) :
    (halfBits masks inSet block).getD j false = par (lineParity block) (masks.getD j 0#8) := by
  simp [halfBits, List.getD_eq_getElem?_getD, List.getElem?_append, hlen, hj]

theorem getD_halfBits_row (hlen : masks.length = 3) (block : List Byte) {i : Nat} (hi : i < 9) :
    (halfBits masks inSet block).getD (3 + i) false = xorOver (inSet i) 0 (byteParities block) := by
  simp [halfBits, List.getD_eq_getElem?_getD, hlen, hi]

include h in
/-- Bit `j` of a half is the parity of the 1 bits whose address has the half's value in bit `j`. -/
theorem HalfSelects.getLsbD_halfOf (block : List Byte) {j : Nat} (hj : j < 12) :
    (halfOf (halfBits masks inSet block)).getLsbD j = isOdd (onesAt (fun A => c (A.testBit j)) 0 block) := by
  rw [Machine.getLsbD_halfOf _ (by omega)]
  rcases Nat.lt_or_ge j 3 with hcol | hrow
  · rw [getD_halfBits_column h.length block hcol, isOdd_onesAt_eq_par_lineParity (h.selectedParity_column hcol)]
  · obtain ⟨i, rfl⟩ := Nat.exists_eq_add_of_le hrow
    rw [getD_halfBits_row h.length block (by omega), testBit_eq_row, isOdd_onesAt_row fun k => c (k.testBit i)]
    exact congrArg (xorOver · 0 (byteParities block)) (funext (h.row i))

end Halves

/-! ## The bits of a code (R116, R117, R120) -/

/-- The high half of a code is the odd half (R86, R116). -/
theorem getLsbD_ecc_high (block : List Byte) {i : Nat} (hi : i < 16) : (ecc block).getLsbD (16 + i) = (oddHalf block).getLsbD i := by
  simp [ecc, hi, show 16 + i < 32 by omega]

theorem getLsbD_oddHalf_high (block : List Byte) {i : Nat} (h : 12 ≤ i) : (oddHalf block).getLsbD i = false := by
  rcases Nat.lt_or_ge i 16 with hi | hi
  · rw [oddHalf, getLsbD_halfOf _ hi, List.getD_eq_default _ _ (by rw [length_halfBits]; exact h)]
  · exact BitVec.getLsbD_of_ge _ _ hi

theorem getLsbD_ecc_even (block : List Byte) {j : Nat} (hj : j < 12) :
    (ecc block).getLsbD j = isOdd (onesAt (fun A => !A.testBit j) 0 block) :=
  (getLsbD_ecc_low block (by omega)).trans (halfSelects_even.getLsbD_halfOf block hj)

theorem getLsbD_ecc_odd (block : List Byte) {j : Nat} (hj : j < 12) :
    (ecc block).getLsbD (16 + j) = isOdd (onesAt (fun A => A.testBit j) 0 block) :=
  (getLsbD_ecc_high block (by omega)).trans (halfSelects_odd.getLsbD_halfOf block hj)

theorem getLsbD_ecc_even_zero (block : List Byte) {j : Nat} (hj : j < 4) : (ecc block).getLsbD (12 + j) = false :=
  (getLsbD_ecc_low block (by omega)).trans (getLsbD_evenHalf_high block (by omega))

theorem getLsbD_ecc_odd_zero (block : List Byte) {j : Nat} (hj : j < 4) : (ecc block).getLsbD (28 + j) = false := by
  rw [show 28 + j = 16 + (12 + j) by omega]
  exact (getLsbD_ecc_high block (by omega)).trans (getLsbD_oddHalf_high block (by omega))

theorem exec_ecc {block : List Byte} (h : block.length = 512) (s : State) :
    exec (.ecc block) s = .next (s.respond (.code (ecc block))) := if_pos h

/-- Settles O13: the bits of the halves are address parities, and no entry stands in the bits above them. -/
theorem eccAnswersAddressParities : Obligations.EccAnswersAddressParities := fun block s h =>
  ⟨ecc block, exec_ecc h s, fun _ hj => getLsbD_ecc_odd block hj, fun _ hj => getLsbD_ecc_even block hj,
    fun _ hj => ⟨getLsbD_ecc_even_zero block hj, getLsbD_ecc_odd_zero block hj⟩⟩

/-! ## The steps of the calculator (R111 to R115) -/

theorem getLsbD_ecc_evenColumn (block : List Byte) {j : Nat} (hj : j < 3) :
    (ecc block).getLsbD j = par (lineParity block) (Config.maskEven.getD j 0#8) := by
  rw [getLsbD_ecc_low block (by omega), evenHalf, getLsbD_halfOf _ (by omega), getD_halfBits_column rfl block hj]

theorem getLsbD_ecc_oddColumn (block : List Byte) {j : Nat} (hj : j < 3) :
    (ecc block).getLsbD (16 + j) = par (lineParity block) (Config.maskOdd.getD j 0#8) := by
  rw [getLsbD_ecc_high block (by omega), oddHalf, getLsbD_halfOf _ (by omega), getD_halfBits_column rfl block hj]

/-- A mask of one bit reads that bit. -/
theorem par_oneBit (v : Byte) {b : Nat} (hb : b < 8) : par v (1#8 <<< b) = v.getLsbD b := by
  rw [par_eq_isOdd_of_selects (getLsbD_oneBit hb), isOdd_length_filter_beq hb]

/-- Bit `b` of the line parity is the parity of bit column `b` (R111). -/
theorem getLsbD_lineParity (block : List Byte) {b : Nat} (hb : b < 8) :
    (lineParity block).getLsbD b = isOdd (onesAt (fun A => A % 8 == b) 0 block) := by
  rw [isOdd_onesAt_column (getLsbD_oneBit hb), par_oneBit _ hb]

/-- Settles O14: `L` is the line parity, the masks are those of steps 2 and 3, and a bit below 3 of an address is one of its bit index. -/
theorem eccColumnParities : Obligations.EccColumnParities := by
  refine fun block _ => ⟨lineParity block, fun b hb => getLsbD_lineParity block hb,
    getLsbD_ecc_evenColumn block (j := 2) (by decide), getLsbD_ecc_evenColumn block (j := 1) (by decide),
    getLsbD_ecc_evenColumn block (j := 0) (by decide), getLsbD_ecc_oddColumn block (j := 2) (by decide),
    getLsbD_ecc_oddColumn block (j := 1) (by decide), getLsbD_ecc_oddColumn block (j := 0) (by decide), fun j hj => ⟨?_, ?_⟩⟩
  · rw [getLsbD_ecc_even block (by omega), testBit_eq_column (! ·) hj]
  · exact (getLsbD_ecc_odd block (by omega)).trans (congrArg (isOdd <| onesAt · 0 block) (testBit_eq_column id hj))

theorem getLsbD_ecc_evenRow (block : List Byte) {i : Nat} (hi : i < 9) :
    (ecc block).getLsbD (3 + i) = isOdd (oddBytesAt (inEvenSet i) 0 block) := by
  rw [getLsbD_ecc_low block (by omega), evenHalf, getLsbD_halfOf _ (by omega), getD_halfBits_row rfl block hi, isOdd_oddBytesAt]

theorem getLsbD_ecc_oddRow (block : List Byte) {i : Nat} (hi : i < 9) :
    (ecc block).getLsbD (16 + (3 + i)) = isOdd (oddBytesAt (inOddSet i) 0 block) := by
  rw [getLsbD_ecc_high block (by omega), oddHalf, getLsbD_halfOf _ (by omega), getD_halfBits_row rfl block hi, isOdd_oddBytesAt]

/-- Of `m` stretches of `2 × n` indices, the first `n` of each are in the first half. -/
theorem length_filter_firstHalves (n m : Nat) : ((List.range (2 * n * m)).filter fun k => k % (2 * n) < n).length = n * m := by
  induction m with
  | zero => rfl
  | succ m ih =>
    have hfirst : (List.range n).filter (fun x => x % (2 * n) < n) = List.range n := List.filter_eq_self.mpr fun x hx => by
      have hxn := List.mem_range.mp hx
      simpa [Nat.mod_eq_of_lt (show x < 2 * n by omega)] using hxn
    have hsecond : (List.range n).filter (fun x => (n + x) % (2 * n) < n) = [] := List.filter_eq_nil_iff.mpr fun x hx => by
      have hxn := List.mem_range.mp hx
      simp [Nat.mod_eq_of_lt (show n + x < 2 * n by omega)]
    have hstretch : ((List.range (2 * n)).filter fun x => x % (2 * n) < n).length = n := by
      rw [Nat.two_mul n, List.range_add, ← Nat.two_mul, List.filter_append, hfirst, List.filter_map]
      simp only [Function.comp_def, hsecond, List.map_nil, List.append_nil, List.length_range]
    simp only [Nat.mul_succ, List.range_add, List.filter_append, List.filter_map, Function.comp_def, Nat.mul_add_mod, List.length_append,
      List.length_map, ih, hstretch]

theorem length_evenSet {i : Nat} (hi : i < 9) : ((List.range 512).filter (inEvenSet i)).length = 256 := by
  have hpow : 2 ^ i * 2 ^ (8 - i) = 256 := by rw [← Nat.pow_add, Nat.add_sub_cancel' (by omega)]
  have hall : 512 = 2 * 2 ^ i * 2 ^ (8 - i) := by rw [Nat.mul_assoc, hpow]
  rw [hall]
  exact (length_filter_firstHalves (2 ^ i) (2 ^ (8 - i))).trans hpow

theorem length_oddSet {i : Nat} (hi : i < 9) : ((List.range 512).filter (inOddSet i)).length = 256 := by
  have hsplit := List.length_eq_length_filter_add (l := List.range 512) (inEvenSet i)
  have hodd : (fun k => !inEvenSet i k) = inOddSet i := by
    funext k
    rw [inEvenSet_eq, inOddSet_eq, Bool.not_not]
  rw [hodd, length_evenSet hi, List.length_range] at hsplit
  omega

/-- Settles O15: the row parities are exclusive ors of byte parities over the two sets of each iteration, which split the index by its bit `i`. -/
theorem eccRowParities : Obligations.EccRowParities := fun block _ i hi =>
  ⟨getLsbD_ecc_evenRow block hi, getLsbD_ecc_oddRow block hi, mod_lt_iff_testBit i, length_evenSet hi, length_oddSet hi⟩

/-! ## A code as a parity over addresses (R120) -/

/-- An address has twelve bits. -/
theorem testBit_address_high {A : Nat} (hA : A < 4096) {j : Nat} (hj : 12 ≤ j) : A.testBit j = false :=
  Nat.testBit_lt_two_pow (hA.trans_le (Nat.pow_le_pow_right (n := 2) (by decide) hj))

/-- The addresses that bit `i` of a code is the parity of: none for the bits that are always 0 (R117). -/
def codeBitSelects (i A : Nat) : Bool :=
  if i < 16 then decide (i < 12) && !A.testBit i else decide (i < 28) && A.testBit (i - 16)

theorem codeBitSelects_even {j : Nat} (hj : j < 12) : codeBitSelects j = fun A => !A.testBit j := by
  funext A
  simp [codeBitSelects, hj, show j < 16 by omega]

theorem codeBitSelects_odd {j : Nat} (hj : j < 12) : codeBitSelects (16 + j) = fun A => A.testBit j := by
  funext A
  simp [codeBitSelects, show 16 + j < 28 by omega]

theorem codeBitSelects_even_zero {j : Nat} (hj : j < 4) : codeBitSelects (12 + j) = fun _ => false := by
  funext A
  simp [codeBitSelects, show 12 + j < 16 by omega]

theorem codeBitSelects_odd_zero (j : Nat) : codeBitSelects (28 + j) = fun _ => false := by
  funext A
  simp [codeBitSelects, show ¬ 28 + j < 16 by omega]

/-- The four fields of a code: the two halves and the bits above each. -/
theorem codeBit_cases {P : Nat → Prop} (heven : ∀ j < 12, P j) (hodd : ∀ j < 12, P (16 + j)) (hevenZero : ∀ j < 4, P (12 + j))
    (hoddZero : ∀ j < 4, P (28 + j)) : ∀ i < 32, P i := fun i hi => by
  rcases Nat.lt_or_ge i 12 with h12 | h12
  · exact heven i h12
  rcases Nat.lt_or_ge i 16 with h16 | h16
  · exact Nat.add_sub_of_le h12 ▸ hevenZero (i - 12) (by omega)
  rcases Nat.lt_or_ge i 28 with h28 | h28
  · exact Nat.add_sub_of_le h16 ▸ hodd (i - 16) (by omega)
  · exact Nat.add_sub_of_le h28 ▸ hoddZero (i - 28) (by omega)

theorem isOdd_onesAt_none (k : Nat) (bs : List Byte) : isOdd (onesAt (fun _ => false) k bs) = false := by
  rw [onesAt_eq_length_filter, List.filter_false]
  rfl

/-- Every bit of a code is the parity of the 1 bits at the addresses it selects. -/
theorem getLsbD_ecc (block : List Byte) : ∀ i < 32, (ecc block).getLsbD i = isOdd (onesAt (codeBitSelects i) 0 block) := by
  refine codeBit_cases (fun j hj => ?_) (fun j hj => ?_) (fun j hj => ?_) (fun j hj => ?_)
  · rw [codeBitSelects_even hj, getLsbD_ecc_even block hj]
  · rw [codeBitSelects_odd hj, getLsbD_ecc_odd block hj]
  · rw [codeBitSelects_even_zero hj, isOdd_onesAt_none, getLsbD_ecc_even_zero block hj]
  · rw [codeBitSelects_odd_zero, isOdd_onesAt_none, getLsbD_ecc_odd_zero block hj]

/-- Blocks that agree in the parity of every bit of a code have the same code. -/
theorem ecc_congr {xs ys : List Byte}
    (h : ∀ i < 32, isOdd (onesAt (codeBitSelects i) 0 xs) = isOdd (onesAt (codeBitSelects i) 0 ys)) : ecc xs = ecc ys :=
  BitVec.eq_of_getLsbD_eq fun i hi => by rw [getLsbD_ecc xs i hi, getLsbD_ecc ys i hi, h i hi]

theorem ecc_xorBlocks {xs ys : List Byte} (h : xs.length = ys.length) : ecc (xorBlocks xs ys) = ecc xs ^^^ ecc ys :=
  BitVec.eq_of_getLsbD_eq fun i hi => by
    rw [BitVec.getLsbD_xor, getLsbD_ecc _ i hi, getLsbD_ecc _ i hi, getLsbD_ecc _ i hi, isOdd_onesAt_xorBlocks _ 0 h]

theorem ecc_zeros (n : Nat) : ecc (List.replicate n 0#8) = 0#32 :=
  BitVec.eq_of_getLsbD_eq fun i hi => by rw [getLsbD_ecc _ i hi, isOdd_onesAt_zeros, BitVec.getLsbD_zero]

/-- Settles O17: no parity counts a 1 bit. -/
theorem eccOfZeroBlockIsZero : Obligations.EccOfZeroBlockIsZero := ecc_zeros 512

/-! ## The code of one address (R120 (b)) -/

theorem getLsbD_singleBitCode {A : Nat} (hA : A < 4096) : ∀ i < 32, (singleBitCode A).getLsbD i = codeBitSelects i A := by
  have hones : ∀ i < 32, (0xFFF#32).getLsbD i = decide (i < 12) := by decide
  have hbit : ∀ i < 32, (singleBitCode A).getLsbD i = (!decide (i < 16) && A.testBit (i - 16) || (A.testBit i ^^ decide (i < 12))) :=
    fun i hi => by
      simp only [singleBitCode, BitVec.getLsbD_or, BitVec.getLsbD_shiftLeft, BitVec.getLsbD_xor, BitVec.getLsbD_ofNat, hones i hi,
        decide_eq_true hi, decide_eq_true (show i - 16 < 32 by omega), Bool.true_and]
  refine codeBit_cases (fun j hj => ?_) (fun j hj => ?_) (fun j hj => ?_) (fun j hj => ?_) <;> rw [hbit _ (by omega)]
  · simp [codeBitSelects_even hj, hj, show j < 16 by omega]
  · simp [codeBitSelects_odd hj, testBit_address_high hA (j := 16 + j) (by omega), show ¬ 16 + j < 12 by omega]
  · simp [codeBitSelects_even_zero hj, testBit_address_high hA (j := 12 + j) (by omega), show 12 + j < 16 by omega]
  · simp [codeBitSelects_odd_zero, testBit_address_high hA (j := 28 + j) (by omega),
      testBit_address_high hA (j := 28 + j - 16) (by omega), show ¬ 28 + j < 12 by omega]

theorem ecc_bitBlock {A : Nat} (hA : A < 4096) : ecc (bitBlock A) = singleBitCode A :=
  BitVec.eq_of_getLsbD_eq fun i hi => by rw [getLsbD_ecc _ i hi, isOdd_onesAt_bitBlock _ hA, getLsbD_singleBitCode hA i hi]

theorem length_bitBlock (A : Nat) : (bitBlock A).length = 512 := by rw [bitBlock, List.length_set, List.length_replicate]

theorem getLsbD_singleBitCode_even {A : Nat} (hA : A < 4096) {j : Nat} (hj : j < 12) : (singleBitCode A).getLsbD j = !A.testBit j := by
  rw [getLsbD_singleBitCode hA j (by omega), codeBitSelects_even hj]

theorem getLsbD_singleBitCode_odd {A : Nat} (hA : A < 4096) {j : Nat} (hj : j < 12) :
    (singleBitCode A).getLsbD (16 + j) = A.testBit j := by
  rw [getLsbD_singleBitCode hA _ (by omega), codeBitSelects_odd hj]

/-! ## The bits that are always 0 (R117) -/

theorem ecc_and_highNibbles (block : List Byte) : ecc block &&& 0xF000F000#32 = 0#32 := by
  refine BitVec.eq_of_getLsbD_eq (codeBit_cases (fun j hj => ?_) (fun j hj => ?_) (fun j hj => ?_) (fun j hj => ?_)) <;>
    rw [BitVec.getLsbD_and, BitVec.getLsbD_zero]
  · have hmask : ∀ j < 12, (0xF000F000#32).getLsbD j = false := by decide
    rw [hmask j hj, Bool.and_false]
  · have hmask : ∀ j < 12, (0xF000F000#32).getLsbD (16 + j) = false := by decide
    rw [hmask j hj, Bool.and_false]
  · rw [getLsbD_ecc_even_zero block hj, Bool.false_and]
  · rw [getLsbD_ecc_odd_zero block hj, Bool.false_and]

/-- Settles O16: the single 1 bits at addresses 0 and 4095 set every bit of the even half and of the odd half. -/
theorem eccAlwaysZeroBits : Obligations.EccAlwaysZeroBits := by
  refine ⟨fun block _ => ⟨?_, ?_, ecc_and_highNibbles block⟩, fun j hj =>
    ⟨⟨bitBlock 0, length_bitBlock 0, ?_⟩, bitBlock 4095, length_bitBlock 4095, ?_⟩⟩
  · ext i hi
    simpa using getLsbD_ecc_even_zero block hi
  · ext i hi
    simpa using getLsbD_ecc_odd_zero block hi
  · rw [ecc_bitBlock (by decide), getLsbD_singleBitCode_even (by decide) hj, Nat.zero_testBit]
    rfl
  · rw [ecc_bitBlock (by decide), getLsbD_singleBitCode_odd (by decide) hj]
    exact (Nat.testBit_two_pow_sub_one 12 j).trans (decide_eq_true hj)

/-! ## The two halves together (R120 (c), R123) -/

/-- The odd half of a code is the exclusive or of the addresses of the 1 bits. -/
theorem extractLsb'_ecc_odd {block : List Byte} (h : block.length = 512) :
    (ecc block).extractLsb' 16 16 = BitVec.ofNat 16 ((oneAddresses 0 block).foldr (· ^^^ ·) 0) := by
  refine BitVec.eq_of_getLsbD_eq fun j hj => ?_
  rw [BitVec.getLsbD_extractLsb', BitVec.getLsbD_ofNat, testBit_foldr_xor, decide_eq_true hj, Bool.true_and, Bool.true_and]
  rcases Nat.lt_or_ge j 12 with hlow | hhigh
  · rw [getLsbD_ecc_odd block hlow, onesAt_eq_length_filter]
  · have hnone : (oneAddresses 0 block).filter (fun A => A.testBit j) = [] :=
      List.filter_eq_nil_iff.mpr fun A hA => by
        have hlt := mem_oneAddresses_lt hA
        simp [testBit_address_high (show A < 4096 by omega) hhigh]
    rw [hnone, show 16 + j = 28 + (j - 12) by omega, getLsbD_ecc_odd_zero block (by omega)]
    rfl

/-- The halves differ in all twelve bits or in none, by the parity of the number of 1 bits. -/
theorem evenHalf_xor_oddHalf (block : List Byte) :
    (ecc block).extractLsb' 0 16 ^^^ (ecc block).extractLsb' 16 16 =
      if isOdd (onesAt (fun _ => true) 0 block) then 0x0FFF#16 else 0#16 := by
  have hones : ∀ j < 16, (0x0FFF#16).getLsbD j = decide (j < 12) := by decide
  have hright : ∀ j < 16, (if isOdd (onesAt (fun _ => true) 0 block) then 0x0FFF#16 else 0#16).getLsbD j =
      (isOdd (onesAt (fun _ => true) 0 block) && decide (j < 12)) := fun j hj => by
    cases isOdd (onesAt (fun _ => true) 0 block) <;> simp [hones j hj]
  refine BitVec.eq_of_getLsbD_eq fun j hj => ?_
  rw [hright j hj, BitVec.getLsbD_xor, BitVec.getLsbD_extractLsb', BitVec.getLsbD_extractLsb', decide_eq_true hj, Bool.true_and,
    Bool.true_and, Nat.zero_add]
  rcases Nat.lt_or_ge j 12 with hlow | hhigh
  · rw [getLsbD_ecc_even block hlow, getLsbD_ecc_odd block hlow, isOdd_onesAt_not, Bool.xor_assoc, Bool.xor_self, decide_eq_true hlow,
      Bool.xor_false, Bool.and_true]
  · rw [decide_eq_false (by omega), Bool.and_false, show 16 + j = 28 + (j - 12) by omega, getLsbD_ecc_odd_zero block (by omega),
      ← Nat.add_sub_of_le hhigh, getLsbD_ecc_even_zero block (by omega)]
    rfl

/-- Settles O18: parities are linear, one 1 bit has the parities its address selects, and the halves follow from the addresses. -/
theorem eccIsXorOfAddresses : Obligations.EccIsXorOfAddresses := by
  refine ⟨fun x y hx hy => ecc_xorBlocks (hx.trans hy.symm), fun A hA => ecc_bitBlock hA, fun block h => ⟨extractLsb'_ecc_odd h, ?_⟩⟩
  have hparity : (if (oneAddresses 0 block).length % 2 = 1 then 0x0FFF#16 else 0#16) =
      if isOdd (onesAt (fun _ => true) 0 block) then 0x0FFF#16 else 0#16 := by
    rw [length_oneAddresses]
    simp only [isOdd, beq_iff_eq]
  rw [hparity, ← evenHalf_xor_oddHalf, BitVec.xor_comm (BitVec.extractLsb' 0 16 _), ← BitVec.xor_assoc, BitVec.xor_self, BitVec.zero_xor]

theorem parityOfBlock_eq_par (block : List Byte) : isOdd (onesAt (fun _ => true) 0 block) = par (lineParity block) 0xFF#8 :=
  isOdd_onesAt_column (g := fun _ => true) (by decide) block

theorem parityOfBlock_eq_oddBytes (block : List Byte) :
    isOdd (onesAt (fun _ => true) 0 block) = isOdd (oddBytesAt (fun _ => true) 0 block) :=
  (isOdd_onesAt_row (fun _ => true) 0 block).trans (isOdd_oddBytesAt (fun _ => true) 0 block).symm

/-- Settles O21: at each bit the two halves split all 1 bits, whose parity is that of all columns and that of all rows. -/
theorem eccComplementRelation : Obligations.EccComplementRelation := fun block _ =>
  ⟨evenHalf_xor_oddHalf block, parityOfBlock_eq_par block, parityOfBlock_eq_oddBytes block⟩

/-! ## Flipping one bit (R121) -/

/-- The 1 bits of a code whose always-zero bits are 0 are those of its two halves. -/
theorem popcount_eq_halves {c : Code} (hevenZero : ∀ j < 4, c.getLsbD (12 + j) = false) (hoddZero : ∀ j < 4, c.getLsbD (28 + j) = false) :
    popcount c = ((List.range 12).filter fun j => c.getLsbD j).length + ((List.range 12).filter fun j => c.getLsbD (16 + j)).length := by
  have hrange : List.range 32 = List.range 12 ++ (List.range 4).map (12 + ·) ++ (List.range 12).map (16 + ·) ++
      (List.range 4).map (28 + ·) := rfl
  have hzero : ∀ n, (∀ j < 4, c.getLsbD (n + j) = false) → ((List.range 4).filter fun j => c.getLsbD (n + j)) = [] := fun n hn =>
    List.filter_eq_nil_iff.mpr fun j hj => by simp [hn j (List.mem_range.mp hj)]
  simp only [popcount, hrange, List.filter_append, List.filter_map, List.length_append, List.length_map, Function.comp_def,
    hzero 12 hevenZero, hzero 28 hoddZero, List.length_nil, Nat.add_zero]

/-- Every address bit is 1 in one of the two halves. -/
theorem popcount_singleBitCode {A : Nat} (hA : A < 4096) : popcount (singleBitCode A) = 12 := by
  have hevenZero : ∀ j < 4, (singleBitCode A).getLsbD (12 + j) = false := fun j hj => by
    rw [getLsbD_singleBitCode hA _ (by omega), codeBitSelects_even_zero hj]
  have hoddZero : ∀ j < 4, (singleBitCode A).getLsbD (28 + j) = false := fun j hj => by
    rw [getLsbD_singleBitCode hA _ (by omega), codeBitSelects_odd_zero]
  have heven : (List.range 12).filter (fun j => (singleBitCode A).getLsbD j) = (List.range 12).filter fun j => !A.testBit j :=
    List.filter_congr fun j hj => getLsbD_singleBitCode_even hA (List.mem_range.mp hj)
  have hodd : (List.range 12).filter (fun j => (singleBitCode A).getLsbD (16 + j)) = (List.range 12).filter fun j => A.testBit j :=
    List.filter_congr fun j hj => getLsbD_singleBitCode_odd hA (List.mem_range.mp hj)
  rw [popcount_eq_halves hevenZero hoddZero, heven, hodd, Nat.add_comm, ← List.length_eq_length_filter_add, List.length_range]

theorem extractLsb'_singleBitCode_odd {A : Nat} (hA : A < 4096) : (singleBitCode A).extractLsb' 16 16 = BitVec.ofNat 16 A := by
  refine BitVec.eq_of_getLsbD_eq fun j hj => ?_
  rw [BitVec.getLsbD_extractLsb', BitVec.getLsbD_ofNat, decide_eq_true hj, Bool.true_and, Bool.true_and]
  rcases Nat.lt_or_ge j 12 with hlow | hhigh
  · exact getLsbD_singleBitCode_odd hA hlow
  · rw [getLsbD_singleBitCode hA _ (by omega), show 16 + j = 28 + (j - 12) by omega, codeBitSelects_odd_zero, testBit_address_high hA hhigh]

/-- Settles O19: the flipped block is the exclusive or with a single 1 bit, whose code holds the address and its complement. -/
theorem eccSingleBitSensitivity : Obligations.EccSingleBitSensitivity := by
  refine fun block A h hA => ⟨?_, popcount_singleBitCode hA, fun j hj => ?_, extractLsb'_singleBitCode_odd hA⟩
  · rw [ecc_xorBlocks (h.trans (length_bitBlock A).symm), ecc_bitBlock hA, BitVec.xor_comm (ecc block), BitVec.xor_assoc, BitVec.xor_self,
      BitVec.xor_zero]
  · rw [getLsbD_singleBitCode_even hA hj, getLsbD_singleBitCode_odd hA hj]

/-! ## Transparent bytes (R122) -/

/-- The six column masks of a byte, as R122 lists them. -/
def columnMasks : List Byte := [0x0F#8, 0x33#8, 0x55#8, 0xF0#8, 0xCC#8, 0xAA#8]

/-- A byte value whose six column parities are 0 (R122). -/
abbrev Transparent (v : Byte) : Prop := ∀ m ∈ columnMasks, par v m = false

/-- The even and the odd mask of one bit split the byte. -/
theorem Transparent.par_full {v : Byte} (hv : Transparent v) : par v 0xFF#8 = false := by
  rw [← par_split v (show 0x0F#8 &&& 0xF0#8 = 0#8 from rfl) rfl, hv _ (by decide), hv _ (by decide)]
  rfl

/-- A transparent byte contributes to no bit of either half. -/
theorem Transparent.selectedParity_testBit {v : Byte} (hv : Transparent v) {masks : List Byte} {inSet : Nat → Nat → Bool} {c : Bool → Bool}
    (h : HalfSelects masks inSet c) (hmasks : ∀ j < 3, masks.getD j 0#8 ∈ columnMasks) (j k : Nat) :
    selectedParity (fun A => c (A.testBit j)) k v = false := by
  rcases Nat.lt_or_ge j 3 with hcol | hrow
  · rw [h.selectedParity_column hcol, hv _ (hmasks j hcol)]
  · obtain ⟨i, rfl⟩ := Nat.exists_eq_add_of_le hrow
    rw [testBit_eq_row, selectedParity_row fun k => c (k.testBit i), hv.par_full, Bool.and_false]

/-- A transparent byte contributes to no bit of a code, wherever it stands. -/
theorem Transparent.selectedParity_codeBit {v : Byte} (hv : Transparent v) (k : Nat) :
    ∀ i < 32, selectedParity (codeBitSelects i) k v = false := by
  have hnone : selectedParity (fun _ => false) k v = false := by simp [selectedParity, isOdd]
  refine codeBit_cases (fun j hj => ?_) (fun j hj => ?_) (fun j hj => ?_) (fun j hj => ?_)
  · rw [codeBitSelects_even hj, hv.selectedParity_testBit halfSelects_even (by decide)]
  · rw [codeBitSelects_odd hj]
    exact hv.selectedParity_testBit halfSelects_odd (by decide) j k
  · rw [codeBitSelects_even_zero hj, hnone]
  · rw [codeBitSelects_odd_zero, hnone]

theorem Transparent.ecc_set {v : Byte} (hv : Transparent v) {block : List Byte} {k : Nat} (hk : k < block.length) :
    ecc (block.set k v) = ecc (block.set k 0#8) :=
  ecc_congr fun i hi => by rw [isOdd_onesAt_set _ 0 hk, hv.selectedParity_codeBit _ i hi, Bool.false_xor]

theorem transparent_zero : Transparent 0x00#8 := by decide

theorem transparent_fill : Transparent 0xFF#8 := by decide

/-- Padding with one transparent byte or with another gives the same code. -/
theorem Transparent.ecc_append_replicate {v w : Byte} (hv : Transparent v) (hw : Transparent w) (xs : List Byte) (n : Nat) :
    ecc (xs ++ List.replicate n v) = ecc (xs ++ List.replicate n w) :=
  ecc_congr fun i hi => by
    rw [isOdd_onesAt_append_replicate fun k => hv.selectedParity_codeBit k i hi,
      isOdd_onesAt_append_replicate fun k => hw.selectedParity_codeBit k i hi]

/-- Each column parity of a byte is its contribution to one bit of a code. -/
theorem exists_codeBit_of_columnMask (v : Byte) : ∀ m ∈ columnMasks, ∃ i < 32, ∀ k, selectedParity (codeBitSelects i) k v = par v m := by
  have hmask : ∀ m ∈ columnMasks, ∃ j < 3, m = Config.maskEven.getD j 0#8 ∨ m = Config.maskOdd.getD j 0#8 := by decide
  intro m hm
  obtain ⟨j, hj, rfl | rfl⟩ := hmask m hm
  · refine ⟨j, by omega, fun k => ?_⟩
    rw [codeBitSelects_even (by omega), halfSelects_even.selectedParity_column hj]
  · refine ⟨16 + j, by omega, fun k => ?_⟩
    rw [codeBitSelects_odd (by omega)]
    exact halfSelects_odd.selectedParity_column hj k v

/-- A byte value that changes the code of a block no more than a zero byte does is transparent. -/
theorem transparent_of_ecc_set {v : Byte} {block : List Byte} {k : Nat} (hk : k < block.length)
    (h : ecc (block.set k v) = ecc (block.set k 0#8)) : Transparent v := fun m hm => by
  obtain ⟨i, hi, hcontribution⟩ := exists_codeBit_of_columnMask v m hm
  have hbit := congrArg (·.getLsbD i) h
  simp only [getLsbD_ecc _ i hi, isOdd_onesAt_set _ 0 hk v, hcontribution] at hbit
  exact Bool.xor_left_inj.mp (hbit.trans (Bool.false_xor _).symm)

theorem ecc_fillBlock : ecc (List.replicate 512 0xFF#8) = 0#32 :=
  (transparent_fill.ecc_append_replicate transparent_zero [] 512).trans (ecc_zeros 512)

/-- Settles O20: a byte's contributions to the bits of a code are its column parities and, under a row's selection, its own parity. -/
theorem eccTransparentBytes : Obligations.EccTransparentBytes := by
  refine ⟨fun v => ⟨fun h => ?_, fun hv block k hlen hk => ?_⟩, fun v hv => Transparent.par_full hv, by decide, ecc_fillBlock, ?_,
    fun xs n _ => transparent_fill.ecc_append_replicate transparent_zero xs n⟩
  · exact transparent_of_ecc_set (by rw [List.length_replicate]; decide) (h (List.replicate 512 0#8) 0 List.length_replicate (by decide))
  · exact Transparent.ecc_set hv (hlen ▸ hk)
  · rw [ecc_fillBlock]
    rfl

end Sys2Proof.Machine


/-! The statements of 42_block_encoder.md. `ENC` moves fields of the code (`enc_eq_fields`): what is truncated, the inverse on calculator codes and the
linearity follow from which fields it reads (R130 to R134). -/

namespace Sys2Proof.Machine

/-! ## The response of `ENC` (R84, R130) -/

theorem exec_enc (code : Code) (s : State) : exec (.enc code) s = .next (s.respond (.triple (packTriple (enc code)))) := rfl

theorem packTriple_e0 (e : Byte × Byte × Byte) : (packTriple e).extractLsb' 0 8 = e.1 := BitVec.extractLsb'_append_eq_right

theorem packTriple_e1 (e : Byte × Byte × Byte) : (packTriple e).extractLsb' 8 8 = e.2.1 :=
  (BitVec.extractLsb'_append_eq_of_le (by decide)).trans BitVec.extractLsb'_append_eq_right

theorem packTriple_e2 (e : Byte × Byte × Byte) : (packTriple e).extractLsb' 16 8 = e.2.2 :=
  (BitVec.extractLsb'_append_eq_of_le (by decide)).trans BitVec.extractLsb'_append_eq_left

theorem toNat_codeByte (code : Code) (n : Nat) : (codeByte code n).toNat = code.toNat >>> (8 * n) % 2 ^ 8 := BitVec.extractLsb'_toNat ..

/-- A byte of a code in the masked form of R130. -/
theorem setWidth_codeByte (code : Code) (n : Nat) : (codeByte code n).setWidth 32 = (code >>> (8 * n)) &&& 0xFF#32 := by
  refine BitVec.eq_of_toNat_eq ?_
  rw [BitVec.toNat_and, BitVec.toNat_ushiftRight, show (0xFF#32).toNat = 2 ^ 8 - 1 from rfl, Nat.and_two_pow_sub_one_eq_mod,
    BitVec.toNat_setWidth_of_le (by decide), toNat_codeByte]

/-- The truncation to 8 bits leaves of `p[3] << 4` what a shift within the byte leaves (R131). -/
theorem encThird_eq_or (p1 p3 : Byte) : encThird p1 p3 = p1 ||| p3 <<< 4 := by
  rw [encThird, BitVec.setWidth_or, BitVec.setWidth_shiftLeft_of_le (by decide), BitVec.setWidth_setWidth_of_le _ (by decide),
    BitVec.setWidth_setWidth_of_le _ (by decide), BitVec.setWidth_eq, BitVec.setWidth_eq]

/-- The shifted `p[3]` in the masked form of R130. -/
theorem setWidth_codeByte_shiftLeft (code : Code) : (codeByte code 3 <<< 4).setWidth 32 = (code >>> 20) &&& 0xF0#32 := by
  have hmask : ∀ i < 32, (0xF0#32).getLsbD i = (decide (i < 8) && !decide (i < 4)) := by decide
  refine BitVec.eq_of_getLsbD_eq fun i hi => ?_
  rw [BitVec.getLsbD_and, hmask i hi, BitVec.getLsbD_setWidth, BitVec.getLsbD_shiftLeft, BitVec.getLsbD_ushiftRight, decide_eq_true hi,
    Bool.true_and, Bool.and_comm]
  by_cases hfield : 4 ≤ i ∧ i < 8
  · obtain ⟨j, rfl⟩ := Nat.exists_eq_add_of_le hfield.1
    rw [Nat.add_sub_cancel_left, codeByte, BitVec.getLsbD_extractLsb', decide_eq_true (show j < 8 by omega), Bool.true_and,
      show 20 + (4 + j) = 8 * 3 + j by omega]
  · have hnone : (decide (i < 8) && !decide (i < 4)) = false := by
      simp only [Bool.and_eq_false_iff, Bool.not_eq_false', decide_eq_false_iff_not, decide_eq_true_eq]
      omega
    rw [hnone, Bool.and_false, Bool.and_false]

/-- Settles O22: the word decodes by the round trip, and each byte of the response is a byte of the code, the third with `p[3]` shifted in. -/
theorem encInterleavesBytes : Obligations.EncInterleavesBytes := by
  refine fun code s => ⟨decodeEncodeRoundTrip (.enc code) rfl, packTriple (enc code), exec_enc code s, ?_, ?_, ?_⟩
  · rw [packTriple_e0]
    exact setWidth_codeByte code 0
  · rw [packTriple_e1]
    exact setWidth_codeByte code 2
  · rw [packTriple_e2, enc, encThird_eq_or, BitVec.setWidth_or, setWidth_codeByte, setWidth_codeByte_shiftLeft]

/-! ## The fields `ENC` reads (R131) -/

/-- A byte is its two nibbles. -/
theorem append_nibbles (p : Byte) : p.extractLsb' 4 4 ++ p.extractLsb' 0 4 = p := BitVec.extractLsb'_append_extractLsb'

/-- A code is its four bytes (R51). -/
theorem append_codeBytes (code : Code) : codeByte code 3 ++ codeByte code 2 ++ codeByte code 1 ++ codeByte code 0 = code := by
  have h3 : codeByte code 3 ++ codeByte code 2 = code.extractLsb' 16 16 := BitVec.extractLsb'_append_extractLsb'_eq_extractLsb' rfl
  have h2 : code.extractLsb' 16 16 ++ codeByte code 1 = code.extractLsb' 8 24 := BitVec.extractLsb'_append_extractLsb'_eq_extractLsb' rfl
  rw [h3, h2]
  exact BitVec.extractLsb'_append_extractLsb'

/-- The low nibble of `p[3]` meets the high nibble of `p[1]`, and the high nibble of `p[3]` is cut off (R131). -/
theorem encThird_eq_append (p1 p3 : Byte) : encThird p1 p3 = (p1.extractLsb' 4 4 ||| p3.extractLsb' 0 4) ++ p1.extractLsb' 0 4 := by
  have hp3 : p3 <<< 4 = p3.extractLsb' 0 4 ++ 0#4 := BitVec.shiftLeft_eq_concat_of_lt (by decide)
  calc encThird p1 p3 = (p1.extractLsb' 4 4 ++ p1.extractLsb' 0 4) ||| (p3.extractLsb' 0 4 ++ 0#4) := by
        rw [encThird_eq_or, append_nibbles, hp3]
    _ = (p1.extractLsb' 4 4 ||| p3.extractLsb' 0 4) ++ p1.extractLsb' 0 4 := by rw [BitVec.or_append, BitVec.or_zero]

/-- `ENC` as fields of the code: bits 31 to 28 are in none of them. -/
theorem enc_eq_fields (code : Code) : enc code = (code.extractLsb' 0 8, code.extractLsb' 16 8,
    (code.extractLsb' 12 4 ||| code.extractLsb' 24 4) ++ code.extractLsb' 8 4) := by
  rw [enc, encThird_eq_append, codeByte_nibble code 1 (by decide), codeByte_nibble code 1 (by decide), codeByte_nibble code 3 (by decide)]
  rfl

/-- A field below every bit that a shift can set is 0. -/
theorem extractLsb'_shiftLeft_eq_zero {w start len n : Nat} (h : start + len ≤ n) (x : BitVec w) : (x <<< n).extractLsb' start len = 0#len := by
  refine BitVec.eq_of_getLsbD_eq fun i hi => ?_
  simp [show start + i < n by omega]

theorem toNat_encThird (p1 p3 : Byte) : (encThird p1 p3).toNat = (p1.toNat ||| p3.toNat * 16) % 256 := by
  rw [encThird_eq_or, BitVec.toNat_or, BitVec.toNat_shiftLeft, show 256 = 2 ^ 8 from rfl, Nat.or_mod_two_pow, Nat.mod_eq_of_lt p1.isLt,
    Nat.shiftLeft_eq]

/-- The bits above the two halves are the high nibbles of `p[1]` and `p[3]` (R117). -/
theorem isCalculatorCode_iff (code : Code) :
    isCalculatorCode code ↔ (codeByte code 1).extractLsb' 4 4 = 0#4 ∧ (codeByte code 3).extractLsb' 4 4 = 0#4 := by
  constructor
  · intro h
    have hfield : ∀ start, code.extractLsb' start 4 &&& (0xF000F000#32).extractLsb' start 4 = 0#4 := fun start => by
      rw [← BitVec.extractLsb'_and, h, BitVec.extractLsb'_zero]
    rw [codeByte_nibble code 1 (by decide), codeByte_nibble code 3 (by decide)]
    exact ⟨BitVec.and_allOnes.symm.trans (hfield 12), BitVec.and_allOnes.symm.trans (hfield 28)⟩
  · rintro ⟨h1, h3⟩
    have hbyte : ∀ p : Byte, p.extractLsb' 4 4 = 0#4 → p &&& (0xF#4 ++ 0#4) = 0#8 := fun p hp => by
      rw [← append_nibbles p, BitVec.and_append, hp, BitVec.zero_and, BitVec.and_zero]
      rfl
    calc code &&& 0xF000F000#32 = (codeByte code 3 ++ codeByte code 2 ++ codeByte code 1 ++ codeByte code 0) &&&
          ((0xF#4 ++ 0#4) ++ 0#8 ++ (0xF#4 ++ 0#4) ++ 0#8) := by
          rw [append_codeBytes]
          rfl
      _ = 0#32 := by
          rw [BitVec.and_append, BitVec.and_append, BitVec.and_append, hbyte _ h1, hbyte _ h3, BitVec.and_zero, BitVec.and_zero]
          rfl

theorem highNibbles_ecc (block : List Byte) : (codeByte (ecc block) 1).extractLsb' 4 4 = 0#4 ∧ (codeByte (ecc block) 3).extractLsb' 4 4 = 0#4 :=
  (isCalculatorCode_iff _).mp (ecc_and_highNibbles block)

theorem lt_of_highNibble_eq_zero {p : Byte} (h : p.extractLsb' 4 4 = 0#4) : p < 0x10#8 := by
  have hnat : p.toNat >>> 4 % 16 = 0 := (BitVec.extractLsb'_toNat 4 4 p).symm.trans (congrArg BitVec.toNat h)
  have hlt := p.isLt
  exact BitVec.lt_def.mpr (show p.toNat < 16 by omega)

/-- Settles O23: bits 31 to 28 are in no field, and the field of bits 15 to 12 is 0 only on codes of the calculator. -/
theorem encTruncatesThirdByte : Obligations.EncTruncatesThirdByte := by
  refine fun code => ⟨?_, fun x => ?_, fun i hi => ?_, by decide, fun block _ => ?_⟩
  · rw [enc, toNat_encThird, toNat_codeByte, toNat_codeByte, Nat.shiftRight_eq_div_pow, Nat.shiftRight_eq_div_pow]
    rfl
  · simp (disch := decide) only [enc_eq_fields, BitVec.extractLsb'_xor, extractLsb'_shiftLeft_eq_zero, BitVec.xor_zero]
  · rw [enc_eq_fields, BitVec.getLsbD_append, if_neg (by omega), Nat.add_sub_cancel_left, BitVec.getLsbD_or, BitVec.getLsbD_extractLsb',
      BitVec.getLsbD_extractLsb', decide_eq_true hi, Bool.true_and, Bool.true_and]
  · exact (highNibbles_ecc block).symm.imp lt_of_highNibble_eq_zero lt_of_highNibble_eq_zero

/-! ## The inverse on calculator codes (R132) -/

/-- On a calculator code the third byte is one nibble of each half. -/
theorem enc_of_isCalculatorCode {code : Code} (h : isCalculatorCode code) :
    enc code = (code.extractLsb' 0 8, code.extractLsb' 16 8, code.extractLsb' 24 4 ++ code.extractLsb' 8 4) := by
  have hnibble : code.extractLsb' 12 4 = 0#4 := (codeByte_nibble code 1 (by decide)).symm.trans ((isCalculatorCode_iff code).mp h).1
  rw [enc_eq_fields, hnibble, BitVec.zero_or]

theorem ecc_eq_append (block : List Byte) : ecc block = oddHalf block ++ evenHalf block :=
  BitVec.setWidth_append_eq_shiftLeft_setWidth_or.symm.trans (BitVec.setWidth_eq _)

theorem enc_ecc (block : List Byte) : enc (ecc block) = ((evenHalf block).extractLsb' 0 8, (oddHalf block).extractLsb' 0 8,
    (oddHalf block).extractLsb' 8 4 ++ (evenHalf block).extractLsb' 8 4) := by
  rw [enc_of_isCalculatorCode (ecc_and_highNibbles block), ecc_eq_append]
  simp (disch := decide) only [BitVec.extractLsb'_append_eq_of_le, BitVec.extractLsb'_append_eq_of_add_le]

theorem and_lowNibble (p : Byte) : p &&& 0x0F#8 = 0#4 ++ p.extractLsb' 0 4 := by
  calc p &&& 0x0F#8 = (p.extractLsb' 4 4 ++ p.extractLsb' 0 4) &&& (0#4 ++ BitVec.allOnes 4) := by
        rw [append_nibbles]
        rfl
    _ = 0#4 ++ p.extractLsb' 0 4 := by rw [BitVec.and_append, BitVec.and_zero, BitVec.and_allOnes]

theorem ushiftRight_nibble (p : Byte) : p >>> 4 = 0#4 ++ p.extractLsb' 4 4 := BitVec.ushiftRight_eq_extractLsb'_of_lt (by decide)

/-- The inverse of `ENC` puts each nibble of the third byte below a zero nibble (R132). -/
theorem unpackTriple_eq_append (e : Byte × Byte × Byte) :
    unpackTriple e = (0#4 ++ e.2.2.extractLsb' 4 4) ++ e.2.1 ++ (0#4 ++ e.2.2.extractLsb' 0 4) ++ e.1 := by
  have hreverse : ∀ a b c d : Code, a ||| b ||| c ||| d = d ||| c ||| b ||| a := fun a b c d => by ac_rfl
  rw [← ushiftRight_nibble, ← and_lowNibble, unpackTriple]
  exact (hreverse _ _ _ _).trans ((BitVec.setWidth_append_append_append_eq_shiftLeft_setWidth_or (b := e.2.2 >>> 4) (b' := e.2.1)
    (b'' := e.2.2 &&& 0x0F#8) (b''' := e.1)).symm.trans (BitVec.setWidth_eq _))

section Bytes

variable (b3 b2 b1 b0 : Byte)

theorem codeByte_append_zero : codeByte (b3 ++ b2 ++ b1 ++ b0) 0 = b0 := BitVec.extractLsb'_append_eq_right

theorem codeByte_append_one : codeByte (b3 ++ b2 ++ b1 ++ b0) 1 = b1 :=
  (BitVec.extractLsb'_append_eq_of_le (by decide)).trans BitVec.extractLsb'_append_eq_right

theorem codeByte_append_two : codeByte (b3 ++ b2 ++ b1 ++ b0) 2 = b2 :=
  (BitVec.extractLsb'_append_eq_of_le (by decide)).trans
    ((BitVec.extractLsb'_append_eq_of_le (by decide)).trans BitVec.extractLsb'_append_eq_right)

theorem codeByte_append_three : codeByte (b3 ++ b2 ++ b1 ++ b0) 3 = b3 :=
  (BitVec.extractLsb'_append_eq_of_le (by decide)).trans
    ((BitVec.extractLsb'_append_eq_of_le (by decide)).trans BitVec.extractLsb'_append_eq_left)

end Bytes

theorem isCalculatorCode_unpackTriple (e : Byte × Byte × Byte) : isCalculatorCode (unpackTriple e) := by
  rw [isCalculatorCode_iff, unpackTriple_eq_append, codeByte_append_one, codeByte_append_three]
  exact ⟨BitVec.extractLsb'_append_eq_left, BitVec.extractLsb'_append_eq_left⟩

theorem enc_unpackTriple (e : Byte × Byte × Byte) : enc (unpackTriple e) = e := by
  rw [unpackTriple_eq_append, enc, codeByte_append_zero, codeByte_append_one, codeByte_append_two, codeByte_append_three, encThird_eq_append,
    BitVec.extractLsb'_append_eq_left, BitVec.extractLsb'_append_eq_right, BitVec.extractLsb'_append_eq_right, BitVec.zero_or, append_nibbles]

theorem unpackTriple_enc {code : Code} (h : isCalculatorCode code) : unpackTriple (enc code) = code := by
  obtain ⟨h1, h3⟩ := (isCalculatorCode_iff code).mp h
  have hbyte : ∀ p : Byte, p.extractLsb' 4 4 = 0#4 → 0#4 ++ p.extractLsb' 0 4 = p := fun p hp => by rw [← hp, append_nibbles]
  rw [unpackTriple_eq_append, enc, encThird_low, encThird_high _ h1, hbyte _ h1, hbyte _ h3, append_codeBytes]

/-- Settles O24: the inverse puts back the zero nibbles, which is all that `ENC` drops of a calculator code. -/
theorem encIsBijectionOnCalculatorCodes : Obligations.EncIsBijectionOnCalculatorCodes :=
  ⟨fun block _ => ⟨ecc_and_highNibbles block, (highNibbles_ecc block).1, (highNibbles_ecc block).2, enc_ecc block⟩,
    fun _ h => unpackTriple_enc h, fun e => ⟨isCalculatorCode_unpackTriple e, enc_unpackTriple e⟩⟩

/-! ## Linearity and the code of one address (R134) -/

theorem codeByte_xor (a b : Code) (n : Nat) : codeByte (a ^^^ b) n = codeByte a n ^^^ codeByte b n := BitVec.extractLsb'_xor

theorem isCalculatorCode_xor {a b : Code} (ha : isCalculatorCode a) (hb : isCalculatorCode b) : isCalculatorCode (a ^^^ b) := by
  obtain ⟨ha1, ha3⟩ := (isCalculatorCode_iff a).mp ha
  obtain ⟨hb1, hb3⟩ := (isCalculatorCode_iff b).mp hb
  rw [isCalculatorCode_iff, codeByte_xor, codeByte_xor, BitVec.extractLsb'_xor, BitVec.extractLsb'_xor, ha1, ha3, hb1, hb3]
  exact ⟨BitVec.xor_self, BitVec.xor_self⟩

theorem enc_xor {a b : Code} (ha : isCalculatorCode a) (hb : isCalculatorCode b) :
    enc (a ^^^ b) = ((enc a).1 ^^^ (enc b).1, (enc a).2.1 ^^^ (enc b).2.1, (enc a).2.2 ^^^ (enc b).2.2) := by
  rw [enc_of_isCalculatorCode (isCalculatorCode_xor ha hb), enc_of_isCalculatorCode ha, enc_of_isCalculatorCode hb]
  simp only [BitVec.extractLsb'_xor]
  exact congrArg (_, _, ·) BitVec.xor_append.symm

theorem extractLsb'_singleBitCode_even {A : Nat} (hA : A < 4096) : (singleBitCode A).extractLsb' 0 16 = BitVec.ofNat 16 (4095 - A) := by
  have hcomplement : ∀ j, (4095 - A).testBit j = (decide (j < 12) && !A.testBit j) := fun j => by
    rw [show 4095 - A = 2 ^ 12 - (A + 1) by omega, Nat.testBit_two_pow_sub_succ hA]
  refine BitVec.eq_of_getLsbD_eq fun j hj => ?_
  rw [BitVec.getLsbD_extractLsb', BitVec.getLsbD_ofNat, decide_eq_true hj, Bool.true_and, Bool.true_and, Nat.zero_add, hcomplement]
  rcases Nat.lt_or_ge j 12 with hlow | hhigh
  · rw [getLsbD_singleBitCode_even hA hlow, decide_eq_true hlow, Bool.true_and]
  · rw [getLsbD_singleBitCode hA _ (by omega), ← Nat.add_sub_of_le hhigh, codeBitSelects_even_zero (by omega), decide_eq_false (by omega),
      Bool.false_and]

theorem singleBitCode_eq_append {A : Nat} (hA : A < 4096) : singleBitCode A = BitVec.ofNat 16 A ++ BitVec.ofNat 16 (4095 - A) := by
  rw [← extractLsb'_singleBitCode_odd hA, ← extractLsb'_singleBitCode_even hA]
  exact (BitVec.extractLsb'_append_extractLsb' (w := 16) (len := 16)).symm

theorem extractLsb'_ofNat {w start len : Nat} (h : start + len ≤ w) (n : Nat) :
    (BitVec.ofNat w n).extractLsb' start len = BitVec.ofNat len (n >>> start) := by
  refine BitVec.eq_of_getLsbD_eq fun i hi => ?_
  rw [BitVec.getLsbD_extractLsb', BitVec.getLsbD_ofNat, BitVec.getLsbD_ofNat, Nat.testBit_shiftRight, decide_eq_true hi,
    decide_eq_true (show start + i < w by omega), Bool.true_and]

theorem ofNat_append_nibbles (m : Nat) {n : Nat} (h : n < 16) : BitVec.ofNat 4 m ++ BitVec.ofNat 4 n = BitVec.ofNat 8 (m * 16 + n) := by
  refine BitVec.eq_of_toNat_eq ?_
  rw [BitVec.toNat_append, BitVec.toNat_ofNat, BitVec.toNat_ofNat, BitVec.toNat_ofNat,
    ← Nat.shiftLeft_add_eq_or_of_lt (Nat.mod_lt n (by decide)), Nat.shiftLeft_eq]
  omega

theorem isCalculatorCode_singleBitCode {A : Nat} (hA : A < 4096) : isCalculatorCode (singleBitCode A) :=
  ecc_bitBlock hA ▸ ecc_and_highNibbles (bitBlock A)

/-- The 3-byte form of the code of one address: the address, and its complement within twelve bits. -/
theorem enc_singleBitCode {A : Nat} (hA : A < 4096) : enc (singleBitCode A) =
    (BitVec.ofNat 8 (4095 - A), BitVec.ofNat 8 A, BitVec.ofNat 8 (A / 256 * 16 + (4095 - A) / 256)) := by
  rw [enc_of_isCalculatorCode (isCalculatorCode_singleBitCode hA), singleBitCode_eq_append hA, ← ofNat_append_nibbles _ (by omega)]
  simp (disch := decide) only [BitVec.extractLsb'_append_eq_of_le, BitVec.extractLsb'_append_eq_of_add_le, extractLsb'_ofNat,
    Nat.reduceSub, Nat.shiftRight_eq_div_pow, Nat.reducePow, Nat.div_one]

/-- Settles O25: each byte is a sequence of fields, and fields are linear; the code of one 1 bit is its address and the complement. -/
theorem encIsLinearOnCalculatorCodes : Obligations.EncIsLinearOnCalculatorCodes := by
  refine ⟨fun _ _ ha hb => enc_xor ha hb, fun A hA => ?_⟩
  rw [ecc_bitBlock hA]
  exact enc_singleBitCode hA

end Sys2Proof.Machine

/-! The statements of 43_page_packer_geom_dispatcher.md: the footer, `INIT`, one page, the order of a run's events, and `RUN` over a whole input and
against `INIT` and `PAGE` (R140 to R155). -/

namespace Sys2Proof.Machine

/-! ## The footer (R147) -/

/-- The footer's code table stands between 2 and 50 fill bytes (R88). -/
theorem footer_eq (page : List Byte) : footer page =
    List.replicate 2 0xFF#8 ++ ((List.range 4).flatMap (encodedBlock page) ++ List.replicate 50 0xFF#8) := rfl

/-- Settles O33: the bytes before, in and after the code table. -/
theorem footerLayout : Obligations.FooterLayout := by
  intro page
  refine ⟨footer_length page, fun a ha => ?_, fun k hk => ?_⟩
  · rw [footer_eq]
    rcases ha with hbefore | ⟨hafter, hlast⟩
    · rw [List.getElem?_append_left (by simpa using hbefore), List.getElem?_replicate_of_lt hbefore]
    · rw [← List.append_assoc, List.getElem?_append_right (by simpa using hafter)]
      exact List.getElem?_replicate_of_lt (by simp; omega)
  · match k, hk with
    | 0, _ => exact ⟨rfl, rfl, rfl⟩
    | 1, _ => exact ⟨rfl, rfl, rfl⟩
    | 2, _ => exact ⟨rfl, rfl, rfl⟩
    | 3, _ => exact ⟨rfl, rfl, rfl⟩

/-! ## INIT (R140) -/

/-- `INIT` and the start of `RUN` on dual-plane geometry: `GeomQuery` only. -/
theorem open_dual (c : Activity) {s : State} {gs} (hg : s.answers.geom = .dual :: gs) :
    proceed (issue c .geomQuery s) = continued c { s with
      geom := .dual, ctl := .ready, busy := some ⟨c, .geomQuery⟩, history := s.history ++ [.geomQuery .dual],
      answers := { s.answers with geom := gs } } :=
  proceed_continued rfl (transact_geom (u := issue c .geomQuery s) hg)

/-- `INIT` and the start of `RUN` on single-plane geometry: `GeomQuery`, then `RawMode`. -/
theorem open_single (c : Activity) {s : State} {gs rs} (hg : s.answers.geom = .single :: gs) (hr : s.answers.raw = .ok :: rs) :
    proceed (issue c .geomQuery s) = continued c { s with
      geom := .single, ctl := .ready, busy := some ⟨c, .rawMode⟩, history := s.history ++ [.geomQuery .single, .rawMode .ok],
      answers := { s.answers with geom := gs, raw := rs }, world := { s.world with mode := .raw } } := by
  have hfirst : proceed (issue c .geomQuery s) = proceed { s with
      geom := .single, busy := some ⟨c, .rawMode⟩, history := s.history ++ [.geomQuery .single],
      answers := { s.answers with geom := gs } } :=
    proceed_transact rfl (transact_geom (u := issue c .geomQuery s) hg)
  rw [List.append_cons, hfirst]
  refine proceed_continued rfl ((transact_raw (r := .ok) (rest := rs) ?_).trans rfl)
  exact hr

/-- Settles O27: `INIT` is over where its opening ends. -/
theorem initOnSinglePlane : Obligations.InitOnSinglePlane := by
  intro s gs rs hc hg hr
  rw [exec_init hc, open_single .init hg hr, continued_init]
  rfl

/-- Settles O28: `INIT` is over where its opening ends. -/
theorem initOnDualPlane : Obligations.InitOnDualPlane := by
  intro s gs hc hg
  rw [exec_init hc, open_dual .init hg, continued_init]
  rfl

/-! ## One page (R142, R143, R145, R146) -/

section PadPage

variable {m : Memory} {bs : List Byte} (hb : bs.length ≤ 2048) (h : m.slice 0 2048 = Memory.cells 0 (padPage bs)) {a : Nat}
include hb h

/-- Where a padded page stands, its input bytes come first. -/
theorem readByte_input (ha : a < bs.length) : m.readByte a = bs[a]? := by
  rw [readByte_of_run (padPage_length hb) h (by omega), padPage, List.getElem?_append_left ha]

/-- Where a padded page stands, fill bytes follow its input bytes (R145). -/
theorem readByte_fill (ha : bs.length ≤ a) (ha' : a < 2048) : m.readByte a = some 0xFF#8 := by
  rw [readByte_of_run (padPage_length hb) h ha', padPage, List.getElem?_append_right ha, List.getElem?_replicate_of_lt (by omega)]

end PadPage

/-- Settles O31: `PAGE` is over where `single_page` ends, and the buffers hold the page and its footer. -/
theorem pageOnSinglePlane : Obligations.PageOnSinglePlane := by
  intro s d rs ps os hc hg hm hr hd hp ho
  obtain ⟨t, p, o, hstart, hpage, hfooter, hrest, horest, hend⟩ := single_page .page hg hr hd hp ho
  refine ⟨p, o, ?_, fun _ => readByte_input d.fits hpage, fun _ => readByte_fill d.fits hpage, hrest.rest,
    fun _ => readByte_of_run (footer_length _) hfooter, horest.rest⟩
  rw [exec_page hc hm hstart, hend, continued_page]
  simp [complete, State.status, hc, hg]

/-- Settles O32: `PAGE` is over where `dual_page` ends, and `PAGEBUF` holds the page twice. -/
theorem pageOnDualPlane : Obligations.PageOnDualPlane := by
  intro s d rs ps hc hg hm hr hd hp
  obtain ⟨t, p, hstart, htwice, hrest, hend⟩ := dual_page .page hg hr hd hp
  have hl := padPage_length d.fits
  have hpage : p.slice 0 2048 = Memory.cells 0 (padPage d.bytes) := by
    rw [slice_slice (Nat.le_refl 0) (show 0 + 2048 ≤ 0 + 4096 by omega), htwice]
    simpa [hl] using cells_slice (a := 0) [] (padPage d.bytes) (padPage d.bytes)
  have hcopy : ∀ a, a < 2048 → p.readByte (2048 + a) = p.readByte a := fun a ha => by
    rw [readByte_of_run hl hpage ha, readByte_of_run (by simp [hl]) htwice (show 2048 + a < 4096 by omega),
      List.getElem?_append_right (by omega), hl, Nat.add_sub_cancel_left]
  refine ⟨p, ?_, fun _ => readByte_input d.fits hpage, fun _ => readByte_fill d.fits hpage, hcopy, hrest.rest⟩
  rw [exec_page hc hm hstart, hend, continued_page]
  simp [complete, State.status, hc, hg]

/-- Settles O34: `PAGE` is over where `eof_page` ends. -/
theorem pageAtEndOfStream : Obligations.PageAtEndOfStream := by
  intro s d rs hc hg hm hr hd
  obtain ⟨t, p, hstart, hrest, hend⟩ := eof_page .page hg hr hd
  refine ⟨p, ?_, hrest.rest⟩
  rw [exec_page hc hm hstart, hend]
  rfl

/-! ## The order of a run's events (R140, R188) -/

/-- The rules allow `GeomQuery` exactly where the run's start awaits it (R140). -/
theorem next_geomQuery_iff {v v' : View} {e : Event} (h : v.next e = some v') : (∃ g, e = .geomQuery g) ↔ v.await = .geometry := by
  rcases next_cases h with ⟨ha, rfl, -⟩ | ⟨ha, rfl, -⟩ | ⟨ha, rfl, -⟩ | ⟨ha, rfl, -⟩ | ⟨ha, rfl, -⟩ | ⟨ha, rfl, -⟩ | ⟨_, ha, rfl, -⟩ |
    ⟨_, ha, rfl, -⟩ | ⟨_, ha, rfl, -⟩ | ⟨_, ha, rfl, -⟩ | ⟨_, ha, rfl, -⟩ | ⟨_, ha, rfl, -⟩ | ⟨_, ha, rfl, -⟩ <;> simp [ha]

/-- An event that raises an exception leads to `FAILED` (R189). -/
theorem ctl_of_raises {v v' : View} {e : Event} (h : v.next e = some v') (hr : raises e = true) : v'.ctl = .failed := by
  rcases next_cases h with ⟨-, rfl, rfl⟩ | ⟨-, rfl, rfl⟩ | ⟨-, rfl, rfl⟩ | ⟨-, rfl, rfl⟩ | ⟨-, rfl, rfl⟩ | ⟨-, rfl, rfl⟩ | ⟨_, -, rfl, -, rfl⟩ |
    ⟨_, -, rfl, -, rfl⟩ | ⟨_, -, rfl, rfl⟩ | ⟨_, -, rfl, -, rfl⟩ | ⟨_, -, rfl, -, rfl⟩ | ⟨_, -, rfl, rfl⟩ | ⟨_, -, rfl, rfl⟩ <;>
    simp_all [raises, Event.isError, View.fail]

/-- In `FAILED` the rules allow no event (R188, R189). -/
theorem next_failed {v : View} (hv : ViewOk v) (hc : v.ctl = .failed) (e : Event) : v.next e = none := by
  have ha : v.await = .nothing := by
    cases ha : v.await <;> simp [ViewOk, ha, hc] at hv
    rfl
  simp [View.next, ha]

/-- A history still awaits `GeomQuery` exactly when it is empty. -/
theorem geometry_iff_history_nil {h : List Event} {v : View} (hv : View.start.afterEvents h = some v) : v.await = .geometry ↔ h = [] := by
  refine ⟨history_nil_of_geometry hv, ?_⟩
  rintro rfl
  cases hv
  rfl

/-- Along a history `GeomQuery` is the first event and no other, and an event that raises an exception is the last. Where the history is cut at an event,
that event is the last, or the cut is one of the history before the last event. -/
theorem afterEvents_order : ∀ (h : List Event) (v : View), View.start.afterEvents h = some v →
    ∀ before after e, h = before ++ e :: after →
      ((∃ g, e = .geomQuery g) ↔ before = []) ∧ (raises e = true → after = [] ∧ v.ctl = .failed) := by
  refine history_induct (by simp) fun v v' h e' hv ih hn before after e hh => ?_
  rcases List.eq_nil_or_concat after with rfl | ⟨after, last, rfl⟩
  · obtain ⟨rfl, ⟨⟩⟩ := List.append_inj' hh rfl
    exact ⟨(next_geomQuery_iff hn).trans (geometry_iff_history_nil hv), fun hr => ⟨rfl, ctl_of_raises hn hr⟩⟩
  · rw [List.concat_eq_append] at hh ⊢
    obtain ⟨rfl, ⟨⟩⟩ := List.append_inj' (hh.trans (List.append_assoc before (e :: after) [last]).symm) rfl
    obtain ⟨hgeom, hraises⟩ := ih before after e rfl
    refine ⟨hgeom, fun hr => ?_⟩
    obtain ⟨-, hc⟩ := hraises hr
    rw [next_failed (afterEvents_viewOk start_viewOk hv) hc] at hn
    cases hn

/-- Settles O55: the state shows the view's `STATE`, and the history is ordered by `afterEvents_order`. -/
theorem geometryFirstAndNothingAfterFailure : Obligations.GeometryFirstAndNothingAfterFailure := by
  rintro s ⟨v, hv, -, hc, -⟩ before after e hh
  rw [hc]
  exact afterEvents_order s.history v hv before after e hh

/-! ## The input in pages (R144, R145) -/

/-- The bytes of the read after `n` full reads. -/
def chunk (input : List Byte) (n : Nat) : InData := ⟨(input.drop (2048 * n)).take 2048, List.length_take_le ..⟩

theorem chunkAnswer_eq (input : List Byte) (n : Nat) : chunkAnswer input n = .data (chunk input n) := rfl

theorem length_chunk (input : List Byte) (n : Nat) : (chunk input n).bytes.length = min 2048 (input.length - 2048 * n) := by
  rw [chunk, List.length_take, List.length_drop]

/-- Every page of the input has a byte. -/
theorem chunk_ne_nil {input : List Byte} {n : Nat} (h : n < pageCount input) : (chunk input n).bytes ≠ [] := by
  rw [← List.length_pos_iff, length_chunk]
  unfold pageCount at h
  omega

/-- The read after the last page finds no byte (R66). -/
theorem chunk_pageCount (input : List Byte) : chunk input (pageCount input) = ⟨[], by simp⟩ := by
  have hnil : (chunk input (pageCount input)).bytes = [] := by
    rw [← List.length_eq_zero_iff, length_chunk]
    unfold pageCount
    omega
  exact InData.mk.injEq .. ▸ hnil

/-- The first `m` reads together. -/
theorem flatMap_chunk (input : List Byte) (m : Nat) : (List.range m).flatMap (fun n => (chunk input n).bytes) = input.take (2048 * m) := by
  induction m with
  | zero => rfl
  | succ m ih => rw [List.range_succ, List.flatMap_append, ih, List.flatMap_singleton, Nat.mul_succ, List.take_add, chunk]

/-- All reads of the input together. -/
theorem flatMap_chunk_pageCount (input : List Byte) : (List.range (pageCount input)).flatMap (fun n => (chunk input n).bytes) = input := by
  rw [flatMap_chunk]
  exact List.take_of_length_le (by unfold pageCount; omega)

/-- A full page needs no fill bytes. -/
theorem padPage_full {bs : List Byte} (h : bs.length = 2048) : padPage bs = bs := by
  rw [padPage, h, Nat.sub_self, List.replicate_zero, List.append_nil]

/-- The pages of the input are the input with the fill bytes of its last page: all others are full. -/
theorem flatMap_padPage_chunk (input : List Byte) : (List.range (pageCount input)).flatMap (fun n => padPage (chunk input n).bytes) =
    input ++ List.replicate ((2048 - input.length % 2048) % 2048) 0xFF#8 := by
  cases hm : pageCount input with
  | zero =>
    have hnil : input = [] := List.length_eq_zero_iff.1 (by unfold pageCount at hm; omega)
    rw [hnil]
    rfl
  | succ m =>
    unfold pageCount at hm
    have hfull : (List.range m).flatMap (fun n => padPage (chunk input n).bytes) = input.take (2048 * m) := by
      rw [← flatMap_chunk, List.flatMap_congr fun n hn => padPage_full ?_]
      rw [length_chunk]
      have := List.mem_range.1 hn
      omega
    have hlast : (chunk input m).bytes = input.drop (2048 * m) := List.take_of_length_le (by rw [List.length_drop]; omega)
    rw [List.range_succ, List.flatMap_append, List.flatMap_singleton, hfull, hlast, padPage, ← List.append_assoc, List.take_append_drop,
      List.length_drop]
    congr 2
    omega

/-! ## Pages one after another inside `RUN` (R142, R143, R144) -/

/-- The events of the page of `d` at index `n`. -/
def pageEvents (g : Geom) (n : Nat) (d : InData) : List Event :=
  match g with
  | .none   => []
  | .single => [.inRead 2048 (.data d), .pageWrite (padPage d.bytes) .ok, .oobWrite (footer (padPage d.bytes)) (n * 2048) .ok]
  | .dual   => [.inRead 2048 (.data d), .pageWrite (padPage d.bytes ++ padPage d.bytes) .ok]

/-- The footers acknowledged once the footer of the page of `d` at index `n` has been written, on the geometry that has footers. -/
def pageFooter (g : Geom) (n : Nat) (d : InData) (oob : List (Nat × List Byte)) : List (Nat × List Byte) :=
  match g with
  | .none   => oob
  | .single => putFooter oob (n * 2048) (footer (padPage d.bytes))
  | .dual   => oob

/-- The environment after `m` pages from index `n` on (R32, R66). -/
def pagesWorld (g : Geom) (n m : Nat) (d : Nat → InData) (w : World) : World :=
  { w with
    inPos  := w.inPos + ((List.range m).flatMap fun k => (d k).bytes).length
    devPos := w.devPos + m * writeLength g
    data   := w.data ++ (List.range m).flatMap fun k => pagePayload g (padPage (d k).bytes)
    oob    := (List.range m).foldl (fun o k => pageFooter g (n + k) (d k) o) w.oob }

/-- The state after `m` pages, with the content of the buffers, the request of the last page and the answers left over given. -/
def wrote (m : Nat) (d : Nat → InData) (p o : Memory) (b : Option Busy) (a : Answers) (s : State) : State :=
  { s with
    pageIdx := s.pageIdx + m, pageBuf := p, oobBuf := o, busy := b, answers := a
    history := s.history ++ (List.range m).flatMap fun k => pageEvents s.geom (s.pageIdx + k) (d k)
    world   := pagesWorld s.geom s.pageIdx m d s.world }

/-- The answers of `m` pages, ahead of others: a read and a page write for each, and on single-plane geometry a footer write. -/
def supply (g : Geom) (m : Nat) (d : Nat → InData) (a : Answers) : Answers :=
  { a with
    read := (List.range m).map (fun k => .data (d k)) ++ a.read
    page := List.replicate m .ok ++ a.page
    oob  := if g = .single then List.replicate m .ok ++ a.oob else a.oob }

/-- The answers of the first page stand ahead of those of the others. -/
theorem supply_succ (g : Geom) (m : Nat) (d : Nat → InData) (a : Answers) :
    supply g (m + 1) d a = supply g 1 d (supply g m (fun k => d (k + 1)) a) := by
  simp only [supply, List.range_succ_eq_map, List.replicate_succ]
  cases g <;> simp [Function.comp_def]

/-- More pages are a page and then the others, in what they make of the environment. -/
theorem pagesWorld_pagesWorld (g : Geom) (n m : Nat) (d : Nat → InData) (w : World) :
    pagesWorld g (n + 1) m (fun k => d (k + 1)) (pagesWorld g n 1 d w) = pagesWorld g n (m + 1) d w := by
  have hpos : (m + 1) * writeLength g = 1 * writeLength g + m * writeLength g := by rw [← Nat.add_mul, Nat.add_comm]
  simp only [pagesWorld, hpos, List.range_succ_eq_map, List.range_zero, List.flatMap_cons, List.flatMap_map, List.foldl_cons, List.foldl_map,
    List.map_nil, List.flatMap_nil, List.foldl_nil, List.append_nil, List.append_assoc, List.length_append, Nat.add_assoc, Nat.add_comm 1,
    Nat.succ_eq_add_one]

/-- More pages are a page and then the others, whatever the first leaves in the buffers and in the queues. -/
theorem wrote_wrote (m : Nat) (d : Nat → InData) (p o p' o' : Memory) (b b' : Option Busy) (a a' : Answers) (s : State) :
    wrote m (fun k => d (k + 1)) p' o' b' a' (wrote 1 d p o b a s) = wrote (m + 1) d p' o' b' a' s := by
  unfold wrote
  simp only
  rw [pagesWorld_pagesWorld]
  simp only [List.range_succ_eq_map, List.range_zero, List.flatMap_cons, List.flatMap_map, List.map_nil, List.flatMap_nil, List.append_nil,
    List.append_assoc, Nat.add_assoc, Nat.add_comm 1, Nat.succ_eq_add_one, Nat.add_zero]

/-- What pages leave of `OOBBUF`: footers below 64 on single-plane geometry, everything on dual-plane geometry. -/
structure FootersBelow (g : Geom) (m m' : Memory) : Prop where
  written : WrittenBelow 64 m m'
  dual    : g = .dual → m' = m

/-- A whole page on either geometry. -/
theorem geom_page (c : Activity) {s : State} {d : Nat → InData} {a : Answers} (hg : s.geom ≠ .none)
    (ha : s.answers = supply s.geom 1 d a) (hd : (d 0).bytes ≠ []) :
    ∃ t p o b, startPage c s = .ok t ∧ WrittenBelow (writeLength s.geom) s.pageBuf p ∧ FootersBelow s.geom s.oobBuf o ∧
      proceed t = continued c (wrote 1 d p o b a s) := by
  cases hgeom : s.geom with
  | none => exact absurd hgeom hg
  | single =>
    rw [hgeom] at ha
    obtain ⟨t, p, o, hstart, -, -, hp, ho, hend⟩ :=
      single_page c hgeom (congrArg Answers.read ha) hd (congrArg Answers.page ha) (congrArg Answers.oob ha)
    refine ⟨t, p, o, some ⟨c, .oobWrite (footer (padPage (d 0).bytes)) (s.pageIdx * 2048)⟩, hstart, hp, ⟨ho, nofun⟩,
      hend.trans ?_⟩
    simp [wrote, pagesWorld, hgeom, ha, pageEvents, supply, pagePayload, pageFooter, writeLength]
  | dual =>
    rw [hgeom] at ha
    obtain ⟨t, p, hstart, -, hp, hend⟩ := dual_page c hgeom (congrArg Answers.read ha) hd (congrArg Answers.page ha)
    refine ⟨t, p, s.oobBuf, some ⟨c, .pageWrite (padPage (d 0).bytes ++ padPage (d 0).bytes)⟩, hstart, hp, ⟨.refl _ _, fun _ => rfl⟩,
      hend.trans ?_⟩
    simp [wrote, pagesWorld, hgeom, ha, pageEvents, supply, pagePayload, pageFooter, writeLength]

/-- Pages inside `RUN` with no bound: from the head of its loop, back to the head of its loop. -/
theorem continued_pages : ∀ (m : Nat) (d : Nat → InData) (a : Answers) {s : State}, s.ctl = .ready → s.maxPages = none → s.geom ≠ .none →
    s.answers = supply s.geom m d a → (∀ k < m, (d k).bytes ≠ []) →
    ∃ p o b, WrittenBelow (writeLength s.geom) s.pageBuf p ∧ FootersBelow s.geom s.oobBuf o ∧
      continued .run s = continued .run (wrote m d p o b a s)
  | 0, d, a, s, _, _, _, ha, _ => by
    refine ⟨s.pageBuf, s.oobBuf, s.busy, .refl _ _, ⟨.refl _ _, fun _ => rfl⟩, congrArg _ ?_⟩
    have ha : s.answers = a := by rw [ha]; cases s.geom <;> rfl
    simp [wrote, pagesWorld, ← ha]
  | m + 1, d, a, s, hc, hm, hg, ha, hd => by
    rw [supply_succ] at ha
    obtain ⟨t, p, o, b, hstart, hp, ho, hpage⟩ := geom_page .run hg ha (hd 0 (by omega))
    obtain ⟨p', o', b', hp', ho', hrest⟩ := continued_pages m (fun k => d (k + 1)) a
      (s := wrote 1 d p o b (supply s.geom m (fun k => d (k + 1)) a) s) hc hm hg rfl fun k hk => hd (k + 1) (by omega)
    refine ⟨p', o', b', hp.trans hp', ⟨ho.written.trans ho'.written, fun h => (ho'.dual h).trans (ho.dual h)⟩, ?_⟩
    rw [continued_run hc (by simp [hm]) hstart, hpage, hrest, wrote_wrote]

/-! ## `RUN` over a whole input (R144, R149) -/

/-- The answers of one run without faults: the reads of the pages and the one that ends the stream, and `OK` to every write (R64, R66). -/
theorem answers_plain (input : List Byte) (g : GeomAnswer) : (RefEnv.plain input g).answers =
    { geom := [g], raw := [.ok], read := (List.range (pageCount input)).map (fun k => .data (chunk input k)) ++ [.data ⟨[], by simp⟩],
      page := List.replicate (pageCount input) .ok, oob := List.replicate (pageCount input) .ok } := by
  have hreads : (RefEnv.plain input g).reads = (List.range (pageCount input + 1)).map (chunkAnswer input) := rfl
  rw [RefEnv.answers, hreads, List.range_succ, List.map_append, List.map_singleton, chunkAnswer_eq, chunk_pageCount]
  rfl

/-- The read with zero bytes inside `RUN` with no bound: from the head of its loop to its end (R146). -/
theorem continued_eof {s : State} {rs : List ReadAnswer} (hc : s.ctl = .ready) (hm : s.maxPages = none) (hg : s.geom ≠ .none)
    (hr : s.answers.read = .data ⟨[], by simp⟩ :: rs) :
    ∃ p, WrittenBelow (writeLength s.geom) s.pageBuf p ∧ continued .run s = .next (complete { s with
      ctl := .done, pageBuf := p, history := s.history ++ [.inRead 2048 (.data ⟨[], by simp⟩)], answers := { s.answers with read := rs } }) := by
  obtain ⟨t, p, hstart, hp, hend⟩ := eof_page .run hg hr rfl
  exact ⟨p, hp, (continued_run hc (by simp [hm]) hstart).trans hend⟩

/-- From the head of its loop `RUN` with no bound writes the whole input that the environment has ready, and ends (R144, R146). -/
theorem continued_input {input : List Byte} {s : State} {a : Answers} (hc : s.ctl = .ready) (hm : s.maxPages = none) (hg : s.geom ≠ .none)
    (ha : s.answers = supply s.geom (pageCount input) (chunk input) { a with read := .data ⟨[], by simp⟩ :: a.read }) :
    ∃ p o b, WrittenBelow (writeLength s.geom) s.pageBuf p ∧ FootersBelow s.geom s.oobBuf o ∧
      continued .run s = .next (complete { wrote (pageCount input) (chunk input) p o b a s with
        ctl := .done
        history := (wrote (pageCount input) (chunk input) p o b a s).history ++ [.inRead 2048 (.data ⟨[], by simp⟩)] }) := by
  obtain ⟨p, o, b, hp, ho, hpages⟩ := continued_pages _ _ _ hc hm hg ha fun k => chunk_ne_nil
  obtain ⟨p', hp', hend⟩ := continued_eof (rs := a.read)
    (s := wrote (pageCount input) (chunk input) p o b { a with read := .data ⟨[], by simp⟩ :: a.read } s) hc hm hg rfl
  exact ⟨p', o, b, hp.trans hp', ho, hpages.trans hend⟩

/-- Settles O38: the opening, then all pages and the end of the stream. -/
theorem runWritesWholeInputSinglePlane : Obligations.RunWritesWholeInputSinglePlane := by
  intro input s hc hm ha
  have hopen := open_single .run (congrArg Answers.geom ha) (congrArg Answers.raw ha)
  obtain ⟨p, o, b, hp, ho, hend⟩ := continued_input (input := input) (a := Answers.empty) (s := { s with
    geom := .single, ctl := .ready, busy := some ⟨.run, .rawMode⟩, history := s.history ++ [.geomQuery .single, .rawMode .ok],
    answers := { s.answers with geom := [], raw := [] }, world := { s.world with mode := .raw } }) rfl hm nofun
    (by rw [ha, answers_plain]; simp [supply, Answers.empty])
  refine ⟨_, (exec_run hc).trans (hopen.trans hend), rfl, rfl, rfl, rfl, rfl, rfl, rfl, rfl, rfl, hm, rfl, hp.rest, ho.written.rest, rfl,
    ?inPos, rfl, rfl, ?data⟩
  case inPos =>
    rw [← congrArg List.length (flatMap_chunk_pageCount input)]
    rfl
  case data =>
    rw [List.append_assoc, ← flatMap_padPage_chunk input]
    rfl

/-- Settles O39: the opening, then all pages and the end of the stream. -/
theorem runWritesWholeInputDualPlane : Obligations.RunWritesWholeInputDualPlane := by
  intro input s hc hm ha
  have hopen := open_dual .run (congrArg Answers.geom ha)
  obtain ⟨p, o, b, hp, ho, hend⟩ := continued_input (input := input)
    (a := { Answers.empty with raw := s.answers.raw, oob := s.answers.oob }) (s := { s with
      geom := .dual, ctl := .ready, busy := some ⟨.run, .geomQuery⟩, history := s.history ++ [.geomQuery .dual],
      answers := { s.answers with geom := [] } }) rfl hm nofun
    (by rw [ha, answers_plain]; simp [supply, Answers.empty])
  refine ⟨_, (exec_run hc).trans (hopen.trans hend), rfl, rfl, rfl, rfl, rfl, rfl, rfl, ho.dual rfl, rfl, rfl, hm, rfl, hp.rest, rfl,
    ?oob, ?inPos, rfl, rfl⟩
  case oob => exact List.foldl_fixed _
  case inPos =>
    rw [← congrArg List.length (flatMap_chunk_pageCount input)]
    rfl

/-! ## The same for every command (R85, R144) -/

/-- What tells one command in progress from another at the same place: which it is, the request it last waited on, the responses given before it. -/
structure Context where
  activity  : Activity
  busy      : Option Busy
  responses : List Response

/-- The state in the context given. -/
def State.within (s : State) (x : Context) : State := { s with busy := x.busy, responses := x.responses }

/-- A request that opens the run, or any request in `READY` (R58 (b) to (e)). -/
def InOrder (r : Request) (s : State) : Prop := s.ctl = .ready ∨ r = .geomQuery ∨ r = .rawMode

/-- What the block computes on an answer, said for all contexts at once: a fault, the next request in order, or the end of `INIT` or of a page, where
`continueWith` tells the commands apart and the run is opened. -/
inductive Phase (f : Context → Except Fault State) : Prop where
  | fault (e : Fault) (h : ∀ x, f x = .error e)
  | request (r : Request) (u : State) (hr : InOrder r u) (h : ∀ x, f x = .ok (issue x.activity r (u.within x)))
  | ended (u : State) (hc : u.ctl ≠ .idle) (h : ∀ x, f x = continueWith x.activity (u.within x))

/-- A computation on the way to a request: it comes to the same in every context, and leaves `STATE`. -/
def ContextFree (f : State → Except Fault State) : Prop :=
  ∀ s : State, (∃ e, ∀ x, f (s.within x) = .error e) ∨ ∃ u : State, u.ctl = s.ctl ∧ ∀ x, f (s.within x) = .ok (u.within x)

/-! ## Building a page is the same in every context -/

/-- The buffers are the same in every context. -/
theorem memRead_within (sp : Space) (a n : Nat) (s : State) (x : Context) : memRead sp a n (s.within x) = memRead sp a n s := by
  cases sp <;> rfl

theorem contextFree_memWrite (sp : Space) (a : Nat) (bs : List Byte) : ContextFree (memWrite sp a bs) := by
  intro s
  by_cases h : a + bs.length ≤ sp.size
  · refine .inr ⟨s.setSpace sp ((s.space sp).write a bs), ?_, fun x => (memWrite_ok (s := s.within x) h).trans ?_⟩ <;> cases sp <;> rfl
  · exact .inl ⟨.outsideSpace, fun x => if_neg h⟩

theorem contextFree_bind {f g : State → Except Fault State} (hf : ContextFree f) (hg : ContextFree g) : ContextFree (fun s => f s >>= g) := by
  intro s
  obtain ⟨e, he⟩ | ⟨u, hu, h⟩ := hf s
  · exact .inl ⟨e, fun x => by simp only [he]; rfl⟩
  · simp only [h, ← hu]
    exact hg u

theorem contextFree_read {sp : Space} {a n : Nat} {f : List Byte → State → Except Fault State} (hf : ∀ bs, ContextFree (f bs)) :
    ContextFree (fun s => memRead sp a n s >>= fun bs => f bs s) := by
  intro s
  simp only [memRead_within]
  cases memRead sp a n s with
  | error e => exact .inl ⟨e, fun _ => rfl⟩
  | ok bs => exact hf bs s

theorem contextFree_placeCodes : ∀ ks, ContextFree (placeCodes ks)
  | [] => fun s => .inr ⟨s, rfl, fun _ => rfl⟩
  | _ :: ks => contextFree_bind (contextFree_read fun _ => contextFree_memWrite _ _ _) (contextFree_placeCodes ks)

theorem contextFree_buildFooter : ContextFree buildFooter := contextFree_bind (contextFree_memWrite _ _ _) (contextFree_placeCodes _)

theorem contextFree_duplicatePage : ContextFree duplicatePage := contextFree_read fun _ => contextFree_memWrite _ _ _

/-! ## The block's computation on each answer -/

section Phases

variable {s : State}

/-- A computation on the way, then a phase. -/
theorem phase_bind {f : State → Except Fault State} {g : Context → State → Except Fault State} (hf : ContextFree f)
    (hg : ∀ u : State, u.ctl = s.ctl → Phase fun x => g x (u.within x)) : Phase fun x => f (s.within x) >>= g x := by
  obtain ⟨e, he⟩ | ⟨u, hu, h⟩ := hf s
  · exact .fault e fun x => by rw [he]; rfl
  · simp only [h]
    exact hg u hu

/-- A payload read from a buffer, then the request that carries it. -/
theorem phase_request (hs : s.ctl = .ready) (sp : Space) (a n : Nat) (r : List Byte → Request) :
    Phase fun x => memRead sp a n (s.within x) >>= fun bs => .ok (issue x.activity (r bs) (s.within x)) := by
  simp only [memRead_within]
  cases memRead sp a n s with
  | error e => exact .fault e fun _ => rfl
  | ok bs => exact .request (r bs) s (.inl hs) fun _ => rfl

/-- Out of `READY` no command goes on. -/
theorem continueWith_over (c : Activity) (h : s.ctl ≠ .ready) : continueWith c s = .ok (complete s) := by
  cases c with
  | init => rfl
  | page => rfl
  | run => exact if_neg (by simp [h])

/-- An exception is the end of a phase, in `FAILED`, where all commands end (R189). -/
theorem phase_raise (e : Exc) : Phase fun x => .ok (raise e (s.within x)) :=
  .ended { s with err := e.code, ctl := .failed } nofun fun x => (continueWith_over x.activity (by simp)).symm

theorem phase_afterGeomQuery (g : GeomAnswer) : Phase fun x => afterGeomQuery x.activity g (s.within x) := by
  cases g with
  | notFound => exact phase_raise _
  | single => exact .request .rawMode { s with geom := .single } (.inr (.inr rfl)) fun _ => rfl
  | dual => exact .ended { s with geom := .dual, ctl := .ready } nofun fun _ => rfl

theorem phase_afterRawMode (a : Ack) : Phase fun x => afterRawMode x.activity a (s.within x) := by
  cases a with
  | error => exact phase_raise _
  | ok => exact .ended { s with ctl := .ready } nofun fun _ => rfl

variable (hs : s.ctl = .ready)
include hs

theorem phase_packSingle (bs : List Byte) : Phase fun x => packSingle x.activity bs (s.within x) :=
  phase_bind (contextFree_memWrite .pageBuf 0 bs) fun _ hu => phase_bind contextFree_buildFooter fun _ hv =>
    phase_request ((hv.trans hu).trans hs) .pageBuf 0 Config.pageSize .pageWrite

theorem phase_packDual (bs : List Byte) : Phase fun x => packDual x.activity bs (s.within x) :=
  phase_bind (contextFree_memWrite .pageBuf 0 bs) fun _ hu => phase_bind contextFree_duplicatePage fun _ hv =>
    phase_request ((hv.trans hu).trans hs) .pageBuf 0 Config.dpWriteSize .pageWrite

theorem phase_afterInRead (r : ReadAnswer) : Phase fun x => afterInRead x.activity r (s.within x) := by
  cases r with
  | error => exact phase_raise _
  | data d =>
    by_cases hd : d.bytes = []
    · exact .ended { s with ctl := .done } nofun fun x => if_pos hd
    · cases hg : s.geom with
      | none => exact .fault .noGeometry fun x => by simp [afterInRead, hd, State.within, hg]
      | single => simpa only [afterInRead_single (s := s.within _) hg hd] using phase_packSingle hs d.bytes
      | dual => simpa only [afterInRead_dual (s := s.within _) hg hd] using phase_packDual hs d.bytes

theorem phase_advancePage : Phase fun x => advancePage x.activity (s.within x) :=
  .ended { s with pageIdx := s.pageIdx + 1 } (by simp [hs]) fun _ => rfl

theorem phase_requestFooter : Phase fun x => requestFooter x.activity (s.within x) :=
  phase_request hs .oobBuf 0 Config.oobSize fun payload => .oobWrite payload (s.pageIdx * Config.pageSize)

theorem phase_afterPageWrite (a : Ack) : Phase fun x => afterPageWrite x.activity a (s.within x) := by
  cases a with
  | error => exact phase_raise _
  | ok =>
    cases hg : s.geom with
    | none => exact .fault .noGeometry fun x => by simp [afterPageWrite, State.within, hg]
    | single => simpa only [afterPageWrite_single (s := s.within _) hg] using phase_requestFooter hs
    | dual => simpa only [afterPageWrite_dual (s := s.within _) hg] using phase_advancePage hs

theorem phase_afterOobWrite (a : Ack) : Phase fun x => afterOobWrite x.activity a (s.within x) := by
  cases a with
  | error => exact phase_raise _
  | ok => exact phase_advancePage hs

end Phases

/-- A transaction on a request that is in order is the same in every context. -/
theorem phase_transact {r : Request} {s : State} (h : InOrder r s) : (∀ x : Context, transact ⟨x.activity, r⟩ (s.within x) = none) ∨
    ∃ f, Phase f ∧ ∀ x : Context, transact ⟨x.activity, r⟩ (s.within x) = some (f x) := by
  cases r with
  | geomQuery =>
    cases hq : s.answers.geom with
    | nil => exact .inl fun x => by simp [transact, State.within, hq]
    | cons g rest => exact .inr ⟨_, phase_afterGeomQuery (s := record (.geomQuery g) { s with answers := { s.answers with geom := rest } }) g,
        fun x => transact_geom (u := s.within x) hq⟩
  | rawMode =>
    cases hq : s.answers.raw with
    | nil => exact .inl fun x => by simp [transact, State.within, hq]
    | cons a rest => exact .inr ⟨_, phase_afterRawMode (s := record (.rawMode a) { s with answers := { s.answers with raw := rest } }) a,
        fun x => transact_raw (u := s.within x) hq⟩
  | inRead n =>
    have hs : s.ctl = .ready := by simpa [InOrder] using h
    cases hq : s.answers.read with
    | nil => exact .inl fun x => by simp [transact, State.within, hq]
    | cons a rest => exact .inr ⟨_, phase_afterInRead (s := record (.inRead n a) { s with answers := { s.answers with read := rest } }) hs a,
        fun x => transact_read (u := s.within x) hq⟩
  | pageWrite payload =>
    have hs : s.ctl = .ready := by simpa [InOrder] using h
    cases hq : s.answers.page with
    | nil => exact .inl fun x => by simp [transact, State.within, hq]
    | cons a rest => exact .inr ⟨_, phase_afterPageWrite
        (s := record (.pageWrite payload a) { s with answers := { s.answers with page := rest } }) hs a,
        fun x => transact_page (u := s.within x) hq⟩
  | oobWrite payload off =>
    have hs : s.ctl = .ready := by simpa [InOrder] using h
    cases hq : s.answers.oob with
    | nil => exact .inl fun x => by simp [transact, State.within, hq]
    | cons a rest => exact .inr ⟨_, phase_afterOobWrite
        (s := record (.oobWrite payload off a) { s with answers := { s.answers with oob := rest } }) hs a,
        fun x => transact_oob (u := s.within x) hq⟩

/-! ## A command up to the end of a phase -/

/-- One transaction of a command in progress, whatever it comes to, then the rest. -/
theorem proceed_answered {s : State} {b : Busy} {x : Except Fault State} (hb : s.busy = some b) (ht : transact b s = some x) :
    proceed s = started x := by
  cases x with
  | ok t => exact proceed_transact hb ht
  | error f =>
    have hcount : s.answers.count ≠ 0 := by
      rcases transact_cases ht with ⟨_, _, _, ha, _⟩ | ⟨_, _, _, ha, _⟩ | ⟨_, _, _, _, ha, _⟩ | ⟨_, _, _, _, ha, _⟩ |
        ⟨_, _, _, _, _, ha, _⟩ <;> simp [Answers.count, ha]
    obtain ⟨n, hn⟩ := Nat.exists_eq_succ_of_ne_zero hcount
    simp [proceed, hn, drive, hb, ht, started]

/-- How a command in progress with `n` answers comes out, said for all contexts at once: it faults, it waits on a request, or it comes to the end of a
phase with fewer answers, where `continued` tells the commands apart. -/
inductive PhaseOutcome (n : Nat) (y : Context → Host.Outcome State Fault Refusal) : Prop where
  | fault (e : Fault) (h : ∀ x, y x = .fault e)
  | waits (r : Request) (u : State) (h : ∀ x, y x = .next (issue x.activity r (u.within x)))
  | ended (u : State) (hc : u.ctl ≠ .idle) (hn : u.answers.count < n)
      (h : ∀ x : Context, ∃ b, y x = continued x.activity (u.within { x with busy := b }))

/-- A command that goes on to where it comes out with fewer answers comes out there. -/
theorem PhaseOutcome.earlier {m n : Nat} {y z : Context → Host.Outcome State Fault Refusal} (hy : PhaseOutcome m y) (hmn : m ≤ n)
    (h : ∀ x : Context, ∃ b, z x = y { x with busy := b }) : PhaseOutcome n z := by
  cases hy with
  | fault e he => exact .fault e fun x => let ⟨_, hx⟩ := h x; hx.trans (he _)
  | waits r u hu => exact .waits r u fun x => let ⟨_, hx⟩ := h x; hx.trans (hu _)
  | ended u hc hn hu =>
    refine .ended u hc (by omega) fun x => ?_
    obtain ⟨b, hx⟩ := h x
    obtain ⟨b', hu⟩ := hu { x with busy := b }
    exact ⟨b', hx.trans hu⟩

/-- From a request in order a command comes out in the same way in every context: by induction over its transactions. -/
theorem phaseOutcome_request (n : Nat) : ∀ {r : Request} {s : State}, InOrder r s → s.answers.count = n →
    PhaseOutcome n fun x => proceed (issue x.activity r (s.within x)) := by
  induction n using Nat.strong_induction_on with
  | _ n ih =>
    intro r s hr hn
    rcases phase_transact hr with ht | ⟨f, hf, ht⟩
    · exact .waits r s fun x => proceed_unanswered rfl (ht { x with busy := some ⟨x.activity, r⟩ })
    · have hgo : ∀ x : Context, proceed (issue x.activity r (s.within x)) = started (f { x with busy := some ⟨x.activity, r⟩ }) :=
        fun x => proceed_answered rfl (ht { x with busy := some ⟨x.activity, r⟩ })
      have htaken : ∀ x t, f x = .ok t → t.answers.count < n := fun x t hx => by
        have := (transact_quiet ((ht x).trans (congrArg some hx))).1
        change t.answers.count + 1 = s.answers.count at this
        omega
      cases hf with
      | fault e he => exact .fault e fun x => by rw [hgo, he]; rfl
      | request r' u hr' hu =>
        have hu' : u.answers.count < n := htaken ⟨.page, none, []⟩ (issue .page r' (u.within ⟨.page, none, []⟩)) (hu ⟨.page, none, []⟩)
        refine (ih _ hu' hr' rfl).earlier hu'.le fun x => ⟨some ⟨x.activity, r⟩, ?_⟩
        rw [hgo, hu]
        rfl
      | ended u hc hu =>
        have hu' : u.answers.count < n := htaken ⟨.page, none, []⟩ (complete (u.within ⟨.page, none, []⟩)) (hu ⟨.page, none, []⟩)
        refine .ended u hc hu' fun x => ⟨some ⟨x.activity, r⟩, ?_⟩
        rw [hgo, hu]
        rfl

/-! ## `RUN` against `INIT` and `PAGE` (R144) -/

/-- A page starts in the same way in every context. -/
theorem startPage_within (s : State) : (∃ e, ∀ x : Context, startPage x.activity (s.within x) = .error e) ∨
    ∃ u : State, u.ctl = s.ctl ∧ ∀ x : Context, startPage x.activity (s.within x) = .ok (issue x.activity (.inRead 2048) (u.within x)) := by
  by_cases hg : s.geom = .none
  · exact .inl ⟨.noGeometry, fun x => by simp [startPage, State.within, hg]⟩
  · have hstart : ∀ x : Context, startPage x.activity (s.within x) =
        clearPage (writeLength s.geom) (s.within x) >>= fun u => .ok (issue x.activity (.inRead 2048) u) := fun x => by
      cases h : s.geom with
      | none => exact absurd h hg
      | single => simp [startPage, State.within, h, writeLength]
      | dual => simp [startPage, State.within, h, writeLength]
    simp only [hstart]
    obtain ⟨e, he⟩ | ⟨u, hu, h⟩ := contextFree_memWrite .pageBuf 0 (List.replicate (writeLength s.geom) Config.fill) s
    · exact .inl ⟨e, fun x => by rw [clearPage, he]; rfl⟩
    · exact .inr ⟨u, hu, fun x => by rw [clearPage, h]; rfl⟩

/-- At the head of its loop `RUN` starts a page where `PAGE` would be admitted. -/
theorem continued_run_admitted {s : State} (h : s.admitsPage = true) : continued .run s = started (startPage .run s) := by
  have : continueWith .run s = startPage .run s := if_pos h
  rw [continued, this]
  rfl

/-- At the head of its loop `RUN` ends where `PAGE` would not be admitted. -/
theorem continued_run_not_admitted {s : State} (h : s.admitsPage ≠ true) : continued .run s = .next (complete s) := by
  have : continueWith .run s = .ok (complete s) := if_neg h
  rw [continued, this]
  exact proceed_idle rfl

theorem pagesWhileAdmitted_succ {s t : State} (hb : s.busy = none) (ha : s.admitsPage = true) (h : exec .page s = .next t) (n : Nat) :
    pagesWhileAdmitted (n + 1) s = pagesWhileAdmitted n t := by
  simp [pagesWhileAdmitted, hb, ha, h]

/-- The loop of `RUN`, where it ends, is `PAGE` while it is admitted, whatever responses were given before. By induction over the answers left: a page
inside the loop comes out as a `PAGE` does and takes some. -/
theorem continued_run_eq_pages (n : Nat) : ∀ {s t : State}, s.answers.count = n → s.ctl ≠ .idle → continued .run s = .next t →
    t.busy = none → ∀ rs, ∃ (k : Nat) (v : State), pagesWhileAdmitted k (s.within ⟨.page, none, rs⟩) = .next v ∧ v.busy = none ∧ v.ctl ≠ .idle ∧
      v.admitsPage = false ∧ t = { v with responses := s.responses ++ [.status v.status] } := by
  induction n using Nat.strong_induction_on with
  | _ n ih =>
    intro s t hn hc ht hb rs
    by_cases ha : s.admitsPage = true
    · rw [continued_run_admitted ha] at ht
      have hready : s.ctl = .ready := by simp_all [State.admitsPage]
      rcases startPage_within s with ⟨e, he⟩ | ⟨u, hu, hstart⟩
      · have hfault : startPage .run s = .error e := he ⟨.run, s.busy, s.responses⟩
        rw [hfault] at ht
        cases ht
      · have hrun : startPage .run s = .ok (issue .run (.inRead 2048) (u.within ⟨.run, s.busy, s.responses⟩)) :=
          hstart ⟨.run, s.busy, s.responses⟩
        have hcount : u.answers.count = n := hn ▸ congrArg Answers.count (quiet_startPage hrun).answers
        rw [hrun] at ht
        rcases phaseOutcome_request n (.inl (hu.trans hready)) hcount with ⟨e, he⟩ | ⟨r, w, hw⟩ | ⟨w, hwc, hwn, hw⟩
        · cases (he ⟨.run, s.busy, s.responses⟩).symm.trans ht
        · cases (hw ⟨.run, s.busy, s.responses⟩).symm.trans ht
          cases hb
        · obtain ⟨b, hrest⟩ := hw ⟨.run, s.busy, s.responses⟩
          obtain ⟨b', hpage⟩ := hw ⟨.page, none, rs⟩
          obtain ⟨k, v, hpages, hv⟩ := ih _ hwn (s := w.within ⟨.run, b, s.responses⟩) rfl hwc (hrest.symm.trans ht) hb
            (rs ++ [.status w.status])
          refine ⟨k + 1, v, ?_, hv⟩
          rw [← hpages]
          refine pagesWhileAdmitted_succ (s := s.within ⟨.page, none, rs⟩) rfl ha ?_ k
          rw [exec_page_started (s := s.within ⟨.page, none, rs⟩) ha, hstart ⟨.page, none, rs⟩]
          exact hpage.trans (continued_page _)
    · rw [continued_run_not_admitted ha] at ht
      cases ht
      exact ⟨0, s.within ⟨.page, none, rs⟩, rfl, rfl, hc, Bool.eq_false_of_not_eq_true ha, rfl⟩

/-- A `RUN` that completes came to the head of its loop out of `IDLE`, and there `INIT` completes. -/
theorem exec_run_opened {s t : State} (hc : s.ctl = .idle) (ht : exec .run s = .next t) (hb : t.busy = none) :
    ∃ u : State, u.ctl ≠ .idle ∧ u.responses = s.responses ∧ continued .run u = .next t ∧ exec .init s = .next (complete u) := by
  rw [exec_run hc] at ht
  rcases phaseOutcome_request _ (r := .geomQuery) (s := s) (.inr (.inl rfl)) rfl with ⟨e, he⟩ | ⟨r, w, hw⟩ | ⟨w, hwc, -, hw⟩
  · cases (he ⟨.run, s.busy, s.responses⟩).symm.trans ht
  · cases (hw ⟨.run, s.busy, s.responses⟩).symm.trans ht
    cases hb
  · obtain ⟨b, hrest⟩ := hw ⟨.run, s.busy, s.responses⟩
    obtain ⟨b', hinit⟩ := hw ⟨.init, s.busy, s.responses⟩
    refine ⟨w.within ⟨.run, b, s.responses⟩, hwc, rfl, hrest.symm.trans ht, ?_⟩
    rw [exec_init hc]
    exact hinit.trans (continued_init _)

/-- Settles O40: `INIT` completes where `RUN` comes to its loop, and the loop is `PAGE` while it is admitted. -/
theorem runIsInitThenPages : Obligations.RunIsInitThenPages := by
  intro s t hc ht hb
  obtain ⟨u, huc, hur, hloop, hinit⟩ := exec_run_opened hc ht hb
  obtain ⟨k, v, hpages, hvb, -, hva, hv⟩ := continued_run_eq_pages _ rfl huc hloop hb (complete u).responses
  exact ⟨k, complete u, v, hinit, rfl, hpages, hvb, hva, hur ▸ hv⟩

/-- Settles O41: after its last page `RUN` is out of `IDLE` and admits no page. -/
theorem runEndsOverOrAtBound : Obligations.RunEndsOverOrAtBound := by
  intro s t hc ht hb
  obtain ⟨u, huc, -, hloop, -⟩ := exec_run_opened hc ht hb
  obtain ⟨k, v, -, -, hvc, hva, rfl⟩ := continued_run_eq_pages _ rfl huc hloop hb []
  cases hk : v.ctl with
  | idle => exact absurd hk hvc
  | ready => exact .inr ⟨rfl, by simpa [State.admitsPage, State.atBound, hk] using hva⟩
  | done => exact .inl rfl
  | failed => exact .inl rfl

end Sys2Proof.Machine

/-! The statements of 60_exceptions.md: which commands are refused (R195), what each exception leaves (R181 to R189), and a command that waits on the
environment (R198). -/

namespace Sys2Proof.Machine

/-! ## Which commands are refused (R195) -/

/-- Whether a command is refused in the state: the rows of R195's table for a word that decodes. -/
def State.declines (s : State) : Instr → Bool
  | .par _ _   => false
  | .ecc _     => false
  | .enc _     => false
  | .init      => !s.admitsStart
  | .page      => !s.admitsPage
  | .run       => !s.admitsStart
  | .reserved6 => true
  | .reserved7 => true

/-- R195's table is the length of the word, and what the command is if the length is right. -/
theorem refusalCase_eq (w : CmdWord) (s : State) :
    refusalCase w s = (w.len != formatLen w.op || s.declines (decodePayload w)) := by
  have hop : w.op < 8 := BitVec.isLt _
  unfold refusalCase decodePayload
  interval_cases w.op <;> simp [State.declines, State.admitsStart, State.admitsPage, State.atBound, Bool.or_assoc, bne]

/-- A word of the wrong length is refused (R83). -/
theorem step_of_wrong_length {s : State} {w : CmdWord} {rest : List HostInput} (hb : s.busy = none)
    (hin : s.inputs = .command w :: rest) (hlen : w.len ≠ formatLen w.op) : step s = .next (refuse { s with inputs := rest }) := by
  cases hd : decode w with
  | ok i => exact absurd (decode_eq_ok hd).1 hlen
  | error e => simp only [step, hb, fetch, hin, hd]

/-- A command that only responds does so in the step that takes it. -/
theorem accept_of_exec_respond {i : Instr} {s : State} {r : Response} (hb : s.busy = none)
    (h : exec i (s.withAnswers Answers.empty) = .next ((s.withAnswers Answers.empty).respond r)) : accept i s = .next (s.respond r) := by
  unfold accept
  rw [h]
  exact drive_idle (s := s.respond r) hb 1

theorem exec_declined {i : Instr} {s : State} (h : s.declines i = true) : exec i s = .next (s.respond .refused) := by
  cases i with
  | par value mask => cases h
  | ecc block => cases h
  | enc code => cases h
  | init => exact if_neg (by simpa [State.declines] using h)
  | page => exact exec_page_not_admitted (by simpa [State.declines] using h)
  | run => exact if_neg (by simpa [State.declines] using h)
  | reserved6 => rfl
  | reserved7 => rfl

/-! ## What an admitted command responds (R84) -/

/-- From `s` to `t` no response was given, or the status was (R84). -/
def AtMostStatus (s t : State) : Prop := t.responses = s.responses ∨ ∃ st, t.responses = s.responses ++ [.status st]

theorem atMostStatus_startPage {c : Activity} {s t : State} (h : startPage c s = .ok t) : AtMostStatus s t := by
  obtain ⟨e, he⟩ | ⟨u, -, hu⟩ := startPage_within s
  · cases h.symm.trans (he ⟨c, s.busy, s.responses⟩)
  · cases h.symm.trans (hu ⟨c, s.busy, s.responses⟩)
    exact .inl rfl

theorem atMostStatus_continueWith {c : Activity} {s t : State} (h : continueWith c s = .ok t) : AtMostStatus s t := by
  have completed : AtMostStatus s (complete s) := .inr ⟨_, rfl⟩
  cases c with
  | init => cases h; exact completed
  | page => cases h; exact completed
  | run =>
    change loopRun s = .ok t at h
    unfold loopRun at h
    split at h
    · exact atMostStatus_startPage h
    · cases h; exact completed

/-- A transaction on a request in order gives no response but the status: its phase ends in a request, or goes to the end of the command. -/
theorem atMostStatus_transact {c : Activity} {r : Request} {s t : State} (hr : InOrder r s) (h : transact ⟨c, r⟩ s = some (.ok t)) :
    AtMostStatus s t := by
  rcases phase_transact hr with hnone | ⟨f, hf, hsome⟩
  · cases h.symm.trans (hnone ⟨c, s.busy, s.responses⟩)
  · have hft : f ⟨c, s.busy, s.responses⟩ = .ok t := Option.some.inj ((hsome ⟨c, s.busy, s.responses⟩).symm.trans h)
    cases hf with
    | fault e he => cases hft.symm.trans (he _)
    | request r' u _ hu =>
      cases hft.symm.trans (hu _)
      exact .inl rfl
    | ended u _ hu => exact atMostStatus_continueWith (s := u.within ⟨c, s.busy, s.responses⟩) ((hu _).symm.trans hft)

/-- The first transaction of a command, or none if its request is unanswered, gives no response but the status. -/
theorem atMostStatus_drive_one {b : Busy} {s t : State} (hb : s.busy = some b) (hr : InOrder b.request s) (h : drive 1 s = .next t) :
    AtMostStatus s t := by
  rcases drive_one h with ⟨rfl, -⟩ | ⟨b', hb', ht⟩
  · exact .inl rfl
  · cases hb.symm.trans hb'
    exact atMostStatus_transact hr ht

/-- `INIT` and `RUN` open the run with `GeomQuery` (R140, R144). -/
theorem exec_opens {i : Instr} (hi : i ∈ [Instr.init, Instr.run]) {s : State} (h : s.ctl = .idle) :
    ∃ c, exec i s = proceed (issue c .geomQuery s) := by
  simp only [List.mem_cons, List.not_mem_nil, or_false] at hi
  rcases hi with rfl | rfl
  · exact ⟨.init, exec_init h⟩
  · exact ⟨.run, exec_run h⟩

/-- The step that opens a run gives no response but the status. -/
theorem atMostStatus_accept_open {i : Instr} (hi : i ∈ [Instr.init, Instr.run]) {s t : State} (hc : s.ctl = .idle)
    (h : accept i s = .next t) : AtMostStatus s t := by
  obtain ⟨c, hopen⟩ := exec_opens hi (s := s.withAnswers Answers.empty) hc
  rw [accept, hopen] at h
  exact atMostStatus_drive_one (s := issue c .geomQuery s) rfl (.inr (.inl rfl)) h

/-- A `PAGE` that is admitted and does not fault starts its page, and then makes the first transaction if it is answered. -/
theorem accept_page_inv {s t : State} (hadm : s.admitsPage = true) (h : accept .page s = .next t) :
    ∃ u, startPage .page s = .ok u ∧ drive 1 u = .next t := by
  rw [accept, exec_page_started (s := s.withAnswers Answers.empty) hadm, startPage_withAnswers] at h
  cases hu : startPage .page s with
  | error f =>
    rw [hu] at h
    cases h
  | ok u =>
    have ha : u.withAnswers s.answers = u := by rw [← (quiet_startPage hu).answers, withAnswers_self]
    rw [hu] at h
    change drive 1 (u.withAnswers s.answers) = .next t at h
    exact ⟨u, rfl, ha ▸ h⟩

/-- The step that starts a page gives no response but the status. -/
theorem atMostStatus_accept_page {s t : State} (hadm : s.admitsPage = true) (h : accept .page s = .next t) : AtMostStatus s t := by
  have hready : s.ctl = .ready := by simp_all [State.admitsPage]
  obtain ⟨u, hu, h⟩ := accept_page_inv hadm h
  obtain ⟨e, he⟩ | ⟨v, hv, hstart⟩ := startPage_within s
  · cases hu.symm.trans (he ⟨.page, s.busy, s.responses⟩)
  · cases hu.symm.trans (hstart ⟨.page, s.busy, s.responses⟩)
    exact atMostStatus_drive_one (s := issue .page (.inRead 2048) (v.within ⟨.page, s.busy, s.responses⟩)) rfl
      (.inl (hv.trans hready)) h

/-- A command that is not refused answers with its result or, if it completes, with the status. -/
theorem response_ne_refused {i : Instr} {s t : State} (hwf : i.wellFormed = true) (hb : s.busy = none) (hadm : s.declines i = false)
    (h : accept i s = .next t) {r : Response} (hr : t.responses = s.responses ++ [r]) : r ≠ .refused := by
  have of_result : ∀ q : Response, q ≠ .refused →
      exec i (s.withAnswers Answers.empty) = .next ((s.withAnswers Answers.empty).respond q) → r ≠ .refused := by
    intro q hq he
    cases (accept_of_exec_respond hb he).symm.trans h
    obtain rfl : q = r := by simpa using hr
    exact hq
  have of_status : AtMostStatus s t → r ≠ .refused := by
    rintro (hsame | ⟨st, hst⟩)
    · simp [hsame] at hr
    · obtain rfl : .status st = r := by simpa [hst] using hr
      nofun
  cases i with
  | par value mask => exact of_result (.bit _) nofun rfl
  | ecc block => exact of_result (.code _) nofun (if_pos (by simpa [Instr.wellFormed] using hwf))
  | enc code => exact of_result (.triple _) nofun rfl
  | init =>
    have hidle : s.ctl = .idle := by simpa [State.declines, State.admitsStart] using hadm
    exact of_status (atMostStatus_accept_open (by simp) hidle h)
  | page => exact of_status (atMostStatus_accept_page (by simpa [State.declines] using hadm) h)
  | run =>
    have hidle : s.ctl = .idle := by simpa [State.declines, State.admitsStart] using hadm
    exact of_status (atMostStatus_accept_open (by simp) hidle h)
  | reserved6 => cases hadm
  | reserved7 => cases hadm

/-- Settles O6: a word of another length and a command that is declined are refused in the step that takes them; any other word decodes to a command
that answers its result or the status. -/
theorem refusedInExactlyTheCasesOfR195 : Obligations.RefusedInExactlyTheCasesOfR195 := by
  intro s w rest hb hin
  rw [refusalCase_eq]
  by_cases hlen : w.len = formatLen w.op
  · have hstep := step_command hb hin (decode_of_len hlen)
    simp only [hlen, bne_self_eq_false, Bool.false_or]
    refine ⟨fun hdecl => hstep.trans ?_, fun hadm t ht r hr => ?_⟩
    · exact accept_of_exec_respond (s := { s with inputs := rest }) hb (exec_declined hdecl)
    · exact response_ne_refused (s := { s with inputs := rest }) (decodePayload_wellFormed w) hb hadm (hstep.symm.trans ht) hr
  · simp only [bne_iff_ne.2 hlen, Bool.true_or]
    exact ⟨fun _ => step_of_wrong_length hb hin hlen, nofun⟩

/-! ## Exceptions (R180 to R189) -/

/-- A transaction that raises an exception is the last of its command (R189). -/
theorem proceed_raise {s t : State} {b : Busy} {x : Exc} (hb : s.busy = some b) (ht : transact b s = some (.ok (raise x t))) :
    proceed s = .next (raise x t) := (proceed_transact hb ht).trans (proceed_idle rfl)

section Raise

/-! The answer on each port that raises an exception: the event is recorded, and the command ends. -/

variable {s : State} {c : Activity}

theorem proceed_geom_notFound {rest : List GeomAnswer} (hb : s.busy = some ⟨c, .geomQuery⟩) (ha : s.answers.geom = .notFound :: rest) :
    proceed s = .next (raise .geomNotFound (record (.geomQuery .notFound) { s with answers := { s.answers with geom := rest } })) :=
  proceed_raise hb (transact_geom ha)

theorem proceed_raw_error {rest : List Ack} (hb : s.busy = some ⟨c, .rawMode⟩) (ha : s.answers.raw = .error :: rest) :
    proceed s = .next (raise .modeSelect (record (.rawMode .error) { s with answers := { s.answers with raw := rest } })) :=
  proceed_raise hb (transact_raw ha)

theorem proceed_read_error {n : Nat} {rest : List ReadAnswer} (hb : s.busy = some ⟨c, .inRead n⟩) (ha : s.answers.read = .error :: rest) :
    proceed s = .next (raise .readError (record (.inRead n .error) { s with answers := { s.answers with read := rest } })) :=
  proceed_raise hb (transact_read ha)

theorem proceed_page_error {payload : List Byte} {rest : List Ack} (hb : s.busy = some ⟨c, .pageWrite payload⟩)
    (ha : s.answers.page = .error :: rest) : proceed s =
      .next (raise .writeErrorPage (record (.pageWrite payload .error) { s with answers := { s.answers with page := rest } })) :=
  proceed_raise hb (transact_page ha)

theorem proceed_oob_error {payload : List Byte} {off : Nat} {rest : List Ack} (hb : s.busy = some ⟨c, .oobWrite payload off⟩)
    (ha : s.answers.oob = .error :: rest) : proceed s =
      .next (raise .writeErrorOob (record (.oobWrite payload off .error) { s with answers := { s.answers with oob := rest } })) :=
  proceed_raise hb (transact_oob ha)

end Raise

/-- Settles O35: the read that starts the page raises the exception, on either geometry. -/
theorem readErrorIsFatal : Obligations.ReadErrorIsFatal := by
  intro s rs hc hg hm hr
  obtain ⟨p, hstart, -, hp⟩ := startPage_ok .page hg
  have hend := (exec_page hc hm hstart).trans (proceed_read_error rfl hr)
  exact ⟨p, _, _, hend, hp.rest⟩

/-- A page on either geometry up to its page write (R142 and R143 steps 1 to 4). -/
theorem geom_read (c : Activity) {s : State} {d : InData} {rs : List ReadAnswer} (hg : s.geom ≠ .none)
    (hr : s.answers.read = .data d :: rs) (hd : d.bytes ≠ []) :
    ∃ t p o, startPage c s = .ok t ∧ WrittenBelow (writeLength s.geom) s.pageBuf p ∧ FootersBelow s.geom s.oobBuf o ∧
      proceed t = proceed { s with
        pageBuf := p, oobBuf := o, busy := some ⟨c, .pageWrite (pagePayload s.geom (padPage d.bytes))⟩,
        history := s.history ++ [.inRead 2048 (.data d)], answers := { s.answers with read := rs },
        world := { s.world with inPos := s.world.inPos + d.bytes.length } } := by
  cases hgeom : s.geom with
  | none => exact absurd hgeom hg
  | single =>
    obtain ⟨t, p, o, hstart, -, -, hp, ho, hread⟩ := single_read c hgeom hr hd
    rw [hgeom] at hread
    exact ⟨t, p, o, hstart, hp, ⟨ho, nofun⟩, hread⟩
  | dual =>
    obtain ⟨t, p, hstart, -, hp, hread⟩ := dual_read c hgeom hr hd
    rw [hgeom] at hread
    exact ⟨t, p, s.oobBuf, hstart, hp, ⟨.refl _ _, fun _ => rfl⟩, hread⟩

/-- Settles O36: the page is read on either geometry, and its write raises the exception. -/
theorem pageWriteErrorIsFatal : Obligations.PageWriteErrorIsFatal := by
  intro s d rs ps hc hg hm hr hd hp
  obtain ⟨t, p, o, hstart, hpage, hoob, hread⟩ := geom_read .page hg hr hd
  have hend := (exec_page hc hm hstart).trans (hread.trans (proceed_page_error rfl hp))
  rw [List.append_cons s.history]
  exact ⟨p, o, _, _, hend, hpage.rest, hoob.dual, hoob.written.rest⟩

/-- After the page write on single-plane geometry the write of the footer in `OOBBUF` is requested (R142 step 4). -/
theorem proceed_page_ok_single {s : State} {c : Activity} {payload f : List Byte} {rest : List Ack}
    (hb : s.busy = some ⟨c, .pageWrite payload⟩) (ha : s.answers.page = .ok :: rest) (hg : s.geom = .single)
    (hl : f.length = 64) (hf : s.oobBuf.slice 0 64 = Memory.cells 0 f) :
    proceed s = proceed (issue c (.oobWrite f (s.pageIdx * 2048))
      (record (.pageWrite payload .ok) { s with answers := { s.answers with page := rest } })) :=
  proceed_transact hb <| (transact_page ha).trans <| congrArg some <| by
    rw [afterPageWrite_single (by exact hg)]
    exact requestFooter_ok c hl (by exact hf)

/-- Settles O37: the page is written, and its footer's write raises the exception. -/
theorem oobWriteErrorIsFatal : Obligations.OobWriteErrorIsFatal := by
  intro s d rs ps os hc hg hm hr hd hp ho
  obtain ⟨t, p, o, hstart, -, hfooter, hpage, hoob, hread⟩ := single_read .page hg hr hd
  have hwrite := hread.trans (proceed_page_ok_single rfl hp hg (footer_length _) hfooter)
  have hend := (exec_page hc hm hstart).trans (hwrite.trans (proceed_oob_error rfl ho))
  rw [List.append_cons s.history, List.append_cons (s.history ++ _), ← hg]
  exact ⟨p, o, _, _, hend, hpage.rest, hoob.rest⟩

/-- Settles O29: the first request of either command raises the exception. -/
theorem geometryNotFoundIsFatal : Obligations.GeometryNotFoundIsFatal := by
  intro s gs i hi hc hg
  obtain ⟨c, hopen⟩ := exec_opens hi hc
  exact hopen.trans (proceed_geom_notFound rfl hg)

/-- On single-plane geometry the mode select follows `GeomQuery` (R140). -/
theorem proceed_geom_single {s : State} {c : Activity} {rest : List GeomAnswer} (hb : s.busy = some ⟨c, .geomQuery⟩)
    (ha : s.answers.geom = .single :: rest) : proceed s = proceed (issue c .rawMode
      { record (.geomQuery .single) { s with answers := { s.answers with geom := rest } } with geom := .single }) :=
  proceed_transact hb (transact_geom ha)

/-- Settles O30: after `GeomQuery` on single-plane geometry the mode select raises the exception. -/
theorem modeSelectErrorIsFatal : Obligations.ModeSelectErrorIsFatal := by
  intro s gs rs i hi hc hg hr
  obtain ⟨c, hopen⟩ := exec_opens hi hc
  have hquery := hopen.trans (proceed_geom_single rfl hg)
  have hend := hquery.trans (proceed_raw_error rfl hr)
  rw [List.append_cons s.history]
  exact ⟨_, _, hend⟩

/-! ## Every command is total (R197) -/

/-- Settles O51: from a state of the invariant a command answers a state, of the invariant again. -/
theorem everyCommandIsTotal : Obligations.EveryCommandIsTotal := fun i _ h hb =>
  let ⟨t, ht, _⟩ := exec_inv i h hb
  ⟨t, ht⟩

/-! ## Waiting on the environment (R198) -/

/-- Settles O42: a command is its start and then the transactions that are answered, which stop only at an unanswered request. -/
theorem commandStopsOnlyToWait : Obligations.CommandStopsOnlyToWait := by
  intro i s t b hs h hb
  obtain ⟨x, -, -, hexec⟩ := accept_started i hs
  rw [hexec] at h
  cases x with
  | error f => cases h
  | ok u => rw [State.answered, proceed_end h hb, Option.isSome_none]

theorem proceed_geom_unanswered {s : State} {c : Activity} (hb : s.busy = some ⟨c, .geomQuery⟩) (ha : s.answers.geom = []) :
    proceed s = .next s := proceed_unanswered hb (by simp only [transact, ha])

theorem proceed_read_unanswered {s : State} {c : Activity} {n : Nat} (hb : s.busy = some ⟨c, .inRead n⟩) (ha : s.answers.read = []) :
    proceed s = .next s := proceed_unanswered hb (by simp only [transact, ha])

/-- Settles O44: the first request of each command is unanswered, and the command stops there. -/
theorem commandsWaitForTheirFirstAnswer : Obligations.CommandsWaitForTheirFirstAnswer := by
  refine fun s => ⟨fun hc hq => ⟨?init, ?run⟩, fun hc hg hm hq => ?page⟩
  case init => exact (exec_init hc).trans (proceed_geom_unanswered rfl hq)
  case run => exact (exec_run hc).trans (proceed_geom_unanswered rfl hq)
  case page =>
    obtain ⟨p, hstart, -, hp⟩ := startPage_ok .page hg
    exact ⟨p, (exec_page hc hm hstart).trans (proceed_read_unanswered rfl hq), hp.rest⟩

/-- Settles O43: a step inside a command is its transaction, which enters one event. -/
theorem waitingBlockDoesNotMove : Obligations.WaitingBlockDoesNotMove := by
  intro s b hb
  refine ⟨fun hwait => ?_, fun t ht => ⟨?_, ?_⟩, fun f hf => ?_⟩
  · have hnone : transact b s = none := by simpa [State.answered] using hwait
    rw [step_busy hb, hnone]
  · rw [step_busy hb, ht]
  · obtain ⟨-, hevent, -⟩ := transact_quiet ht
    exact hevent
  · rw [step_busy hb, hf]

end Sys2Proof.Machine

/-! The statements of 70_reset_and_hazards.md: reset between commands (R33, R34, R210), and a run that is over with success (R215). -/

namespace Sys2Proof.Machine

/-! ## Reset between commands (R210) -/

/-- Between commands a step takes the reset presented (R210). -/
theorem step_reset {s : State} {rest : List HostInput} (hb : s.busy = none) (hin : s.inputs = .reset :: rest) :
    step s = .next (applyReset { s with inputs := rest }) := by
  simp only [step, hb, fetch, hin]

/-- Settles O47: the step is `applyReset`, which gives the control elements their reset values and keeps the rest. -/
theorem resetRestoresControlElements : Obligations.ResetRestoresControlElements := fun _ _ hb hin =>
  ⟨_, step_reset hb hin, rfl, rfl, rfl, rfl, fun _ => ⟨rfl, rfl⟩, rfl, rfl, rfl, rfl, rfl, rfl, rfl, runInv_applyReset _⟩

/-! ## A run that is over with success (R215) -/

/-- Only a read answered with zero bytes leads to `DONE` (R142, R143 step 2). -/
theorem inRead_empty_of_done {v v' : View} {e : Event} (hv : ViewOk v) (h : v.next e = some v') (hc : v'.ctl = .done) :
    ∃ d : InData, d.bytes = [] ∧ e = .inRead 2048 (.data d) := by
  rcases next_cases h with ⟨-, -, rfl⟩ | ⟨ha, -, rfl⟩ | ⟨-, -, rfl⟩ | ⟨-, -, rfl⟩ | ⟨-, -, rfl⟩ | ⟨-, -, rfl⟩ | ⟨d, -, he, hd, -⟩ |
    ⟨_, ha, -, -, rfl⟩ | ⟨_, -, -, rfl⟩ | ⟨_, ha, -, -, rfl⟩ | ⟨_, ha, -, -, rfl⟩ | ⟨_, -, -, rfl⟩ | ⟨_, ha, -, rfl⟩
  case inr.inr.inr.inr.inr.inr.inl => exact ⟨d, hd, he⟩
  all_goals simp_all [ViewOk, View.fail]

/-- A history that leads to `DONE` ends with the read that found the end of the stream: before the first event `STATE` is `IDLE`. -/
theorem afterEvents_done : ∀ (h : List Event) (v : View), View.start.afterEvents h = some v → v.ctl = .done →
    ∃ d : InData, d.bytes = [] ∧ h.getLast? = some (.inRead 2048 (.data d)) := by
  refine history_induct nofun fun v v' h e hv _ hn hc => ?_
  obtain ⟨d, hd, rfl⟩ := inRead_empty_of_done (afterEvents_viewOk start_viewOk hv) hn hc
  exact ⟨d, hd, List.getLast?_concat⟩

/-- The pages that are read but not yet completely written: the one a page write or a footer is awaited for. -/
def View.unwritten (v : View) : Nat :=
  match v.await with
  | .pageWrite _ => 1
  | .footer _    => 1
  | _            => 0

/-- An event that raises no exception adds a page to those written or yet to be written when it is a read with bytes, else leaves their number. -/
theorem next_pagesRead {v v' : View} {e : Event} (h : v.next e = some v') (hc : v'.ctl ≠ .failed) :
    v'.pageIdx + v'.unwritten = v.pageIdx + v.unwritten + if readsBytes e then 1 else 0 := by
  rcases next_cases h with ⟨-, -, rfl⟩ | ⟨ha, rfl, rfl⟩ | ⟨ha, rfl, rfl⟩ | ⟨-, -, rfl⟩ | ⟨ha, rfl, rfl⟩ | ⟨-, -, rfl⟩ | ⟨_, ha, rfl, hd, rfl⟩ |
    ⟨_, ha, rfl, hd, rfl⟩ | ⟨_, -, -, rfl⟩ | ⟨_, ha, rfl, -, rfl⟩ | ⟨_, ha, rfl, -, rfl⟩ | ⟨_, -, -, rfl⟩ | ⟨_, ha, rfl, rfl⟩ <;>
    simp_all [View.unwritten, View.fail, readsBytes]

/-- Along a history without a failure the pages written, and the one yet to be written, are the reads answered with bytes. -/
theorem afterEvents_pagesRead : ∀ (h : List Event) (v : View), View.start.afterEvents h = some v → v.ctl ≠ .failed →
    v.pageIdx + v.unwritten = (h.filter readsBytes).length := by
  refine history_induct (fun _ => rfl) fun v v' h e hv ih hn hc => ?_
  have hcv : v.ctl ≠ .failed := fun hf => by
    simp [next_failed (afterEvents_viewOk start_viewOk hv) hf] at hn
  rw [next_pagesRead hn hc, ih hcv, List.filter_append, List.length_append]
  cases hr : readsBytes e <;> simp [hr]

/-- In `DONE` nothing is awaited, and there is a geometry (R22). -/
theorem await_of_done {v : View} (hv : ViewOk v) (hc : v.ctl = .done) : v.await = .nothing ∧ v.geom ≠ .none := by
  cases ha : v.await <;> simp_all [ViewOk]

/-- Settles O56: an event that raised an exception would have led to `FAILED`; in `DONE` no request is outstanding and no page is yet to be written. -/
theorem successMeansEveryRequestSucceeded : Obligations.SuccessMeansEveryRequestSucceeded := by
  intro s hs hdone
  have hc : s.ctl = .done := by simpa [State.success] using hdone
  have hraises : ∀ e ∈ s.history, raises e = false := fun e he => by
    obtain ⟨before, after, hh⟩ := List.append_of_mem he
    obtain ⟨-, hr⟩ := geometryFirstAndNothingAfterFailure s hs before after e hh
    refine Bool.eq_false_iff.2 fun h => ?_
    obtain ⟨-, hfailed⟩ := hr h
    cases hc.symm.trans hfailed
  obtain ⟨v, hv, hg, hk, -, hn, hw⟩ := hs
  have hvc : v.ctl = .done := hk.symm.trans hc
  obtain ⟨ha, hgeom⟩ := await_of_done (afterEvents_viewOk start_viewOk hv) hvc
  have hpages := afterEvents_pagesRead s.history v hv (by simp [hvc])
  rw [View.unwritten, ha] at hpages
  refine ⟨hraises, afterEvents_done s.history v hv hvc, hn.trans hpages, hg ▸ hgeom, ?_⟩
  rw [ha] at hw
  cases hb : s.busy with
  | none => rfl
  | some b => simp [awaits, hb] at hw

end Sys2Proof.Machine
